-- ==== Sys2Proof/Word.lean ====
section
/-!
DEFINITION. The bit-vector types of the block: what the spec gives a width in bits.
Bit 0 is the least significant bit of every one of them (00_scope.md R11).
-/
namespace Sys2Proof

/-- One byte of an image buffer (30_encoding.md R91 to R93). -/
abbrev Byte := BitVec 8

/-- One word of `FRAME` or `RBUF` (20_memory.md R60, 30_encoding.md R96). -/
abbrev Word := BitVec 32

/-- A 16-bit quantity: a timer count, a slot offset, an entry of `TROM` (00_scope.md R17). -/
abbrev Half := BitVec 16

/-- A column pattern, held in the 14 bits of the frame word's `PAT` field (30_encoding.md R96).
The pattern proper has `NCOLS` bits (00_scope.md R12); `belowCols` says that it has no other. -/
abbrev ColPat := BitVec 14

/-- A row pattern: bit r is row line r (00_scope.md R12). -/
abbrev RowPat := BitVec 3

/-- A brightness level as it is carried inside the block (30_encoding.md R91). -/
abbrev Level := BitVec 4

/-- The pattern has no bit at or above `ncols` (30_encoding.md R100). -/
abbrev belowCols (ncols : Nat) (p : ColPat) : Prop := p.toNat < 2 ^ ncols

end Sys2Proof
end

