-- ==== Sys2Proof/Config.lean ====
section
/-!
DEFINITION. The configuration: the fixed parameters (00_scope.md R8), the open parameters (R9) as
a record, the check a model makes on them, and the spec's example values `REF5`, `T_REF` and `MB9`.
-/
namespace Sys2Proof

/-! ### Fixed parameters (00_scope.md R8) -/

def IMG_W : Nat := 5
def IMG_H : Nat := 5
def NLEVELS : Nat := 10
def MAX_LEVEL : Nat := 9
def NROWS : Nat := 3
def ROW_TICKS : Nat := 375
def TICK_US : Nat := 16
def ROW_SLOT_US : Nat := 6000
def CYCLE_TICKS : Nat := 1125
def CNT_BITS : Nat := 16
def NCHAN_MAX : Nat := 2
def MAX_EVENTS : Nat := 9
def GREY_BYTES : Nat := 25
def BIT_BYTES : Nat := 5
/-- Words of one row record and of a frame (30_encoding.md R95). -/
def ROW_WORDS : Nat := 10
def FRAME_WORDS : Nat := 30

/-- What happens to a level above 9 (40_brightness_image.md R131, 93_implementation_defined.md
U10): read as 9 (`CLAMP`, the decided policy D4) or the fault `LevelRange` (`REJECT`). -/
inductive LevelPolicy where
  | clamp
  | reject
  deriving DecidableEq, Repr

/-- The parameters the spec makes arguments of the model (00_scope.md R9; D1, D2, D4, D9, D10).
Plain data; no step changes it. -/
structure Config where
  /-- `NCOLS`, the number of column lines. -/
  ncols : Nat
  /-- `LAYOUT(r, c)`: per physical row, per column, the image cell (x, y) or none. -/
  layout : List (List (Option (Nat × Nat)))
  /-- `TROM`, the threshold table `T(0..9)` (20_memory.md R63). -/
  trom : List Half
  /-- `INIT_DELAY`, ticks from the initializer to the first timer event. -/
  initDelay : Half
  /-- `LATENCY_MAX`, the ticks a deliverable event may wait. -/
  latencyMax : Nat
  /-- `LEVEL_POLICY`. -/
  levelPolicy : LevelPolicy
  deriving DecidableEq, Repr

/-- The image cells that some physical position shows, in order of position. -/
def Config.cells (c : Config) : List (Nat × Nat) := c.layout.flatten.filterMap id

/-- `LAYOUT` is a map from the 3 × `NCOLS` positions, injective where it is defined, into the
5×5 grid (00_scope.md R9). -/
abbrev Config.layoutOk (c : Config) : Prop :=
  c.layout.length = NROWS ∧ (∀ r ∈ c.layout, r.length = c.ncols) ∧
    c.cells.Nodup ∧ ∀ p ∈ c.cells, p.1 < IMG_W ∧ p.2 < IMG_H

/-- `T(0) = 0 < T(1) < ... < T(9) = ROW_TICKS` (00_scope.md R9, 40_brightness_image.md R132). -/
abbrev Config.tromOk (c : Config) : Prop :=
  c.trom.length = NLEVELS ∧ c.trom[0]? = some 0 ∧ c.trom[MAX_LEVEL]? = some 375 ∧
    c.trom.Pairwise (· < ·)

/-- The checks a model makes on its configuration before running anything (00_scope.md R9). -/
abbrev Config.ok (c : Config) : Prop :=
  1 ≤ c.ncols ∧ c.ncols ≤ 14 ∧ c.layoutOk ∧ c.tromOk ∧ c.initDelay ≠ 0

/-- `T_REF` (40_brightness_image.md R133, D2). -/
def tRef : List Half := [0, 2, 4, 8, 15, 29, 55, 104, 197, 375]

/-- `REF5`'s layout: `LAYOUT(r, c) = (x = c, y = r)` (00_scope.md R9, D1). -/
def ref5Layout : List (List (Option (Nat × Nat))) :=
  [[some (0, 0), some (1, 0), some (2, 0), some (3, 0), some (4, 0)],
   [some (0, 1), some (1, 1), some (2, 1), some (3, 1), some (4, 1)],
   [some (0, 2), some (1, 2), some (2, 2), some (3, 2), some (4, 2)]]

/-- The configuration of the spec's examples (95_test_vectors.md). DESIGN CHOICE (log entry 1): the
spec makes these arguments of the model; this is the value the reset state carries. -/
def ref5 : Config where
  ncols := 5
  layout := ref5Layout
  trom := tRef
  initDelay := 375
  latencyMax := 0
  levelPolicy := .clamp

/-- The configuration `MB9` (00_scope.md R10, 93_implementation_defined.md GK1), which no rule
depends on; it serves the one `MB9` vector. -/
def mb9 : Config where
  ncols := 9
  layout :=
    [[some (0, 0), some (2, 0), some (4, 0), some (4, 3), some (3, 3), some (2, 3), some (1, 3),
      some (0, 3), some (1, 2)],
     [some (4, 2), some (0, 2), some (2, 2), some (1, 0), some (3, 0), some (3, 4), some (1, 4),
      none, none],
     [some (2, 4), some (4, 4), some (0, 4), some (0, 1), some (1, 1), some (2, 1), some (3, 1),
      some (4, 1), some (3, 2)]]
  trom := tRef
  initDelay := 375
  latencyMax := 0
  levelPolicy := .clamp

end Sys2Proof
end

