-- ==== Sys2Proof/Syntax.lean ====
section
/-!
DEFINITION. The syntax: images, the abstract compiled frame, the foreground's command port, and the
instructions, one constructor per row of spec/opcode_table.json (30_encoding.md R106).
-/
namespace Sys2Proof

/-- The two concrete image variants (40_brightness_image.md R135): a greyscale buffer of 25 bytes
(30_encoding.md R92) or a bitmask of 5 bytes (R93). -/
inductive Image where
  | grey (buf : List Byte)
  | bits (buf : List Byte)
  deriving DecidableEq, Repr

/-- One scheduled event: at tick offset `off` of the row slot, switch off the columns `clr`
(30_encoding.md R95, D7). -/
structure Event where
  off : Half
  clr : ColPat
  deriving DecidableEq, Repr

/-- The schedule of one physical row (30_encoding.md R95); its `n` is the length of `evs`. -/
structure RowSched where
  init : ColPat
  evs : List Event
  deriving DecidableEq, Repr

/-- A compiled frame: the schedules of the three physical rows (30_encoding.md R95). -/
structure Frame where
  row0 : RowSched
  row1 : RowSched
  row2 : RowSched
  deriving DecidableEq, Repr

/-- What foreground code puts on the command port: the 3-bit code and the operands carried beside
it (30_encoding.md R104). -/
structure Command where
  cmd : BitVec 3
  kind : BitVec 1
  image : List Byte
  frame : List Word
  deriving DecidableEq, Repr

/-- One operation of the foreground program: a command on the port, or one of the two
pseudo-operations of the textual notation (30_encoding.md R107). -/
inductive ForegroundOp where
  | port (c : Command)
  | showImage (img : Image)
  | setFrameCs (f : List Word)
  deriving DecidableEq, Repr

/-- One line of the foreground's program text (30_encoding.md R107): an operation, or the script's
`run N`. -/
inductive ScriptLine where
  | op (o : ForegroundOp)
  | run (n : Nat)
  deriving DecidableEq, Repr

/-- The operations of the block (30_encoding.md R106), one constructor per row of
spec/opcode_table.json. -/
inductive Instr where
  /-- `ROWHDR` -/
  | rowhdr (pat : ColPat) (n : BitVec 4)
  /-- `EVT` -/
  | evt (clr : ColPat) (off : Half)
  /-- `PAD` -/
  | pad
  /-- `NOP` -/
  | nop
  /-- `INIT` -/
  | init
  /-- `COMPILE` -/
  | compile (img : Image)
  /-- `SET_FRAME` -/
  | setFrame (f : List Word)
  /-- `STOP` -/
  | stop
  /-- `IRQ_DISABLE` -/
  | irqDisable
  /-- `IRQ_ENABLE` -/
  | irqEnable
  /-- `CMD_RESERVED_7` -/
  | cmdReserved7
  /-- `HANDLE_EVENT` -/
  | handleEvent
  /-- `HANDLE_EVENT.ROW_START` -/
  | handleRowStart
  /-- `HANDLE_EVENT.EVENT` -/
  | handleRowEvent
  /-- `HANDLE_EVENT.ROW_END` -/
  | handleRowEnd
  /-- `PHASE_RESERVED_3` -/
  | phaseReserved3
  /-- `TICK` -/
  | tick
  /-- `PROGRAM_PERIOD` -/
  | programPeriod (tickUs rowTicks : Half)
  /-- `SCHEDULE_NEXT` -/
  | scheduleNext (n : Nat)
  /-- `CLEAR_EVENT` -/
  | clearEvent
  /-- `SET_ROWS` -/
  | setRows (p : RowPat)
  /-- `SET_COLS` -/
  | setCols (p : ColPat)
  /-- `CLAMP` -/
  | clamp (v : Byte)
  /-- `T` -/
  | thresholdOf (l : Level)
  /-- `GREY.BRIGHTNESS_AT` -/
  | greyBrightnessAt (buf : List Byte) (x y : Nat)
  /-- `BIT.BRIGHTNESS_AT` -/
  | bitBrightnessAt (buf : List Byte) (x y : Nat)
  /-- `COMPILE_ROW` -/
  | compileRow (img : Image) (r : Nat)
  /-- `show` -/
  | showImage (img : Image)
  /-- `set_frame_cs` -/
  | setFrameCs (f : List Word)
  deriving DecidableEq, Repr

end Sys2Proof
end

