-- ==== Sys2Proof/WellFormed.lean ====
section
/-!
DEFINITION. Well-formed instructions: every operand is one the spec's operand line admits. What a
frame must satisfy to be shown (30_encoding.md R100) is no matter of form; `SET_FRAME` checks it.
-/
namespace Sys2Proof

/-- The image buffer has the size of its variant (30_encoding.md R92, R93). -/
def Image.wf : Image → Bool
  | .grey buf => buf.length == GREY_BYTES
  | .bits buf => buf.length == BIT_BYTES

/-- The operands are in the ranges the spec gives the operation, for `ncols` column lines. -/
def Instr.wf (ncols : Nat) : Instr → Bool
  | .rowhdr pat n => decide (belowCols ncols pat) && decide (n.toNat ≤ MAX_EVENTS)
  | .evt clr _ => decide (belowCols ncols clr)
  | .pad => true
  | .nop => true
  | .init => true
  | .compile img => img.wf
  | .setFrame f => f.length == FRAME_WORDS
  | .stop => true
  | .irqDisable => true
  | .irqEnable => true
  | .cmdReserved7 => true
  | .handleEvent => true
  | .handleRowStart => true
  | .handleRowEvent => true
  | .handleRowEnd => true
  | .phaseReserved3 => true
  | .tick => true
  | .programPeriod _ _ => true
  | .scheduleNext n => decide (1 ≤ n) && decide (n ≤ 65535)
  | .clearEvent => true
  | .setRows _ => true
  | .setCols p => decide (belowCols ncols p)
  | .clamp _ => true
  | .thresholdOf l => decide (l.toNat ≤ MAX_LEVEL)
  | .greyBrightnessAt buf x y => buf.length == GREY_BYTES && decide (x < IMG_W) && decide (y < IMG_H)
  | .bitBrightnessAt buf x y => buf.length == BIT_BYTES && decide (x < IMG_W) && decide (y < IMG_H)
  | .compileRow img r => img.wf && decide (r < NROWS)
  | .showImage img => img.wf
  | .setFrameCs f => f.length == FRAME_WORDS

end Sys2Proof
end

