-- ==== Sys2Proof/Decode.lean ====
section
/-!
DEFINITION. The encodings of 30_encoding.md: the decoder of the three ports that carry bits (R90),
total and refusing by name, the encoder, and the stored form of a compiled frame with its
well-formedness (R95 to R102).
-/
namespace Sys2Proof

/-- Why a form on a port stands for no instruction. -/
inductive DecodeError where
  /-- `TAG = 11` (R102). -/
  | reservedTag (w : Word)
  /-- `TAG = 00` with another bit set: not the all-zero `PAD` (R99). -/
  | padNotZero (w : Word)
  /-- a `ROWHDR` with non-zero `ARG[15:4]` (R102). -/
  | headerArgNotZero (w : Word)
  /-- a `ROWHDR` with `n` of 10..15 (R102). -/
  | eventCount (w : Word)
  /-- a `PAT` bit at or above `NCOLS` (R102). -/
  | patternBeyondColumns (w : Word)
  /-- `COMPILE` with an image buffer that has not the size of its `KIND` (R92, R93, R104). -/
  | imageSize (bytes : Nat)
  /-- `SET_FRAME` with an operand that is not 30 words (R104). -/
  | frameSize (words : Nat)
  /-- a frame word that is not given as four bytes. -/
  | wordSize (bytes : Nat)
  deriving DecidableEq, Repr

/-! ### Fields of a frame word (R96) -/

/-- `TAG`, bits 31:30. -/
def tagOf (w : Word) : BitVec 2 := w.extractLsb' 30 2

/-- `PAT`, bits 29:16. -/
def patOf (w : Word) : ColPat := w.extractLsb' 16 14

/-- `ARG`, bits 15:0. -/
def argOf (w : Word) : Half := w.extractLsb' 0 16

/-- `ARG[3:0]`, the event count of a `ROWHDR` (R97). -/
def countOf (w : Word) : BitVec 4 := w.extractLsb' 0 4

/-- `ARG[15:4]`, zero in a `ROWHDR` (R97). -/
def headerRestOf (w : Word) : BitVec 12 := w.extractLsb' 4 12

/-- A frame word from its fields (R96). -/
def frameWord (tag : BitVec 2) (pat : ColPat) (arg : Half) : Word := tag ++ pat ++ arg

/-! ### The decoder -/

/-- A 32-bit frame word, for `ncols` column lines (R96 to R99, R102). -/
def decodeFrameWord (ncols : Nat) (w : Word) : Except DecodeError Instr :=
  if tagOf w = 0 then
    if w = 0 then .ok .pad else .error (.padNotZero w)
  else if tagOf w = 1 then
    if headerRestOf w ≠ 0 then .error (.headerArgNotZero w)
    else if MAX_EVENTS < (countOf w).toNat then .error (.eventCount w)
    else if belowCols ncols (patOf w) then .ok (.rowhdr (patOf w) (countOf w))
    else .error (.patternBeyondColumns w)
  else if tagOf w = 2 then
    if belowCols ncols (patOf w) then .ok (.evt (patOf w) (argOf w))
    else .error (.patternBeyondColumns w)
  else .error (.reservedTag w)

/-- The image a `COMPILE` command carries: `KIND` 0 greyscale, 1 binary (R104). -/
def decodeImage (kind : BitVec 1) (buf : List Byte) : Except DecodeError Image :=
  if kind = 0 then
    if buf.length = GREY_BYTES then .ok (.grey buf) else .error (.imageSize buf.length)
  else
    if buf.length = BIT_BYTES then .ok (.bits buf) else .error (.imageSize buf.length)

/-- The command port (R104). `CMD = 7` is the reserved code, an instruction of its own here,
which the machine refuses (44_foreground_commands.md R234). -/
def decodeCommand (c : Command) : Except DecodeError Instr :=
  match c.cmd.toNat with
  | 0 => .ok .nop
  | 1 => .ok .init
  | 2 =>
    match decodeImage c.kind c.image with
    | .ok img => .ok (.compile img)
    | .error e => .error e
  | 3 => if c.frame.length = FRAME_WORDS then .ok (.setFrame c.frame)
      else .error (.frameSize c.frame.length)
  | 4 => .ok .stop
  | 5 => .ok .irqDisable
  | 6 => .ok .irqEnable
  | _ => .ok .cmdReserved7

/-- The engine's dispatch code `PHASE[1:0]` (R105). -/
def decodePhase (p : BitVec 2) : Instr :=
  match p.toNat with
  | 0 => .handleRowStart
  | 1 => .handleRowEvent
  | 2 => .handleRowEnd
  | _ => .phaseReserved3

/-- An item of the foreground program. -/
def decodeForeground : ForegroundOp → Except DecodeError Instr
  | .port c => decodeCommand c
  | .showImage img =>
    if img.wf then .ok (.showImage img)
    else .error (.imageSize (match img with | .grey buf => buf.length | .bits buf => buf.length))
  | .setFrameCs f =>
    if f.length = FRAME_WORDS then .ok (.setFrameCs f) else .error (.frameSize f.length)

/-- A form as it arrives on its port: a decoder knows the length of each form from the port it
arrives on (R90). -/
inductive Wire where
  | frameWord (w : Word)
  | command (c : Command)
  | phase (p : BitVec 2)
  deriving DecidableEq, Repr

/-- The decoder, total on every form of every port. -/
def decode (ncols : Nat) : Wire → Except DecodeError Instr
  | .frameWord w => decodeFrameWord ncols w
  | .command c => decodeCommand c
  | .phase p => .ok (decodePhase p)

/-! ### The encoder -/

/-- `ROWHDR` (R97). -/
def encodeHeader (init : ColPat) (n : BitVec 4) : Word := frameWord 1 init (n.setWidth 16)

/-- `EVT` (R98). -/
def encodeEvent (clr : ColPat) (off : Half) : Word := frameWord 2 clr off

/-- A command whose operands are none (R104). -/
def bareCommand (cmd : BitVec 3) : Command := ⟨cmd, 0, [], []⟩

/-- The `COMPILE` command for an image (R104). -/
def compileCommand : Image → Command
  | .grey buf => ⟨2, 0, buf, []⟩
  | .bits buf => ⟨2, 1, buf, []⟩

/-- The `SET_FRAME` command for 30 words (R104). -/
def setFrameCommand (f : List Word) : Command := ⟨3, 0, [], f⟩

/-- The encoding of an instruction, for the rows that have one: the adapter capabilities, `TICK`,
`HANDLE_EVENT`, the lookups, the row compiler and the pseudo-operations have none (R90). -/
def encode : Instr → Option Wire
  | .rowhdr init n => some (.frameWord (encodeHeader init n))
  | .evt clr off => some (.frameWord (encodeEvent clr off))
  | .pad => some (.frameWord 0)
  | .nop => some (.command (bareCommand 0))
  | .init => some (.command (bareCommand 1))
  | .compile img => some (.command (compileCommand img))
  | .setFrame f => some (.command (setFrameCommand f))
  | .stop => some (.command (bareCommand 4))
  | .irqDisable => some (.command (bareCommand 5))
  | .irqEnable => some (.command (bareCommand 6))
  | .cmdReserved7 => some (.command (bareCommand 7))
  | .handleRowStart => some (.phase 0)
  | .handleRowEvent => some (.phase 1)
  | .handleRowEnd => some (.phase 2)
  | .phaseReserved3 => some (.phase 3)
  | .handleEvent => none
  | .tick => none
  | .programPeriod _ _ => none
  | .scheduleNext _ => none
  | .clearEvent => none
  | .setRows _ => none
  | .setCols _ => none
  | .clamp _ => none
  | .thresholdOf _ => none
  | .greyBrightnessAt _ _ _ => none
  | .bitBrightnessAt _ _ _ => none
  | .compileRow _ _ => none
  | .showImage _ => none
  | .setFrameCs _ => none

/-! ### Bytes of a word (20_memory.md R69: little-endian) -/

/-- The four bytes of a word, byte 0 (bits 7..0) first. -/
def wordBytes (w : Word) : List Byte :=
  [w.extractLsb' 0 8, w.extractLsb' 8 8, w.extractLsb' 16 8, w.extractLsb' 24 8]

/-- The word four bytes stand for, byte 0 (bits 7..0) first. -/
def wordOfBytes (b0 b1 b2 b3 : Byte) : Word := b3 ++ b2 ++ b1 ++ b0

/-- A frame word given as bytes. -/
def decodeFrameBytes (ncols : Nat) : List Byte → Except DecodeError Instr
  | [b0, b1, b2, b3] => decodeFrameWord ncols (wordOfBytes b0 b1 b2 b3)
  | bs => .error (.wordSize bs.length)

/-! ### The stored form of a frame (R95, R101) -/

/-- The stored form of an event. -/
def encodeEvt (e : Event) : Word := encodeEvent e.clr e.off

/-- A row record: the header, the events in schedule order, `PAD` to ten words (R95). -/
def encodeRow (r : RowSched) : List Word :=
  encodeHeader r.init (BitVec.ofNat 4 r.evs.length) ::
    (r.evs.map encodeEvt ++ List.replicate (MAX_EVENTS - r.evs.length) 0)

/-- `enc(f)`: the 30 words of a frame (R101). -/
def encodeFrame (f : Frame) : List Word := encodeRow f.row0 ++ encodeRow f.row1 ++ encodeRow f.row2

/-- One event from an `EVT` word. -/
def decodeEvt (ncols : Nat) (w : Word) : Option Event :=
  match decodeFrameWord ncols w with
  | .ok (.evt clr off) => some ⟨off, clr⟩
  | _ => none

/-- The event words of a row: `n` `EVT` words, then zero words only (R100). -/
def decodeEvents (ncols : Nat) : Nat → List Word → Option (List Event)
  | 0, ws => if ws.all (· == 0) then some [] else none
  | _ + 1, [] => none
  | n + 1, w :: ws =>
    match decodeEvt ncols w, decodeEvents ncols n ws with
    | some e, some es => some (e :: es)
    | _, _ => none

/-- A row record read back: header, then `n` events, then `PAD` to ten words (R101). -/
def decodeRow (ncols : Nat) : List Word → Option RowSched
  | [] => none
  | h :: ws =>
    if ws.length = MAX_EVENTS then
      match decodeFrameWord ncols h with
      | .ok (.rowhdr init n) => (decodeEvents ncols n.toNat ws).map fun es => ⟨init, es⟩
      | _ => none
    else none

/-- `dec(w)`: 30 words read back as a frame, or nothing (R101). DESIGN CHOICE (log entry 19): R101
leaves open which of R100's conditions make it nothing; here all but those on offsets do, so an
image with bad offsets reads as a frame, which `frameOk` refuses. -/
def decodeFrame (ncols : Nat) (ws : List Word) : Option Frame :=
  match decodeRow ncols (ws.take 10), decodeRow ncols ((ws.drop 10).take 10),
      decodeRow ncols (ws.drop 20) with
  | some r0, some r1, some r2 => some ⟨r0, r1, r2⟩
  | _, _, _ => none

/-! ### Well-formed frames (R100) -/

/-- The offsets lie in 1..`ROW_TICKS` − 1 and increase strictly. -/
abbrev offsetsOk (evs : List Event) : Prop :=
  (∀ e ∈ evs, 1 ≤ e.off.toNat ∧ e.off.toNat < ROW_TICKS) ∧
    evs.Pairwise fun a b => a.off.toNat < b.off.toNat

/-- One row of a well-formed frame: at most nine events, no pattern bit at or above `NCOLS`,
offsets as required. -/
abbrev RowSched.ok (ncols : Nat) (r : RowSched) : Prop :=
  r.evs.length ≤ MAX_EVENTS ∧ belowCols ncols r.init ∧ (∀ e ∈ r.evs, belowCols ncols e.clr) ∧
    offsetsOk r.evs

/-- `WF(f)` of the abstract frame. -/
abbrev Frame.ok (ncols : Nat) (f : Frame) : Prop :=
  f.row0.ok ncols ∧ f.row1.ok ncols ∧ f.row2.ok ncols

/-- A stored row record is well-formed: it satisfies the stored-form conditions and stands for a
row that is well-formed. -/
def rowOk (ncols : Nat) (ws : List Word) : Bool :=
  match decodeRow ncols ws with
  | some r => decide (r.ok ncols)
  | none => false

/-- `WF` of a stored frame. -/
def frameOk (ncols : Nat) (ws : List Word) : Bool :=
  match decodeFrame ncols ws with
  | some f => decide (f.ok ncols)
  | none => false

/-- The all-off row and `ALL_OFF` (10_state.md R38). -/
def allOffRow : RowSched := ⟨0, []⟩
def allOff : Frame := ⟨allOffRow, allOffRow, allOffRow⟩

/-! ### The host's reading of the opcode table -/

/-- The operands beside a command's code, which the table gives no bits: `KIND` 0 with 25 zero
bytes, and the all-off frame. DESIGN CHOICE (log entry 10). -/
def neutralCommand (cmd : BitVec 3) : Command :=
  match cmd.toNat with
  | 2 => ⟨2, 0, List.replicate GREY_BYTES 0, []⟩
  | 3 => setFrameCommand (encodeFrame allOff)
  | _ => bareCommand cmd

/-- The form that the table's `nbits` and `w` stand for: 32 bits a frame word, 3 bits (one whole
byte) a command, 2 bits `PHASE`. A row of 2 bits rounded to a whole byte reads as a command
(log entry 10). -/
def wireOfTableWord (nbits w : Nat) : Option Wire :=
  if nbits = 32 then if w < 2 ^ 32 then some (.frameWord (BitVec.ofNat 32 w)) else none
  else if nbits = 8 ∨ nbits = 3 then
    if w < 8 then some (.command (neutralCommand (BitVec.ofNat 3 w))) else none
  else if nbits = 2 then if w < 4 then some (.phase (BitVec.ofNat 2 w)) else none
  else none

/-- The instruction the decoder reads from a row's word. -/
def decodeTableWord (nbits w : Nat) : Option Instr :=
  match wireOfTableWord nbits w with
  | none => none
  | some x =>
    match decode ref5.ncols x with
    | .ok i => some i
    | .error _ => none

end Sys2Proof
end

