-- ==== Sys2Proof/Machine/State.lean ====
section
/-!
DEFINITION. The state of the block (10_state.md R20), as plain data, with the model's own fields
beside it, the reset state, and the reasons a step can stop.
-/
namespace Sys2Proof.Machine
open Sys2Proof

/-- `TCFG`, what `PROGRAM_PERIOD` configured (10_state.md R34). -/
structure TimerConfig where
  tickUs : Half
  rowTicks : Half
  deriving DecidableEq, Repr

/-- The fault classes of 60_exceptions.md R250. A fault that is raised ends the foreground program and
nothing else (R251, log entry 12), so no step ends in one; the name stands in `result`. -/
inductive Fault where
  /-- Raised by `CLAMP` (so by `brightness_at`, `COMPILE_ROW`, `COMPILE` and `show`) for a level
  above 9 when `LEVEL_POLICY = REJECT` (R251). Safe: the block's state is as it was. -/
  | levelRange (v : Byte)
  /-- Raised by nothing: the call is refused (R252). -/
  | coordRange (x y : Nat)
  /-- Raised by nothing: every step is atomic (R253). Unsafe for a realisation that breaks the
  discipline (log entry 15). -/
  | concurrentAccess
  /-- Raised by nothing: the adapter is assumed to succeed (R254, 43_timer_gpio_adapter.md R209).
  Unsafe where a register write is lost (log entry 15). -/
  | adapterFailure
  deriving DecidableEq, Repr

/-- The "result out" of the last operation that returns a value (30_encoding.md R104,
43_timer_gpio_adapter.md R203). The model's own (log entry 4): nothing in the block reads it. -/
inductive Result where
  | nothing
  /-- `COMPILE`: a frame, 30 words. -/
  | frame (ws : List Word)
  /-- `COMPILE_ROW`: a row record, 10 words. -/
  | row (ws : List Word)
  /-- `CLAMP`, `brightness_at`: a level. -/
  | level (l : Level)
  /-- `T`: a tick count. -/
  | ticks (t : Half)
  /-- `CLEAR_EVENT`: the old `PENDING`. -/
  | flag (b : Bool)
  /-- The fault an operation ended with instead of a value (00_scope.md R13 `raise`). -/
  | raised (f : Fault)
  deriving DecidableEq, Repr

/-- Which agent is to move next, as the environment schedules it (00_scope.md R15, R16;
log entry 3). -/
inductive Move where
  | engine
  | timer
  | foreground
  deriving DecidableEq, Repr

/-- The state of the block, with the model's own fields after the spec's. -/
structure State where
  /-- `ACTIVE` in its stored form `FRAME`, 30 words (10_state.md R21, 20_memory.md R61). -/
  frame : List Word
  /-- `ROW` (R22). -/
  row : BitVec 2
  /-- `PHASE` (R23). -/
  phase : BitVec 2
  /-- `K` (R25). -/
  k : BitVec 4
  /-- `ELAPSED` (R26). -/
  elapsed : Half
  /-- `COLS` (R27). -/
  cols : ColPat
  /-- `ROWBUF` in its stored form `RBUF`, 10 words (R28, 20_memory.md R62). -/
  rowbuf : List Word
  /-- `CNT` (R29). -/
  cnt : Half
  /-- `CMP` (R30). -/
  cmp : Half
  /-- `RUN` (R31). -/
  run : Bool
  /-- `PENDING` (R32). -/
  pending : Bool
  /-- `IRQ_EN` (R33). -/
  irqEn : Bool
  /-- `TCFG` (R34). -/
  tcfg : TimerConfig
  /-- `ROWOUT` (R35). -/
  rowout : RowPat
  /-- `COLOUT` (R36). -/
  colout : ColPat
  /-- `INITED` (R37). -/
  inited : Bool
  /-- The configuration of this machine (00_scope.md R9; log entry 1). No step writes it. -/
  cfg : Config
  /-- What is left of the foreground program (00_scope.md R16; log entry 3). -/
  prog : List ScriptLine
  /-- The environment's schedule of moves (log entry 3). -/
  sched : List Move
  /-- Ticks taken while the event now deliverable has waited (60_exceptions.md R258; log entry 5). -/
  waited : Nat
  /-- The last value returned (log entry 4). -/
  result : Result
  deriving DecidableEq, Repr

/-- The numeric codes of the fault classes (R250, D21). -/
def Fault.code : Fault → Nat
  | .levelRange _ => 1
  | .coordRange _ _ => 2
  | .concurrentAccess => 3
  | .adapterFailure => 4

/-- Why a step is refused: the spec's `refuse`, "a model must give it no step" (00_scope.md R13).
Each is safe: the model stops, and nothing can be proved of what would follow. -/
inductive Refusal where
  /-- An instruction that has no meaning yet (`exec`'s own arms; there is none). -/
  | notModelled (mnemonic : String)
  /-- A command before `INIT` other than `INIT`, `COMPILE`, `NOP` (44_foreground_commands.md R233):
  raised by `SET_FRAME`, `STOP`, `IRQ_DISABLE`, `IRQ_ENABLE`. -/
  | notInitialised
  /-- A second `INIT` (R236, U6): raised by `INIT`. -/
  | alreadyInitialised
  /-- `HANDLE_EVENT` while it is not enabled (42_display_engine.md R183, U5): raised by
  `HANDLE_EVENT`. -/
  | handlerNotEnabled
  /-- `TICK` while it is not enabled (43_timer_gpio_adapter.md R204): raised by `TICK`. -/
  | tickNotEnabled
  /-- A frame that is not well-formed (R238, U3): raised by `SET_FRAME`. -/
  | frameNotWellFormed
  /-- `SCHEDULE_NEXT(N)` with N outside 1..65535 (43_timer_gpio_adapter.md R202, U14): raised by
  `SCHEDULE_NEXT`, and by the engine only on a schedule no well-formed frame holds. -/
  | delayOutOfRange (n : Nat)
  /-- `CMD = 7` (R234): raised by the reserved code. -/
  | reservedCommand
  /-- `PHASE = 3` (30_encoding.md R105): raised by `HANDLE_EVENT` and the reserved code. -/
  | reservedPhase
  /-- A `PAD` word played (30_encoding.md R99, "never played"): raised by `PAD`. -/
  | padNeverPlayed
  /-- A row start on a record whose first word is no `ROWHDR`, which no well-formed frame holds
  (30_encoding.md R102): raised by the row start and the event transition. -/
  | notARowHeader
  /-- An event awaited that is no `EVT` below the row's `n`, which no well-formed frame leads to
  (30_encoding.md R102): raised by `ROWHDR`, `EVT` and the event transition. -/
  | notAnEvent
  /-- An index outside `FRAME`, `RBUF`, `TROM` or the image buffer (20_memory.md R70): raised by the
  row start, the lookups, `COMPILE_ROW`. -/
  | indexOutOfRange (i : Nat)
  /-- `brightness_at` outside the grid (40_brightness_image.md R138, U2): raised by the two
  `brightness_at` operations. -/
  | coordinates (x y : Nat)
  /-- `SET_COLS` of more than `NCOLS` bits (43_timer_gpio_adapter.md R206 takes an `NCOLS`-bit
  pattern; log entry 16). -/
  | patternBeyondColumns (p : ColPat)
  /-- A form on the foreground's port that stands for no instruction (30_encoding.md R104). -/
  | undecodable (e : DecodeError)
  deriving DecidableEq, Repr

/-- The outcome of a meaning. -/
abbrev Res := Host.Outcome State Fault Refusal

/-- Every storage space has its size (20_memory.md R60): `FRAME` 30 words, `RBUF` 10 words. With
the size fixed a space has one form only: an entry for each index, no other. -/
def Memory.wf (s : State) : Bool := s.frame.length == FRAME_WORDS && s.rowbuf.length == ROW_WORDS

/-- The machine at its start: `INITED = 0` (10_state.md R42), every register at the value R44 gives
for the block's reset state. Before `INIT` the spec gives the other registers no value: DESIGN
CHOICE, unsafe, log entry 2; the statements about power-on speak of EVERY state with
`inited = false`. Configuration, program, schedule: log entries 1 and 3. -/
def State.reset : State where
  frame := encodeFrame allOff
  row := 0
  phase := 0
  k := 0
  elapsed := 0
  cols := 0
  rowbuf := encodeRow allOffRow
  cnt := 0
  cmp := 375
  run := true
  pending := false
  irqEn := true
  tcfg := ⟨16, 375⟩
  rowout := 0
  colout := 0
  inited := false
  cfg := ref5
  prog := []
  sched := []
  waited := 0
  result := .nothing

end Sys2Proof.Machine
end

