-- ==== Sys2Proof/Machine/Flags.lean ====
section
/-!
DEFINITION. The one status flag of the block, `PENDING` (10_state.md R32), the mask `IRQ_EN`, and the
conditions computed from them: when the interrupt is deliverable, when the timer may tick.
-/
namespace Sys2Proof.Machine
open Sys2Proof

/-- The display timer interrupt is deliverable (60_exceptions.md R256). -/
def deliverable (s : State) : Bool := s.inited && s.pending && s.irqEn

/-- `TICK` is enabled (43_timer_gpio_adapter.md R204): the timer runs, and no deliverable event is
waiting that has used up its `LATENCY_MAX` ticks (60_exceptions.md R258; DEDUCED, log entry 5). With
`LATENCY_MAX = 0` that is R204's condition word for word. -/
def tickEnabled (s : State) : Bool :=
  s.inited && s.run && (!deliverable s || decide (s.waited < s.cfg.latencyMax))

/-- The flag after the counter has moved to `cnt`: set on a match, else as it was (R204). -/
def pendingAfter (old : Bool) (cnt cmp : Half) : Bool := old || cnt == cmp

/-- The ticks the deliverable event has waited, after one more tick (log entry 5). -/
def waitedAfterTick (s : State) : Nat := if deliverable s then s.waited + 1 else 0

end Sys2Proof.Machine
end

