-- ==== Sys2Proof/Machine/Operands.lean ====
section
/-!
DEFINITION. Operand forms: words of the storage spaces, the layout, image cells, levels and
thresholds. What an operand read cannot give has a name.
-/
namespace Sys2Proof.Machine
open Sys2Proof

/-- Why an operation has no value to return: a fault to raise, or no meaning in the spec. -/
inductive NoValue where
  | raises (f : Fault)
  | refused (r : Refusal)
  deriving DecidableEq, Repr

/-- Apply a read to each element of a list, in order; the first stop ends it. -/
def readEach {α β : Type} (f : α → Except NoValue β) : List α → Except NoValue (List β)
  | [] => .ok []
  | a :: as =>
    match f a with
    | .error x => .error x
    | .ok b =>
      match readEach f as with
      | .error x => .error x
      | .ok bs => .ok (b :: bs)

/-- `MemRead(space, addr, n)` (00_scope.md R13); outside the space it has no meaning
(20_memory.md R70). -/
def memRead (space : List Word) (addr n : Nat) : Except Refusal (List Word) :=
  if addr + n ≤ space.length then .ok ((space.drop addr).take n)
  else .error (.indexOutOfRange (addr + n))

/-- `MemWrite(space, addr, n, v)`, `n` the number of words of `v` (00_scope.md R13). -/
def memWrite (space : List Word) (addr : Nat) (v : List Word) : Except Refusal (List Word) :=
  if addr + v.length ≤ space.length then
    .ok (space.take addr ++ v ++ space.drop (addr + v.length))
  else .error (.indexOutOfRange (addr + v.length))

/-- The fields of the `ROWHDR` of a row record: its initial pattern and its event count `n`
(30_encoding.md R97). -/
def headerOf (ncols : Nat) (rowbuf : List Word) : Except Refusal (ColPat × BitVec 4) :=
  match rowbuf with
  | [] => .error .notARowHeader
  | w :: _ =>
    match decodeFrameWord ncols w with
    | .ok (.rowhdr init n) => .ok (init, n)
    | _ => .error .notARowHeader

/-- `ROWBUF.ev[j]`, word 1 + j of the row record (20_memory.md R67). -/
def eventOf (ncols : Nat) (rowbuf : List Word) (j : Nat) : Except Refusal Event :=
  match rowbuf[1 + j]? with
  | none => .error .notAnEvent
  | some w =>
    match decodeEvt ncols w with
    | some e => .ok e
    | none => .error .notAnEvent

/-- `onehot(r)`, the pattern with only bit r set (00_scope.md R13). -/
def onehot (r : BitVec 2) : RowPat := 1#3 <<< r.toNat

/-- `LAYOUT(r, c)` (00_scope.md R9). -/
def layoutAt (cfg : Config) (r c : Nat) : Option (Nat × Nat) :=
  match cfg.layout[r]? with
  | none => none
  | some cells =>
    match cells[c]? with
    | none => none
    | some cell => cell

/-- `CLAMP(v)` under the level policy (40_brightness_image.md R131, 60_exceptions.md R251). -/
def clampLevel (policy : LevelPolicy) (v : Byte) : Except NoValue Level :=
  if MAX_LEVEL < v.toNat then
    match policy with
    | .clamp => .ok 9
    | .reject => .error (.raises (.levelRange v))
  else .ok (v.setWidth 4)

/-- `T(L) = TROM[L]` (40_brightness_image.md R132, 20_memory.md R63). -/
def threshold (trom : List Half) (l : Nat) : Except NoValue Half :=
  match trom[l]? with
  | some t => .ok t
  | none => .error (.refused (.indexOutOfRange l))

/-- `MemRead(IMG, i, 1)` (20_memory.md R64, R70). -/
def imageByte (buf : List Byte) (i : Nat) : Except NoValue Byte :=
  match buf[i]? with
  | some b => .ok b
  | none => .error (.refused (.indexOutOfRange i))

/-- `GREY.BRIGHTNESS_AT(buf, x, y)` (40_brightness_image.md R136, R138). -/
def greyLevel (policy : LevelPolicy) (buf : List Byte) (x y : Nat) : Except NoValue Level :=
  if x < IMG_W ∧ y < IMG_H then
    match imageByte buf (5 * y + x) with
    | .ok v => clampLevel policy v
    | .error e => .error e
  else .error (.refused (.coordinates x y))

/-- `BIT.BRIGHTNESS_AT(buf, x, y)` (40_brightness_image.md R137, R138). -/
def bitLevel (buf : List Byte) (x y : Nat) : Except NoValue Level :=
  if x < IMG_W ∧ y < IMG_H then
    match imageByte buf y with
    | .ok v => .ok (if v.getLsbD x then 9 else 0)
    | .error e => .error e
  else .error (.refused (.coordinates x y))

/-- `image.brightness_at(x, y)` (40_brightness_image.md R135). -/
def brightnessAt (policy : LevelPolicy) (img : Image) (x y : Nat) : Except NoValue Level :=
  match img with
  | .grey buf => greyLevel policy buf x y
  | .bits buf => bitLevel buf x y

end Sys2Proof.Machine
end

