-- ==== Sys2Proof/Machine/Ops.lean ====
section
/-!
DEFINITION. The shared operations over the registers: the five adapter capabilities
(43_timer_gpio_adapter.md R201 to R206), raising a fault, the cursor, the row latch, and the entry to and return from
the one interrupt (60_exceptions.md R256 to R260).
-/
namespace Sys2Proof.Machine
open Sys2Proof

/-- Go on with the next state, or stop. -/
def andThen (o : Res) (f : State → Res) : Res :=
  match o with
  | .next s => f s
  | .fault x => .fault x
  | .refused x => .refused x

/-- Go on with what a read gives; where it gives nothing there is no step. -/
def withValue {α : Type} (e : Except Refusal α) (f : α → Res) : Res :=
  match e with
  | .ok a => f a
  | .error x => .refused x

/-- `raise f` (00_scope.md R13, 60_exceptions.md R251): the operation ends with all state of the block as
it was and no value but the fault's name; the foreground program ends with it ("there is no
handler and no resumption"), and the display goes on (log entry 12). -/
def raise (f : Fault) (s : State) : Res := .next { s with prog := [], result := .raised f }

/-- Return a value, or raise the fault that came instead. -/
def orRaise {α : Type} (e : Except NoValue α) (s : State) (f : α → Res) : Res :=
  match e with
  | .ok a => f a
  | .error (.raises x) => raise x s
  | .error (.refused x) => .refused x

/-- `PROGRAM_PERIOD(tick_us, row_ticks)` (R201). -/
def programPeriod (tickUs rowTicks : Half) (s : State) : State :=
  { s with tcfg := ⟨tickUs, rowTicks⟩, cnt := 0 }

/-- `SCHEDULE_NEXT(N)`: fire again N ticks after this call (R202). -/
def scheduleNext (n : Nat) (s : State) : Res :=
  if 1 ≤ n ∧ n ≤ 65535 then .next { s with cmp := s.cnt + BitVec.ofNat 16 n }
  else .refused (.delayOutOfRange n)

/-- `CLEAR_EVENT()`: the old flag, and the state with the flag cleared (R203). -/
def clearEvent (s : State) : Bool × State := (s.pending, { s with pending := false })

/-- `SET_ROWS(p)` (R205). -/
def setRows (p : RowPat) (s : State) : State := { s with rowout := p }

/-- `SET_COLS(p)`: all columns at once (R206). -/
def setCols (p : ColPat) (s : State) : State := { s with colout := p }

/-- `COLS <- p; SET_COLS(COLS)` (42_display_engine.md R184, R185). -/
def writeCols (p : ColPat) (s : State) : State := setCols p { s with cols := p }

/-- Put the cursor `(PHASE, K)` and ask for the next fire. -/
def awaitNext (phase : BitVec 2) (k : BitVec 4) (n : Nat) (s : State) : Res :=
  scheduleNext n { s with phase := phase, k := k }

/-- `ROWBUF <- ACTIVE[ROW]`, the only read of `ACTIVE` (42_display_engine.md R184). -/
def latchRow (s : State) : Res :=
  withValue (memRead s.frame (ROW_WORDS * s.row.toNat) ROW_WORDS) fun ws =>
    .next { s with rowbuf := ws }

/-- `ROW <- (ROW + 1) mod 3` (42_display_engine.md R187). -/
def advanceRow (s : State) : State := { s with row := BitVec.ofNat 2 ((s.row.toNat + 1) % NROWS) }

/-- `IRQ_EN <- b` (44_foreground_commands.md R240, R241). -/
def writeIrqEn (b : Bool) (s : State) : State := { s with irqEn := b }

/-- Commands the foreground program goes on with. -/
def queue (cs : List Command) (s : State) : State :=
  { s with prog := cs.map (fun c => .op (.port c)) ++ s.prog }

/-- Taking the display timer interrupt: it needs a deliverable event, saves nothing and changes
nothing (60_exceptions.md R259) but what the handler does first, `CLEAR_EVENT` (42_display_engine.md
R183). The waiting count starts again (log entry 5). -/
def takeInterrupt (s : State) : Res :=
  if deliverable s then .next { (clearEvent s).2 with waited := 0 }
  else .refused .handlerNotEnabled

/-- The return from the handler: there is no return instruction, and it restores nothing
(60_exceptions.md R260). -/
def returnFromInterrupt (s : State) : Res := .next s

end Sys2Proof.Machine
end

