-- ==== Sys2Proof/Machine/Lookup.lean ====
section
/-!
DEFINITION. The lookups of the Brightness Model and the Image capability as operations of their own
(40_brightness_image.md R131, R132, R136, R137). Each returns its value in `result`.
-/
namespace Sys2Proof.Machine
open Sys2Proof

/-- Return a value. -/
def returnValue (r : Result) (s : State) : Res := .next { s with result := r }

/-- `CLAMP` (R131). -/
def execClamp (v : Byte) (s : State) : Res :=
  orRaise (clampLevel s.cfg.levelPolicy v) s fun l => returnValue (.level l) s

/-- `T` (R132). -/
def execThresholdOf (l : Level) (s : State) : Res :=
  orRaise (threshold s.cfg.trom l.toNat) s fun t => returnValue (.ticks t) s

/-- `GREY.BRIGHTNESS_AT` (R136). -/
def execGreyBrightnessAt (buf : List Byte) (x y : Nat) (s : State) : Res :=
  orRaise (greyLevel s.cfg.levelPolicy buf x y) s fun l => returnValue (.level l) s

/-- `BIT.BRIGHTNESS_AT` (R137). -/
def execBitBrightnessAt (buf : List Byte) (x y : Nat) (s : State) : Res :=
  orRaise (bitLevel buf x y) s fun l => returnValue (.level l) s

end Sys2Proof.Machine
end

