-- ==== Sys2Proof/Machine/Compiler.lean ====
section
/-!
DEFINITION. The Frame Compiler (41_frame_compiler.md R150 to R161): a pure function of the
configuration and the image.
-/
namespace Sys2Proof.Machine
open Sys2Proof

/-- The level of the physical position (r, c): the cell `LAYOUT` puts there, 0 where there is none
(R151, D25). -/
def levelAt (cfg : Config) (img : Image) (r c : Nat) : Except NoValue Level :=
  match layoutAt cfg r c with
  | none => .ok 0
  | some (x, y) => brightnessAt cfg.levelPolicy img x y

/-- The levels of a row, column 0 to `NCOLS` − 1 (R151). -/
def rowLevels (cfg : Config) (img : Image) (r : Nat) : Except NoValue (List Level) :=
  readEach (levelAt cfg img r) (List.range cfg.ncols)

/-- The pattern of the columns whose level satisfies `q`: bit c is column c. -/
def columnsWhere (q : Level → Bool) : List Level → ColPat
  | [] => 0
  | l :: ls => (columnsWhere q ls <<< 1) ||| (if q l then 1 else 0)

/-- The events of a row for the levels listed: one for each level some column has, in that order
(R153, R156). -/
def eventsFor (trom : List Half) (levels : List Level) : List Nat → Except NoValue (List Event)
  | [] => .ok []
  | l :: ls =>
    let m := columnsWhere (fun v => v.toNat == l) levels
    match eventsFor trom levels ls with
    | .error x => .error x
    | .ok evs =>
      if m = 0 then .ok evs
      else
        match threshold trom l with
        | .error x => .error x
        | .ok t => .ok (⟨t, m⟩ :: evs)

/-- The levels that make events: 1 to 8; level 9 makes none (R154). -/
def eventLevels : List Nat := [1, 2, 3, 4, 5, 6, 7, 8]

/-- The schedule of a row from its levels (R152 to R157). -/
def scheduleOf (trom : List Half) (levels : List Level) : Except NoValue RowSched :=
  match eventsFor trom levels eventLevels with
  | .error x => .error x
  | .ok evs => .ok ⟨columnsWhere (fun v => v.toNat != 0) levels, evs⟩

/-- `COMPILE_ROW(image, r)` (R157). -/
def compileRow (cfg : Config) (img : Image) (r : Nat) : Except NoValue RowSched :=
  if r < NROWS then
    match rowLevels cfg img r with
    | .error x => .error x
    | .ok levels => scheduleOf cfg.trom levels
  else .error (.refused (.indexOutOfRange r))

/-- `COMPILE(image)` (R161): rows 0, 1, 2 in that order, so the first out-of-range cell in
reading order is the one reported under `REJECT` (60_exceptions.md R251). -/
def compileFrame (cfg : Config) (img : Image) : Except NoValue Frame :=
  match compileRow cfg img 0 with
  | .error x => .error x
  | .ok r0 =>
    match compileRow cfg img 1 with
    | .error x => .error x
    | .ok r1 =>
      match compileRow cfg img 2 with
      | .error x => .error x
      | .ok r2 => .ok ⟨r0, r1, r2⟩

/-- `COMPILE_ROW` (R157): the result is one row record. -/
def execCompileRow (img : Image) (r : Nat) (s : State) : Res :=
  orRaise (compileRow s.cfg img r) s fun rs => returnValue (.row (encodeRow rs)) s

end Sys2Proof.Machine
end

