-- ==== Sys2Proof/Machine/FrameWords.lean ====
section
/-!
DEFINITION. The frame words as the engine plays them: `ROWHDR`, `EVT`, `PAD` (30_encoding.md R97 to
R99, 42_display_engine.md R184, R185). The engine fetches them from `FRAME` and `RBUF` at the cursor.
-/
namespace Sys2Proof.Machine
open Sys2Proof

/-- `ROWHDR` played: the ROW_START action after the latch (42_display_engine.md R184). Row line,
initial columns, then wait for the first event of the latched row, or for the boundary. -/
def execRowhdr (init : ColPat) (n : BitVec 4) (s : State) : Res :=
  let s' := { writeCols init (setRows (onehot s.row) s) with elapsed := 0 }
  if 0 < n.toNat then
    withValue (eventOf s.cfg.ncols s.rowbuf 0) fun e => awaitNext 1 0 e.off.toNat s'
  else awaitNext 2 0 ROW_TICKS s'

/-- `EVT` played at index `K`: the AWAITING_EVENT transition (42_display_engine.md R185). The
distances are differences of 16-bit offsets (R186). -/
def execEvt (clr : ColPat) (off : Half) (s : State) : Res :=
  let s' := { writeCols (s.cols &&& ~~~clr) s with elapsed := off }
  withValue (headerOf s.cfg.ncols s.rowbuf) fun h =>
    if s.k.toNat + 1 < h.2.toNat then
      withValue (eventOf s.cfg.ncols s.rowbuf (s.k.toNat + 1)) fun e =>
        awaitNext 1 (s.k + 1) (e.off - off).toNat s'
    else awaitNext 2 0 (BitVec.ofNat 16 ROW_TICKS - off).toNat s'

/-- `PAD`: "It is never played" (30_encoding.md R99; NOTES.md, Stops). -/
def execPad (_s : State) : Res := .refused .padNeverPlayed

end Sys2Proof.Machine
end

