-- ==== Sys2Proof/Machine/Engine.lean ====
section
/-!
DEFINITION. The Display Engine: `HANDLE_EVENT` and its three transitions (42_display_engine.md R183 to
R188). The engine decodes the frame word at its cursor and plays it.
-/
namespace Sys2Proof.Machine
open Sys2Proof

/-- Play the header of the row just latched (R184). -/
def playHeader (s : State) : Res :=
  withValue (headerOf s.cfg.ncols s.rowbuf) fun h => execRowhdr h.1 h.2 s

/-- `row_start()` (R184): latch the row, then play its header. A row without events needs no
case of its own (R188). -/
def rowStart (s : State) : Res := andThen (latchRow s) playHeader

/-- The frame word at the cursor, word 1 + `K` of `RBUF` (20_memory.md R67). -/
def wordAtCursor (s : State) : Option Word := s.rowbuf[1 + s.k.toNat]?

/-- Play a decoded frame word in an event slot; only an `EVT` has an effect there. -/
def playEventWord (i : Instr) (s : State) : Res :=
  match i with
  | .evt clr off => execEvt clr off s
  | .pad => execPad s
  | _ => .refused .notAnEvent

/-- `event(K)` (R185): the event awaited is one of the row's `n`. -/
def rowEvent (s : State) : Res :=
  withValue (headerOf s.cfg.ncols s.rowbuf) fun h =>
    if s.k.toNat < h.2.toNat then
      match wordAtCursor s with
      | none => .refused .notAnEvent
      | some w =>
        match decodeFrameWord s.cfg.ncols w with
        | .ok i => playEventWord i s
        | .error _ => .refused .notAnEvent
    else .refused .notAnEvent

/-- `row_end()` (R187): the next row, whose start is chained in the same step. -/
def rowEnd (s : State) : Res := rowStart (advanceRow s)

/-- `HANDLE_EVENT.ROW_START` (R184). -/
def execHandleRowStart (s : State) : Res := rowStart s

/-- `HANDLE_EVENT.EVENT` with index `K` (R185). -/
def execHandleRowEvent (s : State) : Res := rowEvent s

/-- `HANDLE_EVENT.ROW_END` (R187). -/
def execHandleRowEnd (s : State) : Res := rowEnd s

/-- `PHASE = 3` is reserved (30_encoding.md R105; NOTES.md, Stops). -/
def execPhaseReserved3 (_s : State) : Res := .refused .reservedPhase

/-- The dispatch on `PHASE` (R183, 30_encoding.md R105). -/
def dispatchPhase (s : State) : Res :=
  match s.phase.toNat with
  | 0 => execHandleRowStart s
  | 1 => execHandleRowEvent s
  | 2 => execHandleRowEnd s
  | _ => execPhaseReserved3 s

/-- `HANDLE_EVENT` (R183): take the interrupt, perform one transition, return. -/
def execHandleEvent (s : State) : Res :=
  andThen (andThen (takeInterrupt s) dispatchPhase) returnFromInterrupt

end Sys2Proof.Machine
end

