-- ==== Sys2Proof/Machine/Foreground.lean ====
section
/-!
DEFINITION. The foreground commands (44_foreground_commands.md R230 to R241) and the two
pseudo-operations (30_encoding.md R107, R242).
-/
namespace Sys2Proof.Machine
open Sys2Proof

/-- Run a command's effect; before `INIT` it is refused (R233). -/
def onceInitialised (s : State) (o : Res) : Res :=
  if s.inited then o else .refused .notInitialised

/-- `NOP` (R232). -/
def execNop (s : State) : Res := .next s

/-- The registers the initializer writes before it asks for the first fire (R236). -/
def initRegisters (s : State) : State :=
  let s1 := programPeriod (BitVec.ofNat 16 TICK_US) (BitVec.ofNat 16 ROW_TICKS) s
  let s2 :=
    { s1 with
      frame := encodeFrame allOff
      rowbuf := encodeRow allOffRow
      row := 0
      phase := 0
      k := 0
      elapsed := 0
      cols := 0 }
  { setCols 0 (setRows 0 s2) with pending := false, waited := 0 }

/-- The bits the initializer sets last (R236). -/
def startRunning (s : State) : State := { s with run := true, irqEn := true, inited := true }

/-- `INIT` (R236): once only (U6). -/
def execInit (s : State) : Res :=
  if s.inited then .refused .alreadyInitialised
  else andThen (scheduleNext s.cfg.initDelay.toNat (initRegisters s)) fun t => .next (startRunning t)

/-- `COMPILE` (R237): admitted at any time; it reads and writes no state of the block. -/
def execCompile (img : Image) (s : State) : Res :=
  orRaise (compileFrame s.cfg img) s fun f => returnValue (.frame (encodeFrame f)) s

/-- `SET_FRAME` (R238): `MemWrite(FRAME, 0, 30, f)` in one step, for a well-formed frame. -/
def execSetFrame (f : List Word) (s : State) : Res :=
  onceInitialised s
    (if frameOk s.cfg.ncols f then .next { s with frame := f }
     else .refused .frameNotWellFormed)

/-- `STOP` (R239). -/
def execStop (s : State) : Res := onceInitialised s (.next { s with run := false })

/-- `IRQ_DISABLE` (R240). -/
def execIrqDisable (s : State) : Res := onceInitialised s (.next (writeIrqEn false s))

/-- `IRQ_ENABLE` (R241). -/
def execIrqEnable (s : State) : Res := onceInitialised s (.next (writeIrqEn true s))

/-- `CMD = 7` (R234; NOTES.md, Stops). -/
def execCmdReserved7 (_s : State) : Res := .refused .reservedCommand

/-- `show IMG` is `compile IMG -> tmp; set_frame tmp` (30_encoding.md R107): the step is the
`COMPILE`, and the program goes on with the `SET_FRAME` (log entry 9). -/
def execShowImage (img : Image) (s : State) : Res :=
  orRaise (compileFrame s.cfg img) s fun f =>
    returnValue (.frame (encodeFrame f)) (queue [setFrameCommand (encodeFrame f)] s)

/-- `set_frame_cs FRM` is `irq_disable; set_frame FRM; irq_enable` (R107, R242): the step is the
`IRQ_DISABLE`, and the program goes on with the other two (log entry 9), between which other agents
may move. -/
def execSetFrameCs (f : List Word) (s : State) : Res :=
  onceInitialised s (.next (queue [setFrameCommand f, bareCommand 6] (writeIrqEn false s)))

end Sys2Proof.Machine
end

