-- ==== Sys2Proof/Machine/Timer.lean ====
section
/-!
DEFINITION. The timer's own step and the adapter capabilities as operations of their own
(43_timer_gpio_adapter.md R201 to R206).
-/
namespace Sys2Proof.Machine
open Sys2Proof

/-- What one tick does: count, and set the flag on a match (R204). -/
def tickOnce (s : State) : State :=
  { s with
    cnt := s.cnt + 1
    pending := pendingAfter s.pending (s.cnt + 1) s.cmp
    waited := waitedAfterTick s }

/-- `TICK` (R204). -/
def execTick (s : State) : Res :=
  if tickEnabled s then .next (tickOnce s) else .refused .tickNotEnabled

/-- `PROGRAM_PERIOD` (R201). -/
def execProgramPeriod (tickUs rowTicks : Half) (s : State) : Res :=
  .next (programPeriod tickUs rowTicks s)

/-- `SCHEDULE_NEXT` (R202). -/
def execScheduleNext (n : Nat) (s : State) : Res := scheduleNext n s

/-- `CLEAR_EVENT` (R203): returns the old `PENDING`. -/
def execClearEvent (s : State) : Res :=
  .next { (clearEvent s).2 with result := .flag (clearEvent s).1 }

/-- `SET_ROWS` (R205). -/
def execSetRows (p : RowPat) (s : State) : Res := .next (setRows p s)

/-- `SET_COLS` (R206): the operand is an `NCOLS`-bit pattern (log entry 16). -/
def execSetCols (p : ColPat) (s : State) : Res :=
  if belowCols s.cfg.ncols p then .next (setCols p s) else .refused (.patternBeyondColumns p)

end Sys2Proof.Machine
end

