-- ==== Sys2Proof/Machine/Dispatch.lean ====
section
/-!
DEFINITION. One arm per instruction: its meaning.
-/
namespace Sys2Proof.Machine
open Sys2Proof

def exec (i : Instr) (s : State) : Host.Outcome State Fault Refusal :=
  match i with
  | .rowhdr pat n => Sys2Proof.Machine.execRowhdr pat n s
  | .evt clr off => Sys2Proof.Machine.execEvt clr off s
  | .pad => Sys2Proof.Machine.execPad s
  | .nop => Sys2Proof.Machine.execNop s
  | .init => Sys2Proof.Machine.execInit s
  | .compile img => Sys2Proof.Machine.execCompile img s
  | .setFrame f => Sys2Proof.Machine.execSetFrame f s
  | .stop => Sys2Proof.Machine.execStop s
  | .irqDisable => Sys2Proof.Machine.execIrqDisable s
  | .irqEnable => Sys2Proof.Machine.execIrqEnable s
  | .cmdReserved7 => Sys2Proof.Machine.execCmdReserved7 s
  | .handleEvent => Sys2Proof.Machine.execHandleEvent s
  | .handleRowStart => Sys2Proof.Machine.execHandleRowStart s
  | .handleRowEvent => Sys2Proof.Machine.execHandleRowEvent s
  | .handleRowEnd => Sys2Proof.Machine.execHandleRowEnd s
  | .phaseReserved3 => Sys2Proof.Machine.execPhaseReserved3 s
  | .tick => Sys2Proof.Machine.execTick s
  | .programPeriod tickUs rowTicks => Sys2Proof.Machine.execProgramPeriod tickUs rowTicks s
  | .scheduleNext n => Sys2Proof.Machine.execScheduleNext n s
  | .clearEvent => Sys2Proof.Machine.execClearEvent s
  | .setRows p => Sys2Proof.Machine.execSetRows p s
  | .setCols p => Sys2Proof.Machine.execSetCols p s
  | .clamp v => Sys2Proof.Machine.execClamp v s
  | .thresholdOf l => Sys2Proof.Machine.execThresholdOf l s
  | .greyBrightnessAt buf x y => Sys2Proof.Machine.execGreyBrightnessAt buf x y s
  | .bitBrightnessAt buf x y => Sys2Proof.Machine.execBitBrightnessAt buf x y s
  | .compileRow img r => Sys2Proof.Machine.execCompileRow img r s
  | .showImage img => Sys2Proof.Machine.execShowImage img s
  | .setFrameCs f => Sys2Proof.Machine.execSetFrameCs f s

end Sys2Proof.Machine
end

