-- ==== Sys2Proof/Machine/Schedule.lean ====
section
/-!
DEFINITION. Whose turn it is (60_exceptions.md R258, log entry 3): the environment's schedule says
which agent moves next; an event that may wait no longer goes first.
-/
namespace Sys2Proof.Machine
open Sys2Proof

/-- The agent whose step is next, with the state its step starts from. -/
inductive Turn where
  | engine (s : State)
  | timer (s : State)
  | foreground (o : ForegroundOp) (s : State)
  /-- No agent has a step: the machine waits for the foreground. -/
  | idle (s : State)
  deriving DecidableEq, Repr

/-- One of the ticks of `run N`: "taking every enabled `HANDLE_EVENT` before the next `TICK`"
(30_encoding.md R107), whatever `LATENCY_MAX`; `t` is the state with one tick fewer to run. With no
`TICK` enabled "nothing happens" (95_test_vectors.md P5). -/
def runTurn (s t : State) : Turn :=
  if deliverable s then .engine s else if tickEnabled s then .timer t else .idle t

/-- The foreground's turn: the next line of its program, or nothing. `t` is the state with the move
that asked for it taken off the schedule. -/
def foregroundTurn (s t : State) : Turn :=
  match t.prog with
  | [] => .idle t
  | .op o :: rest => .foreground o { t with prog := rest }
  | .run 0 :: rest => .idle { t with prog := rest }
  | .run (n + 1) :: rest => runTurn s { t with prog := .run n :: rest }

/-- The free-running machine, with nothing scheduled: the engine when its event is deliverable,
else the foreground while it has a program, else the timer when it may tick, else nothing. -/
def freeTurn (s : State) : Turn :=
  if deliverable s then .engine s
  else
    match s.prog with
    | [] => if tickEnabled s then .timer s else .idle s
    | _ :: _ => foregroundTurn s s

/-- A move that the schedule asks for, `t` the state with the move taken off the schedule. A timer
move that cannot be taken gives way to the event that stops it, or is dropped (P5). -/
def scheduledTurn (m : Move) (s t : State) : Turn :=
  match m with
  | .engine => .engine t
  | .timer => if tickEnabled s then .timer t else if deliverable s then .engine s else .idle t
  | .foreground => foregroundTurn s t

/-- A deliverable event with no latency left goes before any scheduled move (R258); the schedule
keeps the move, unless it is the engine's own. -/
def preempted (m : Move) (s t : State) : Turn :=
  match m with
  | .engine => .engine t
  | _ => .engine s

/-- Whose turn it is. -/
def turn (s : State) : Turn :=
  match s.sched with
  | [] => freeTurn s
  | m :: rest =>
    if deliverable s && s.cfg.latencyMax == 0 then preempted m s { s with sched := rest }
    else scheduledTurn m s { s with sched := rest }

/-! ### Placing one instruction (the host's `withFetchWord`) -/

/-- A state in which the engine's step is next. -/
def armEngine (s : State) : State :=
  { s with inited := true, pending := true, irqEn := true, sched := .engine :: s.sched }

/-- A row record whose header is the word given, with events at offsets 1, 2, … that clear
nothing, as many as the word's `n` asks for. -/
def rowAround (w : Word) : List Word :=
  let n := min (countOf w).toNat MAX_EVENTS
  w :: ((List.range n).map (fun j => encodeEvent 0 (BitVec.ofNat 16 (j + 1))) ++
    List.replicate (MAX_EVENTS - n) 0)

/-- A row record whose first event word is the one given. -/
def rowWithEvent (w : Word) : List Word :=
  encodeHeader 0 1 :: w :: List.replicate (MAX_EVENTS - 1) 0

/-- A frame word where the engine fetches next: a `ROWHDR` at the start of row 0 of `FRAME`, any
other word in the first event slot of `RBUF`. -/
def placeFrameWord (w : Word) (s : State) : State :=
  if tagOf w = 1 then
    { armEngine s with
      row := 0, phase := 0, k := 0
      frame := rowAround w ++ encodeRow allOffRow ++ encodeRow allOffRow }
  else { armEngine s with row := 0, phase := 1, k := 0, rowbuf := rowWithEvent w }

/-- A command on the port, with the block initialised when the command needs it (R233) and not
when it is `INIT` (R236), and no event that would go first. -/
def placeCommand (c : Command) (s : State) : State :=
  { s with
    inited := if c.cmd = 1 then false else if c.cmd = 0 ∨ c.cmd = 2 then s.inited else true
    pending := false
    prog := .op (.port c) :: s.prog
    sched := .foreground :: s.sched }

/-- A dispatch code in `PHASE`, with an event to handle, and rows to play. -/
def placePhase (p : BitVec 2) (s : State) : State :=
  { armEngine s with
    row := 0, phase := p, k := 0
    frame := encodeFrame allOff, rowbuf := rowWithEvent (encodeEvent 0 1) }

/-- A form placed where the step fetches it. -/
def placeWire (x : Wire) (s : State) : State :=
  match x with
  | .frameWord w => placeFrameWord w s
  | .command c => placeCommand c s
  | .phase p => placePhase p s

end Sys2Proof.Machine
end

