-- ==== Sys2Proof/Machine/Step.lean ====
section
/-!
DEFINITION. One step of the machine: the agent whose turn it is performs one operation
(00_scope.md R15, 20_memory.md R73).
-/
namespace Sys2Proof.Machine
open Sys2Proof

/-- One step: the engine handles its event, the timer ticks, the foreground's line is decoded and
performed, or nothing has a step and the state stays (log entry 3). -/
def step (s : State) : Host.Outcome State Fault Refusal :=
  match turn s with
  | .engine t => exec .handleEvent t
  | .timer t => exec .tick t
  | .foreground o t =>
    match decodeForeground o with
    | .ok i => exec i t
    | .error e => .refused (.undecodable e)
  | .idle t => .next t

/-- The state with a table row's word placed so that the next step runs it (log entry 11). A word
that stands for no form changes nothing. -/
def State.withFetchWord (s : State) (nbits w : Nat) : State :=
  match wireOfTableWord nbits w with
  | some x => placeWire x s
  | none => s

end Sys2Proof.Machine
end

