-- ==== Sys2Proof/Safety.lean ====
section
/-!
DEFINITION. What counts as a legal state (10_state.md R41), a safe schedule and a safe run
(60_exceptions.md R250), and what can be observed (00_scope.md R12, R14, R18).
-/
namespace Sys2Proof
open Sys2Proof.Machine

/-- The invariants of every state reachable from `INIT` (10_state.md R41), for a configuration the
spec admits. `armed` is the outstanding compare of R41 and 43_timer_gpio_adapter.md R208. -/
structure Inv (s : State) : Prop where
  cfgOk : s.cfg.ok
  rowLegal : s.row.toNat ≤ 2
  phaseLegal : s.phase ≠ 3
  cursorInRow : s.phase = 1 →
    ∃ init n, headerOf s.cfg.ncols s.rowbuf = .ok (init, n) ∧ s.k.toNat < n.toNat
  cursorZero : s.phase ≠ 1 → s.k = 0
  frameWf : frameOk s.cfg.ncols s.frame = true
  rowbufWf : rowOk s.cfg.ncols s.rowbuf = true
  columns : s.colout = s.cols
  columnsBelow : belowCols s.cfg.ncols s.cols
  elapsedLt : s.elapsed.toNat < ROW_TICKS
  rowLine : s.phase ≠ 0 → s.rowout = onehot s.row
  darkBefore : s.phase = 0 → s.rowout = 0 ∧ s.colout = 0
  armed : s.pending = false → s.cmp ≠ s.cnt

/-- A state the machine can be in: before `INIT` every register may hold any value (10_state.md
R42), after it the invariants hold. -/
structure Legal (s : State) : Prop where
  cfgOk : s.cfg.ok
  inv : s.inited = true → Inv s

/-- A foreground operation that the duties of 44_foreground_commands.md R244 allow once the block is
initialised. -/
def ForegroundOp.dutiful (ncols : Nat) : ForegroundOp → Bool
  | .port c =>
    match decodeCommand c with
    | .ok (.setFrame f) => frameOk ncols f
    | .ok .init => false
    | .ok .cmdReserved7 => false
    | .ok _ => true
    | .error _ => false
  | .showImage img => img.wf
  | .setFrameCs f => frameOk ncols f

/-- A line of the foreground's program that keeps its duties. -/
def ScriptLine.dutiful (ncols : Nat) : ScriptLine → Bool
  | .op o => o.dutiful ncols
  | .run _ => true

/-- A scheduled move that cannot be refused: no engine move is asked for out of turn. -/
def Move.dutiful : Move → Bool
  | .engine => false
  | .timer => true
  | .foreground => true

/-! ### Images, for the statements about the compiler -/

/-- What `brightness_at` says of the cell (x, y), a value above 9 read as 9: byte 5·y + x of a
greyscale buffer (40_brightness_image.md R131, R136), 9 times bit x of byte y of a binary one
(R137). -/
def cellLevel (img : Image) (x y : Nat) : Nat :=
  match img with
  | .grey buf => min (buf.getD (5 * y + x) 0).toNat MAX_LEVEL
  | .bits buf => if (buf.getD y 0).getLsbD x then MAX_LEVEL else 0

/-- `lev[r][c]` (41_frame_compiler.md R151): the level of the cell `LAYOUT` puts at (r, c), 0 where it
puts none. -/
def shownLevel (cfg : Config) (img : Image) (r c : Nat) : Nat :=
  match layoutAt cfg r c with
  | none => 0
  | some (x, y) => cellLevel img x y

/-! ### Frames, for the statements about them -/

/-- The schedule of physical row r of a frame. -/
def Frame.rowAt (f : Frame) : Nat → Option RowSched
  | 0 => some f.row0
  | 1 => some f.row1
  | 2 => some f.row2
  | _ => none

/-- The stored-form conditions of 30_encoding.md R100 on the row record at word `base`: `TAG = 01`
and zero `ARG[15:4]` in the header, `n` at most 9, `TAG = 10` in words 1..n, zero words after
them, no pattern bit at or above `NCOLS`. That R101's 'stored-form conditions' are these, with the
count and the pattern bits and without the offsets, is the model's choice (DESIGN CHOICE, log entry
19). -/
def storedRow (ncols : Nat) (ws : List Word) (base : Nat) : Prop :=
  let n := (countOf (ws.getD base 0)).toNat
  tagOf (ws.getD base 0) = 1 ∧ headerRestOf (ws.getD base 0) = 0 ∧ n ≤ MAX_EVENTS ∧
    belowCols ncols (patOf (ws.getD base 0)) ∧
    (∀ j, 1 ≤ j → j ≤ n →
      tagOf (ws.getD (base + j) 0) = 2 ∧ belowCols ncols (patOf (ws.getD (base + j) 0))) ∧
    ∀ j, n < j → j ≤ MAX_EVENTS → ws.getD (base + j) 0 = 0

/-- The conditions of R100 on the offsets of the row record at word `base`: the first at least 1,
each below the next, the last at most `ROW_TICKS` − 1. -/
def storedOffsets (ws : List Word) (base : Nat) : Prop :=
  let n := (countOf (ws.getD base 0)).toNat
  let off := fun j => (argOf (ws.getD (base + j) 0)).toNat
  (1 ≤ n → 1 ≤ off 1 ∧ off n < ROW_TICKS) ∧ ∀ j, 1 ≤ j → j + 1 ≤ n → off j < off (j + 1)

/-- The stored-form conditions of R100 on a whole frame. -/
def storedFrame (ncols : Nat) (ws : List Word) : Prop :=
  ws.length = FRAME_WORDS ∧ ∀ r, r < NROWS → storedRow ncols ws (ROW_WORDS * r)

/-- The words of `ALL_OFF` (10_state.md R38): every row `init = 0`, `n = 0`. -/
def allOffWords : List Word :=
  0x40000000 :: (List.replicate 9 0 ++ 0x40000000 :: (List.replicate 9 0 ++ 0x40000000 ::
    List.replicate 9 0))

/-- The ticks from a row start to the first fire: the first event's offset, or the 6 ms boundary
(42_display_engine.md R184). -/
def firstFire : List Event → Half
  | [] => BitVec.ofNat 16 ROW_TICKS
  | e :: _ => e.off

/-- How long column c of a row is high in one slot (42_display_engine.md R191): until the first event
that clears it, else the whole slot; not at all if it is not in the initial pattern. -/
def highTicks (r : RowSched) (c : Nat) : Nat :=
  if r.init.getLsbD c then
    match r.evs.find? fun e => e.clr.getLsbD c with
    | some e => e.off.toNat
    | none => ROW_TICKS
  else 0

/-! ### Runs and what is seen of them -/

/-- `n` steps, stopping at the first fault or refusal. -/
def steps : Nat → State → Res
  | 0, s => .next s
  | n + 1, s => andThen (step s) (steps n)

/-- The LED at physical position (r, c) is lit (00_scope.md R12). -/
def lit (s : State) (r c : Nat) : Bool := s.rowout.getLsbD r && s.colout.getLsbD c

/-- The next step is a `TICK`. -/
def ticksNext (s : State) : Bool :=
  match turn s with
  | .timer _ => true
  | _ => false

/-- The ticks that `n` steps take (00_scope.md R14). -/
def tickCount : Nat → State → Nat
  | 0, _ => 0
  | n + 1, s =>
    (if ticksNext s then 1 else 0) +
      match step s with
      | .next t => tickCount n t
      | _ => 0

/-- For how many of the ticks that `n` steps take the LED (r, c) is lit (00_scope.md R14, R18). -/
def litTicks (r c : Nat) : Nat → State → Nat
  | 0, _ => 0
  | n + 1, s =>
    (if ticksNext s && lit s r c then 1 else 0) +
      match step s with
      | .next t => litTicks r c n t
      | _ => 0

end Sys2Proof
end

