-- ==== Sys2Proof/Certificates/Slice0/Obligations.lean ====
section
/-!
DEFINITION. The statements for the provers, from the numbered rules of the spec. A next state is
written as the old state with the fields that change: that is the instruction's frame, for every
register, flag and word of memory at once.
-/

open Sys2Proof Sys2Proof.Machine

/-! ### Encodings (30_encoding.md) -/

/-- R90, R97 to R99, R104, R105: for every well-formed instruction that has an encoding, at every
value of its operands, decoding the encoding gives it back. -/
def Obligations.EncodedInstructionsDecodeBack : Prop :=
  ∀ (ncols : Nat) (i : Instr) (x : Wire),
    i.wf ncols = true → encode i = some x → decode ncols x = .ok i

/-- R96 to R99, R102: a frame word that decodes is the encoding of what it decodes to, which is
well-formed: no bit of the word is dropped and no reserved word falls through. -/
def Obligations.DecodedFrameWordsEncodeBack : Prop :=
  ∀ (ncols : Nat) (w : Word) (i : Instr),
    decodeFrameWord ncols w = .ok i → encode i = some (.frameWord w) ∧ i.wf ncols = true

/-- R101: `dec(enc(f)) = f` for every well-formed frame; `enc(dec(w)) = w` for every 30-word image
that satisfies the stored-form conditions of R100; an image that does not decodes to nothing. Which
of the conditions of R100 and R102 those are, R101 leaves open: that they are all but the conditions
on offsets is the model's choice (log entry 19, DESIGN CHOICE). -/
def Obligations.StoredFramesAreABijection : Prop :=
  ∀ ncols : Nat,
    (∀ f : Frame, f.ok ncols → decodeFrame ncols (encodeFrame f) = some f) ∧
    (∀ ws : List Word, storedFrame ncols ws →
      ∃ f, decodeFrame ncols ws = some f ∧ encodeFrame f = ws) ∧
    ∀ ws : List Word, ¬ storedFrame ncols ws → decodeFrame ncols ws = none

/-- R100: what the machine checks of a stored frame is the rule's list of conditions; the words of
`ALL_OFF` and every frame the compiler returns satisfy it. -/
def Obligations.FrameCheckIsTheWellFormednessRule : Prop :=
  (∀ (ncols : Nat) (ws : List Word),
    frameOk ncols ws = true ↔
      storedFrame ncols ws ∧ ∀ r, r < NROWS → storedOffsets ws (ROW_WORDS * r)) ∧
  (∀ ncols : Nat, frameOk ncols allOffWords = true) ∧
  ∀ (cfg : Config) (img : Image) (f : Frame), cfg.ok → compileFrame cfg img = .ok f →
    frameOk cfg.ncols (encodeFrame f) = true

/-- R102: the reserved and illegal single frame words are refused, each by name. -/
def Obligations.ReservedFrameWordsAreRefused : Prop :=
  ∀ (ncols : Nat) (w : Word),
    (tagOf w = 3 → decodeFrameWord ncols w = .error (.reservedTag w)) ∧
    (tagOf w = 0 → w ≠ 0 → decodeFrameWord ncols w = .error (.padNotZero w)) ∧
    (tagOf w = 1 → headerRestOf w ≠ 0 → decodeFrameWord ncols w = .error (.headerArgNotZero w)) ∧
    (tagOf w = 1 → headerRestOf w = 0 → 10 ≤ (countOf w).toNat →
      decodeFrameWord ncols w = .error (.eventCount w)) ∧
    (tagOf w = 2 → ¬ belowCols ncols (patOf w) →
      decodeFrameWord ncols w = .error (.patternBeyondColumns w)) ∧
    (tagOf w = 1 → headerRestOf w = 0 → (countOf w).toNat ≤ 9 → ¬ belowCols ncols (patOf w) →
      decodeFrameWord ncols w = .error (.patternBeyondColumns w))

/-- R97, R98, R99, R104, R105: words written out from the spec's encodings stand for the
instructions they encode. -/
def Obligations.SpecWordsDecode : Prop :=
  decode 5 (.frameWord 0x400E0002) = .ok (.rowhdr 0b01110 2) ∧
  decode 5 (.frameWord 0x80020008) = .ok (.evt 0b00010 8) ∧
  decode 5 (.frameWord 0x8008001D) = .ok (.evt 0b01000 29) ∧
  decode 5 (.frameWord 0x00000000) = .ok .pad ∧
  decode 5 (.frameWord 0x40200000) = .error (.patternBeyondColumns 0x40200000) ∧
  decode 5 (.command ⟨0b000, 0, [], []⟩) = .ok .nop ∧
  decode 5 (.command ⟨0b001, 0, [], []⟩) = .ok .init ∧
  decode 5 (.command ⟨0b010, 1, [0x1F, 0x1F, 0x1F, 0x1F, 0x1F], []⟩) =
    .ok (.compile (.bits [0x1F, 0x1F, 0x1F, 0x1F, 0x1F])) ∧
  decode 5 (.command ⟨0b011, 0, [], allOffWords⟩) = .ok (.setFrame allOffWords) ∧
  decode 5 (.command ⟨0b100, 0, [], []⟩) = .ok .stop ∧
  decode 5 (.command ⟨0b101, 0, [], []⟩) = .ok .irqDisable ∧
  decode 5 (.command ⟨0b110, 0, [], []⟩) = .ok .irqEnable ∧
  decode 5 (.command ⟨0b111, 0, [], []⟩) = .ok .cmdReserved7 ∧
  decode 5 (.phase 0b00) = .ok .handleRowStart ∧
  decode 5 (.phase 0b01) = .ok .handleRowEvent ∧
  decode 5 (.phase 0b10) = .ok .handleRowEnd ∧
  decode 5 (.phase 0b11) = .ok .phaseReserved3

/-- 20_memory.md R69: a frame word written as bytes is little-endian, byte 0 holding bits 7..0. -/
def Obligations.FrameWordBytesAreLittleEndian : Prop :=
  ∀ (ncols : Nat) (w : Word),
    decodeFrameBytes ncols (wordBytes w) = decodeFrameWord ncols w ∧
    wordBytes w = [w.extractLsb' 0 8, w.extractLsb' 8 8, w.extractLsb' 16 8, w.extractLsb' 24 8]

/-! ### Reset and the initializer (10_state.md R42 to R44, 44_foreground_commands.md R236) -/

/-- 44_foreground_commands.md R236, 10_state.md R44: from every state with `INITED = 0`, whatever its
registers hold, `INIT` leaves exactly the block's reset state; a second `INIT` is refused. -/
def Obligations.InitEstablishesTheResetState : Prop :=
  ∀ s : State,
    (s.inited = false → s.cfg.initDelay ≠ 0 →
      exec .init s = .next
        { frame := allOffWords, row := 0, phase := 0, k := 0, elapsed := 0, cols := 0,
          rowbuf := 0x40000000 :: List.replicate 9 0, cnt := 0, cmp := s.cfg.initDelay,
          run := true, pending := false, irqEn := true, tcfg := ⟨16, 375⟩, rowout := 0,
          colout := 0, inited := true,
          cfg := s.cfg, prog := s.prog, sched := s.sched, waited := 0, result := s.result }) ∧
    (s.inited = true → exec .init s = .refused .alreadyInitialised)

/-- 10_state.md R42: the model starts with `INITED = 0`. That the other registers hold R44's values
there, and the configuration, the empty program and the empty schedule, is the model's own choice (log entries 1 to 3). -/
def Obligations.ResetStartsUninitialised : Prop :=
  State.reset.inited = false ∧ Memory.wf State.reset = true ∧
    ∃ t, exec .init State.reset = .next t ∧ t = { State.reset with inited := true }

/-- 44_foreground_commands.md R233: before `INIT` every command other than `INIT` is refused, except
`COMPILE` and `NOP`, which touch no state of the block and are admitted at any time: `COMPILE` is
never refused, and ends without a frame only by `LevelRange`, under `REJECT`, which ends the
foreground program (60_exceptions.md R251; log entries 4 and 12 for how the model holds that). -/
def Obligations.CommandsBeforeInitAreRefused : Prop :=
  ∀ s : State,
    (s.inited = false →
      (∀ f, exec (.setFrame f) s = .refused .notInitialised) ∧
      exec .stop s = .refused .notInitialised ∧
      exec .irqDisable s = .refused .notInitialised ∧
      exec .irqEnable s = .refused .notInitialised ∧
      exec .cmdReserved7 s = .refused .reservedCommand) ∧
    exec .nop s = .next s ∧
    ∀ img : Image, s.cfg.ok → img.wf = true →
      (∃ ws, exec (.compile img) s = .next { s with result := .frame ws }) ∨
      s.cfg.levelPolicy = .reject ∧ ∃ v, 9 < v.toNat ∧
        exec (.compile img) s = .next { s with prog := [], result := .raised (.levelRange v) }

/-- 10_state.md R43: while `INITED = 0` neither `TICK` nor `HANDLE_EVENT` is enabled. That a step with
no foreground program and nothing scheduled answers the same state, where R43 gives no agent a
step, is the model's choice: its idle step (log entry 3, DESIGN CHOICE). -/
def Obligations.NothingRunsBeforeInit : Prop :=
  ∀ s : State, s.inited = false →
    exec .tick s = .refused .tickNotEnabled ∧ exec .handleEvent s = .refused .handlerNotEnabled ∧
    (s.prog = [] → s.sched = [] → step s = .next s)

/-! ### Foreground commands (44_foreground_commands.md) -/

/-- R232: `NOP` does nothing, in every state. -/
def Obligations.NopLeavesEverythingUnchanged : Prop :=
  ∀ s : State, exec .nop s = .next s

/-- R238: once initialised, running or stopped, `SET_FRAME` replaces the whole of `ACTIVE` by a
well-formed frame and changes nothing else; a frame that is not well-formed is refused, and every
frame before `INIT`. -/
def Obligations.SetFrameReplacesActiveOnly : Prop :=
  ∀ (s : State) (f : List Word),
    (s.inited = true → frameOk s.cfg.ncols f = true →
      exec (.setFrame f) s = .next { s with frame := f }) ∧
    (s.inited = true → frameOk s.cfg.ncols f = false →
      exec (.setFrame f) s = .refused .frameNotWellFormed) ∧
    (s.inited = false → exec (.setFrame f) s = .refused .notInitialised)

/-- R239: `STOP` clears `RUN` and touches nothing else, so both outputs keep their value and no
`TICK` is enabled after it. An event already pending is still delivered as it would have been, and
once: with it `PENDING` is clear. With no event pending, or `IRQ_EN = 0`, the handler is not enabled,
and a step of any agent leaves the outputs, the engine's registers and the timer as they are. No
step of any agent sets `RUN` or `PENDING` again. -/
def Obligations.StopClearsRunOnly : Prop :=
  ∀ s : State,
    (s.inited = false → exec .stop s = .refused .notInitialised) ∧
    (s.inited = true →
      exec .stop s = .next { s with run := false } ∧
      exec .tick { s with run := false } = .refused .tickNotEnabled ∧
      (∀ t, exec .handleEvent s = .next t →
        exec .handleEvent { s with run := false } = .next { t with run := false } ∧
        t.pending = false) ∧
      (s.pending = false ∨ s.irqEn = false →
        exec .handleEvent { s with run := false } = .refused .handlerNotEnabled) ∧
      ∀ t, step { s with run := false } = .next t →
        t.run = false ∧ t.inited = true ∧ (t.pending = true → s.pending = true) ∧
        (s.pending = false ∨ s.irqEn = false →
          t.pending = s.pending ∧ t.rowout = s.rowout ∧ t.colout = s.colout ∧ t.row = s.row ∧
          t.phase = s.phase ∧ t.k = s.k ∧ t.elapsed = s.elapsed ∧ t.cols = s.cols ∧
          t.rowbuf = s.rowbuf ∧ t.cnt = s.cnt ∧ t.cmp = s.cmp ∧ t.tcfg = s.tcfg))

/-- R240: `IRQ_DISABLE` clears `IRQ_EN` and nothing else, in every state once initialised, so twice
is once; with `IRQ_EN = 0` `HANDLE_EVENT` is not enabled, while a running timer ticks on, and a fire
sets `PENDING`, which is held. -/
def Obligations.IrqDisableMasksTheHandler : Prop :=
  ∀ s : State,
    (s.inited = false → exec .irqDisable s = .refused .notInitialised) ∧
    (s.inited = true →
      exec .irqDisable s = .next { s with irqEn := false } ∧
      exec .irqDisable { s with irqEn := false } = .next { s with irqEn := false } ∧
      exec .handleEvent { s with irqEn := false } = .refused .handlerNotEnabled ∧
      (s.run = true → exec .tick { s with irqEn := false } = .next
        { s with
          irqEn := false
          cnt := s.cnt + 1
          pending := s.pending || s.cnt + 1 == s.cmp
          waited := 0 }))

/-- R241: `IRQ_ENABLE` sets `IRQ_EN` and nothing else, whatever number of disables came before; a held
event is then deliverable, and with `LATENCY_MAX = 0` `HANDLE_EVENT` is the next step, whatever is
scheduled (a scheduled engine move is that step). -/
def Obligations.IrqEnableDeliversAHeldEvent : Prop :=
  ∀ s : State,
    (s.inited = false → exec .irqEnable s = .refused .notInitialised) ∧
    (s.inited = true →
      exec .irqEnable s = .next { s with irqEn := true } ∧
      (s.pending = true → s.cfg.latencyMax = 0 →
        ∃ l, (l = s.sched ∨ s.sched = .engine :: l) ∧
          step { s with irqEn := true } = exec .handleEvent { s with irqEn := true, sched := l }))

/-- R234, 30_encoding.md R105, R99: the reserved command code and the reserved dispatch code are
refused in every state. A `PAD` word has no effect in the spec, which says only that it is never
played (R99); that one played is refused by name is the model's choice (log entry 8, DESIGN
CHOICE). -/
def Obligations.ReservedCodesAndPadAreRefused : Prop :=
  ∀ s : State,
    exec .cmdReserved7 s = .refused .reservedCommand ∧
    exec .phaseReserved3 s = .refused .reservedPhase ∧
    exec .pad s = .refused .padNeverPlayed

/-! ### The timer and the adapter (43_timer_gpio_adapter.md) -/

/-- R204: `TICK` counts modulo 65536, sets `PENDING` on a match, and changes nothing else of the
block (`waited` is the model's own count, log entry 5); it is enabled when the block is initialised,
the timer runs and no event is deliverable, and with `LATENCY_MAX = 0` only then. -/
def Obligations.TickCountsAndMatches : Prop :=
  ∀ s : State,
    (s.inited = true → s.run = true → ¬ (s.pending = true ∧ s.irqEn = true) →
      exec .tick s = .next
        { s with
          cnt := BitVec.ofNat 16 ((s.cnt.toNat + 1) % 65536)
          pending := s.pending || BitVec.ofNat 16 ((s.cnt.toNat + 1) % 65536) == s.cmp
          waited := 0 }) ∧
    (s.cfg.latencyMax = 0 →
      ¬ (s.inited = true ∧ s.run = true ∧ ¬ (s.pending = true ∧ s.irqEn = true)) →
      exec .tick s = .refused .tickNotEnabled)

/-- 60_exceptions.md R258 for `LATENCY_MAX = d > 0`: a tick is taken while an event is deliverable as
long as fewer than d were, and then no more. How the model counts them is its own reading (log
entry 5). -/
def Obligations.LatencyBoundsTheTicksOfAWaitingEvent : Prop :=
  ∀ s : State, s.inited = true → s.run = true → s.pending = true → s.irqEn = true →
    (s.waited < s.cfg.latencyMax →
      exec .tick s = .next { s with cnt := s.cnt + 1, waited := s.waited + 1 }) ∧
    (s.cfg.latencyMax ≤ s.waited → exec .tick s = .refused .tickNotEnabled)

/-- R202: `SCHEDULE_NEXT(N)` sets `CMP` to `(CNT + N) mod 65536` for N in 1..65535, changing nothing
else; any other N is refused. -/
def Obligations.ScheduleNextCountsFromTheCall : Prop :=
  ∀ (s : State) (n : Nat),
    (1 ≤ n → n ≤ 65535 →
      exec (.scheduleNext n) s =
        .next { s with cmp := BitVec.ofNat 16 ((s.cnt.toNat + n) % 65536) }) ∧
    (n = 0 ∨ 65535 < n → exec (.scheduleNext n) s = .refused (.delayOutOfRange n))

/-- R201: `PROGRAM_PERIOD` writes `TCFG` and clears `CNT`. -/
def Obligations.ProgramPeriodConfiguresTheTimer : Prop :=
  ∀ (s : State) (tickUs rowTicks : Half),
    exec (.programPeriod tickUs rowTicks) s = .next { s with tcfg := ⟨tickUs, rowTicks⟩, cnt := 0 }

/-- R203: `CLEAR_EVENT` returns the old `PENDING` and leaves it 0. Where the value is returned is the
model's own field `result` (log entry 4). -/
def Obligations.ClearEventReadsAndClears : Prop :=
  ∀ s : State, exec .clearEvent s = .next { s with pending := false, result := .flag s.pending }

/-- R205, R206: `SET_ROWS` and `SET_COLS` write their outputs whole and nothing else, so writing a
pattern twice is writing it once. R206 gives `SET_COLS` a pattern of `NCOLS` bits and does not say
what happens on more; that such a pattern is refused is the model's choice (log entry 16,
DEDUCED). -/
def Obligations.OutputWritesAreWholeAndIdempotent : Prop :=
  ∀ s : State,
    (∀ p : RowPat, exec (.setRows p) s = .next { s with rowout := p } ∧
      exec (.setRows p) { s with rowout := p } = .next { s with rowout := p }) ∧
    ∀ p : ColPat,
      (belowCols s.cfg.ncols p → exec (.setCols p) s = .next { s with colout := p } ∧
        exec (.setCols p) { s with colout := p } = .next { s with colout := p }) ∧
      (¬ belowCols s.cfg.ncols p → exec (.setCols p) s = .refused (.patternBeyondColumns p))

/-! ### Lookups and images (40_brightness_image.md) -/

/-- R131: `CLAMP(v)` is 9 above 9 and v otherwise; under `REJECT` a value above 9 raises the fault
`LevelRange(v)`, which ends the foreground program and changes nothing of the block
(60_exceptions.md R251). Value and fault go to the model's `result` (log entries 4, 12). -/
def Obligations.ClampReadsHighLevelsAsNine : Prop :=
  ∀ (s : State) (v : Byte),
    (v.toNat ≤ 9 →
      exec (.clamp v) s = .next { s with result := .level (BitVec.ofNat 4 v.toNat) }) ∧
    (9 < v.toNat → s.cfg.levelPolicy = .clamp →
      exec (.clamp v) s = .next { s with result := .level 9 }) ∧
    (9 < v.toNat → s.cfg.levelPolicy = .reject →
      exec (.clamp v) s = .next { s with prog := [], result := .raised (.levelRange v) })

/-- R132, 20_memory.md R63: `T(L)` is entry L of the table, for L in 0..9; the entries lie strictly
above one another from `T(0) = 0` to `T(9) = ROW_TICKS`; an index of 10..15 does not exist. -/
def Obligations.ThresholdIsATableEntry : Prop :=
  ∀ s : State, s.cfg.ok →
    (∀ l : Level, l.toNat ≤ 9 → ∃ t, s.cfg.trom[l.toNat]? = some t ∧
      exec (.thresholdOf l) s = .next { s with result := .ticks t }) ∧
    (∀ l : Level, 9 < l.toNat →
      exec (.thresholdOf l) s = .refused (.indexOutOfRange l.toNat)) ∧
    exec (.thresholdOf 0) s = .next { s with result := .ticks 0 } ∧
    exec (.thresholdOf 9) s = .next { s with result := .ticks 375 } ∧
    ∀ (l1 l2 : Nat) (t1 t2 : Half), l1 < l2 → s.cfg.trom[l1]? = some t1 →
      s.cfg.trom[l2]? = some t2 → t1.toNat < t2.toNat

/-- R136, R138, R131: `GREY.BRIGHTNESS_AT` reads byte 5·y + x, clamped (under `REJECT` a byte above 9
raises `LevelRange`); outside the grid it has no meaning. Value and fault go to the model's `result`
(log entries 4, 12). -/
def Obligations.GreyImageReadsItsCell : Prop :=
  ∀ (s : State) (buf : List Byte) (x y : Nat), buf.length = GREY_BYTES →
    (x ≤ 4 → y ≤ 4 → ∃ v, buf[5 * y + x]? = some v ∧
      (v.toNat ≤ 9 ∨ s.cfg.levelPolicy = .clamp →
        exec (.greyBrightnessAt buf x y) s =
          .next { s with result := .level (BitVec.ofNat 4 (min v.toNat 9)) }) ∧
      (9 < v.toNat → s.cfg.levelPolicy = .reject →
        exec (.greyBrightnessAt buf x y) s =
          .next { s with prog := [], result := .raised (.levelRange v) })) ∧
    (4 < x ∨ 4 < y → exec (.greyBrightnessAt buf x y) s = .refused (.coordinates x y))

/-- R137, R138: `BIT.BRIGHTNESS_AT` is 9 where bit x of byte y is set, else 0; outside the grid it has
no meaning. -/
def Obligations.BitImageReadsItsCell : Prop :=
  ∀ (s : State) (buf : List Byte) (x y : Nat), buf.length = BIT_BYTES →
    (x ≤ 4 → y ≤ 4 →
      exec (.bitBrightnessAt buf x y) s =
        .next { s with result := .level (if (buf.getD y 0).getLsbD x then 9 else 0) }) ∧
    (4 < x ∨ 4 < y → exec (.bitBrightnessAt buf x y) s = .refused (.coordinates x y))

/-! ### The Frame Compiler (41_frame_compiler.md) -/

/-- R150, R157, R161, R237: under the decided policy `CLAMP`, and for a binary image under any policy,
`COMPILE` and `COMPILE_ROW` answer for every image, in every state, before `INIT` too, and write
nothing but their result. `COMPILE` returns the frame of `compileFrame`, `COMPILE_ROW` of row r the
row of `compileRow`, which is that frame's row r: the values the statements on levels, events and
lit LEDs are about. The frame is well-formed (R159), so `SET_FRAME` takes it. A row other than
0, 1, 2 does not exist (log entry 16). -/
def Obligations.CompileAlwaysAnswersAWellFormedFrame : Prop :=
  ∀ (s : State) (img : Image), s.cfg.ok → img.wf = true →
    (s.cfg.levelPolicy = .clamp ∨ ∃ buf, img = .bits buf) →
    ∃ f : Frame, compileFrame s.cfg img = .ok f ∧
      f.ok s.cfg.ncols ∧ frameOk s.cfg.ncols (encodeFrame f) = true ∧
      exec (.compile img) s = .next { s with result := .frame (encodeFrame f) } ∧
      (∀ r, r < NROWS → ∃ rs, compileRow s.cfg img r = .ok rs ∧ f.rowAt r = some rs ∧
        exec (.compileRow img r) s = .next { s with result := .row (encodeRow rs) }) ∧
      ∀ r, NROWS ≤ r → exec (.compileRow img r) s = .refused (.indexOutOfRange r)

/-- R151, R152, R153, R154, R156: the levels of a row are, column by column, the level of the cell
`LAYOUT` puts there, 0 where it puts none. The compiled row starts with exactly the columns of a
level other than 0, and has, in increasing order of offset, exactly one event for each level of
1..8 that some column has, at that level's threshold, clearing exactly that level's columns. -/
def Obligations.CompiledRowGroupsColumnsByLevel : Prop :=
  ∀ (cfg : Config) (img : Image) (r : Nat) (levels : List Level), cfg.ok → img.wf = true →
    r < NROWS → rowLevels cfg img r = .ok levels →
    levels.length = cfg.ncols ∧
    (∀ c, c < cfg.ncols → ∃ l, levels[c]? = some l ∧ l.toNat = shownLevel cfg img r c) ∧
    ∃ rs, compileRow cfg img r = .ok rs ∧
      (∀ c, rs.init.getLsbD c = true ↔ shownLevel cfg img r c ≠ 0) ∧
      rs.evs.Pairwise (fun a b => a.off.toNat < b.off.toNat) ∧
      ∀ e : Event, e ∈ rs.evs ↔
        ∃ l : Nat, 1 ≤ l ∧ l ≤ 8 ∧ (∃ c, shownLevel cfg img r c = l) ∧
          cfg.trom[l]? = some e.off ∧ ∀ c, e.clr.getLsbD c = true ↔ shownLevel cfg img r c = l

/-- R158: a compiled row has at most min(8, `NCOLS`) events. -/
def Obligations.CompiledRowEventBound : Prop :=
  ∀ (cfg : Config) (img : Image) (r : Nat) (rs : RowSched), cfg.ok →
    compileRow cfg img r = .ok rs → rs.evs.length ≤ min 8 cfg.ncols

/-- R159: in a compiled row every `clr` is non-zero and a subset of `init`, the `clr` are pairwise
disjoint, and `init` less all of them is the set of the columns that show a cell of level 9. -/
def Obligations.CompiledRowEventsPartitionItsColumns : Prop :=
  ∀ (cfg : Config) (img : Image) (r : Nat) (rs : RowSched), cfg.ok → img.wf = true →
    compileRow cfg img r = .ok rs →
    (∀ e ∈ rs.evs, e.clr ≠ 0 ∧ e.clr &&& ~~~rs.init = 0) ∧
    rs.evs.Pairwise (fun a b => a.clr &&& b.clr = 0) ∧
    ∀ c, (rs.init.getLsbD c = true ∧ ∀ e ∈ rs.evs, e.clr.getLsbD c = false) ↔
      shownLevel cfg img r c = 9

/-- R161, R193: every image whose shown cells are all level 0 compiles to `ALL_OFF`, under either
policy. One whose shown cells are all level 9 compiles to rows without events, in which every
column that shows a cell is in the initial pattern; under `REJECT`, a greyscale buffer must hold no
byte above 9 for that. -/
def Obligations.UniformImagesCompileWithoutEvents : Prop :=
  ∀ (cfg : Config) (img : Image), cfg.ok → img.wf = true →
    ((∀ r c x y, layoutAt cfg r c = some (x, y) → cellLevel img x y = 0) →
      compileFrame cfg img = .ok allOff) ∧
    ((∀ r c x y, layoutAt cfg r c = some (x, y) → cellLevel img x y = 9) →
      (cfg.levelPolicy = .reject → ∀ buf, img = .grey buf → ∀ v ∈ buf, v.toNat ≤ 9) →
      ∃ f, compileFrame cfg img = .ok f ∧ ∀ r rs, f.rowAt r = some rs →
        rs.evs = [] ∧ ∀ c, rs.init.getLsbD c = true ↔ (layoutAt cfg r c).isSome = true)

/-- 60_exceptions.md R251, 30_encoding.md R107: under `REJECT`, `COMPILE` of a greyscale image, the
`COMPILE` that `show` starts with, and `COMPILE_ROW` of one row, raise `LevelRange` of the first byte
above 9 in reading order: no frame, the foreground program ended, the block as it was, so that the
engine and the timer do what they would have done. With no such byte they complete. The model's
choices here: only cells that some position shows are checked (log entry 12), `show`'s step is its
`COMPILE` (log entry 9), and the fault's name stands in `result` (log entries 4, 12). -/
def Obligations.RejectReportsTheFirstBadCell : Prop :=
  ∀ (s : State) (buf : List Byte), s.cfg.ok → buf.length = GREY_BYTES →
    s.cfg.levelPolicy = .reject →
    let firstBad : List (Nat × Nat) → Option Byte := fun cells =>
      (cells.map fun p => buf.getD (5 * p.2 + p.1) 0).find? fun v => decide (9 < v.toNat)
    let ended : Byte → State → State := fun v t =>
      { t with prog := [], result := .raised (.levelRange v) }
    (∀ v, firstBad s.cfg.cells = some v →
      exec (.compile (.grey buf)) s = .next (ended v s) ∧
      exec (.showImage (.grey buf)) s = .next (ended v s)) ∧
    (∀ v t, (exec .handleEvent s = .next t → exec .handleEvent (ended v s) = .next (ended v t)) ∧
      (exec .tick s = .next t → exec .tick (ended v s) = .next (ended v t))) ∧
    (firstBad s.cfg.cells = none →
      ∃ f, compileFrame s.cfg (.grey buf) = .ok f ∧
        exec (.compile (.grey buf)) s = .next { s with result := .frame (encodeFrame f) } ∧
        exec (.showImage (.grey buf)) s = .next
          { s with
            prog := .op (.port (setFrameCommand (encodeFrame f))) :: s.prog
            result := .frame (encodeFrame f) }) ∧
    ∀ r cells, s.cfg.layout[r]? = some cells →
      (∀ v, firstBad (cells.filterMap id) = some v →
        exec (.compileRow (.grey buf) r) s = .next (ended v s)) ∧
      (firstBad (cells.filterMap id) = none →
        ∃ rs, compileRow s.cfg (.grey buf) r = .ok rs ∧
          exec (.compileRow (.grey buf) r) s = .next { s with result := .row (encodeRow rs) })

/-! ### The Display Engine (42_display_engine.md) -/

/-- R183, 60_exceptions.md R256, R259: `HANDLE_EVENT` is enabled exactly when `INITED`, `PENDING` and
`IRQ_EN` are 1; it clears `PENDING`, then performs the one transition `PHASE` selects, from a state
in which nothing else of the block was saved or changed. -/
def Obligations.HandlerClearsThenDispatchesOnPhase : Prop :=
  ∀ s : State,
    (s.inited = true → s.pending = true → s.irqEn = true →
      exec .handleEvent s = exec (decodePhase s.phase) { s with pending := false, waited := 0 }) ∧
    (¬ (s.inited = true ∧ s.pending = true ∧ s.irqEn = true) →
      exec .handleEvent s = .refused .handlerNotEnabled)

/-- R184, R188: the ROW_START action on any row of a well-formed frame: latch the row, set its row
line alone, write its initial pattern, and wait for its first event, or for the boundary if it has
none. -/
def Obligations.RowStartPlaysTheLatchedRow : Prop :=
  ∀ (s : State) (f : Frame) (rs : RowSched), f.ok s.cfg.ncols → s.frame = encodeFrame f →
    f.rowAt s.row.toNat = some rs →
    exec .handleRowStart s = .next
      { s with
        rowbuf := encodeRow rs
        rowout := onehot s.row
        cols := rs.init
        colout := rs.init
        elapsed := 0
        phase := if rs.evs = [] then 2 else 1
        k := 0
        cmp := s.cnt + firstFire rs.evs }

/-- R185, R186: the transition of event K of a well-formed row: clear its columns, and wait for the
next event, or for the rest of the slot after the last. -/
def Obligations.EventClearsItsColumns : Prop :=
  ∀ (s : State) (rs : RowSched) (e : Event), rs.ok s.cfg.ncols → s.rowbuf = encodeRow rs →
    rs.evs[s.k.toNat]? = some e →
    exec .handleRowEvent s = .next
      { s with
        cols := s.cols &&& ~~~e.clr
        colout := s.cols &&& ~~~e.clr
        elapsed := e.off
        phase := if s.k.toNat + 1 < rs.evs.length then 1 else 2
        k := if s.k.toNat + 1 < rs.evs.length then s.k + 1 else 0
        cmp := s.cnt + (firstFire (rs.evs.drop (s.k.toNat + 1)) - e.off) }

/-- R187: the ROW_END transition: the next row, modulo 3, is started in the same step. -/
def Obligations.RowEndStartsTheNextRow : Prop :=
  ∀ (s : State) (f : Frame) (rs : RowSched), f.ok s.cfg.ncols → s.frame = encodeFrame f →
    f.rowAt ((s.row.toNat + 1) % 3) = some rs →
    exec .handleRowEnd s = .next
      { s with
        row := BitVec.ofNat 2 ((s.row.toNat + 1) % 3)
        rowbuf := encodeRow rs
        rowout := onehot (BitVec.ofNat 2 ((s.row.toNat + 1) % 3))
        cols := rs.init
        colout := rs.init
        elapsed := 0
        phase := if rs.evs = [] then 2 else 1
        k := 0
        cmp := s.cnt + firstFire rs.evs }

/-- R184, R185, 30_encoding.md R97, R98: the frame words themselves. A `ROWHDR` played over its
latched row sets row line and columns and asks for the first fire; an `EVT` played at index K clears
its columns and asks for the next. -/
def Obligations.FrameWordsPlayAsTheEngineDoes : Prop :=
  ∀ (s : State) (rs : RowSched), rs.ok s.cfg.ncols → s.rowbuf = encodeRow rs →
    exec (.rowhdr rs.init (BitVec.ofNat 4 rs.evs.length)) s = .next
      { s with
        rowout := onehot s.row
        cols := rs.init
        colout := rs.init
        elapsed := 0
        phase := if rs.evs = [] then 2 else 1
        k := 0
        cmp := s.cnt + firstFire rs.evs } ∧
    ∀ e, rs.evs[s.k.toNat]? = some e →
      exec (.evt e.clr e.off) s = .next
        { s with
          cols := s.cols &&& ~~~e.clr
          colout := s.cols &&& ~~~e.clr
          elapsed := e.off
          phase := if s.k.toNat + 1 < rs.evs.length then 1 else 2
          k := if s.k.toNat + 1 < rs.evs.length then s.k + 1 else 0
          cmp := s.cnt + (firstFire (rs.evs.drop (s.k.toNat + 1)) - e.off) }

/-- R184, R185, R202: the frame words in EVERY state, whatever `RBUF` holds. `ROWHDR` with n = 0 waits
for the boundary, with n > 0 for the first event of `RBUF` (none there, or one at offset 0, and it
stops by name). `EVT` needs a header in `RBUF`; at the last index it waits for the boundary (an
offset of `ROW_TICKS` leaves no time, and stops by name), else for the next event of `RBUF`, the
distance taken on 16 bits. What happens on rows no well-formed frame holds is the model's choice (log
entry 13). -/
def Obligations.FrameWordsPlayOnAnyRow : Prop :=
  ∀ s : State,
    let rowSet := fun (pat : ColPat) =>
      { s with rowout := onehot s.row, cols := pat, colout := pat, elapsed := 0, k := 0 }
    let cleared := fun (clr : ColPat) (off : Half) =>
      { s with cols := s.cols &&& ~~~clr, colout := s.cols &&& ~~~clr, elapsed := off }
    (∀ pat, exec (.rowhdr pat 0) s = .next { rowSet pat with phase := 2, cmp := s.cnt + 375 }) ∧
    (∀ pat n e, n ≠ 0 → eventOf s.cfg.ncols s.rowbuf 0 = .ok e →
      exec (.rowhdr pat n) s =
        if e.off = 0 then .refused (.delayOutOfRange 0)
        else .next { rowSet pat with phase := 1, cmp := s.cnt + e.off }) ∧
    (∀ pat n, n ≠ 0 → (∀ e, eventOf s.cfg.ncols s.rowbuf 0 ≠ .ok e) →
      exec (.rowhdr pat n) s = .refused .notAnEvent) ∧
    (∀ clr off pat n, headerOf s.cfg.ncols s.rowbuf = .ok (pat, n) → n.toNat ≤ s.k.toNat + 1 →
      exec (.evt clr off) s =
        if off = 375 then .refused (.delayOutOfRange 0)
        else .next { cleared clr off with phase := 2, k := 0, cmp := s.cnt + (375 - off) }) ∧
    (∀ clr off pat n e, headerOf s.cfg.ncols s.rowbuf = .ok (pat, n) → s.k.toNat + 1 < n.toNat →
      eventOf s.cfg.ncols s.rowbuf (s.k.toNat + 1) = .ok e →
      exec (.evt clr off) s =
        if e.off = off then .refused (.delayOutOfRange 0)
        else .next { cleared clr off with phase := 1, k := s.k + 1, cmp := s.cnt + (e.off - off) }) ∧
    (∀ clr off pat n, headerOf s.cfg.ncols s.rowbuf = .ok (pat, n) → s.k.toNat + 1 < n.toNat →
      (∀ e, eventOf s.cfg.ncols s.rowbuf (s.k.toNat + 1) ≠ .ok e) →
      exec (.evt clr off) s = .refused .notAnEvent) ∧
    ∀ clr off, (∀ h, headerOf s.cfg.ncols s.rowbuf ≠ .ok h) →
      exec (.evt clr off) s = .refused .notARowHeader

/-- R180: an event transition never reads `ACTIVE`: with another frame in it the transition has the
same outcome, so a swap in mid-row changes no output before the row ends. -/
def Obligations.EventsDoNotSeeASwappedFrame : Prop :=
  ∀ (s t : State) (f : List Word),
    (exec .handleRowEvent s = .next t ↔
      exec .handleRowEvent { s with frame := f } = .next { t with frame := f } ∧
        t.frame = s.frame)

/-- R183, R208, 60_exceptions.md R270: in every legal state `HANDLE_EVENT` completes when it is
enabled. It writes interrupt-side state only: the frame, the counter, `RUN`, `IRQ_EN`, `TCFG`, the
configuration, the program, the schedule and the result stay; `PENDING` is cleared; and exactly one next fire is
asked for, 1 to `ROW_TICKS` ticks ahead. -/
def Obligations.HandlerCompletesAndRearmsTheTimer : Prop :=
  ∀ s : State, Inv s → s.inited = true → s.pending = true → s.irqEn = true →
    ∃ t, exec .handleEvent s = .next t ∧
      t.frame = s.frame ∧ t.cnt = s.cnt ∧ t.run = s.run ∧ t.irqEn = s.irqEn ∧ t.tcfg = s.tcfg ∧
      t.inited = s.inited ∧ t.cfg = s.cfg ∧ t.prog = s.prog ∧ t.sched = s.sched ∧
      t.result = s.result ∧
      t.pending = false ∧
      ∃ n, 1 ≤ n ∧ n ≤ ROW_TICKS ∧ t.cmp = s.cnt + BitVec.ofNat 16 n

/-! ### Pseudo-operations (30_encoding.md R107, 44_foreground_commands.md R242) -/

/-- R107: `show IMG` is `compile IMG -> tmp; set_frame tmp`. It completes for every image under
`CLAMP`, and for a binary image under any policy: the step is the `COMPILE`, and the program goes on
with the `SET_FRAME`; that the expansion takes place in its first command's step is the model's
choice (log entry 9). Where nothing is deliverable the two steps leave the compiled frame active. -/
def Obligations.ShowCompilesThenSetsTheFrame : Prop :=
  ∀ (s : State) (img : Image), s.cfg.ok → img.wf = true →
    (s.cfg.levelPolicy = .clamp ∨ ∃ buf, img = .bits buf) →
    ∃ f, compileFrame s.cfg img = .ok f ∧
      exec (.showImage img) s = .next
        { s with
          prog := .op (.port (setFrameCommand (encodeFrame f))) :: s.prog
          result := .frame (encodeFrame f) } ∧
      (s.inited = true → deliverable s = false →
        steps 2
          { s with
            prog := .op (.showImage img) :: s.prog
            sched := .foreground :: .foreground :: s.sched } = .next
          { s with frame := encodeFrame f, result := .frame (encodeFrame f) })

/-- R242: `set_frame_cs f` is `IRQ_DISABLE; SET_FRAME(f); IRQ_ENABLE`, refused before `INIT` as its first
command is. The step is the `IRQ_DISABLE` and the program goes on with the rest (log entry 9, the
model's choice). With a + b ticks among the three commands, `ACTIVE` is replaced as by a bare
`SET_FRAME`, `IRQ_EN` is left 1, the engine stands still, and a fire falling inside (a match at
tick m of the a + b) is held to the end, so it is handled late by the ticks that pass inside. -/
def Obligations.CriticalSectionSetsTheFrame : Prop :=
  ∀ (s : State) (f : List Word),
    (s.inited = false → exec (.setFrameCs f) s = .refused .notInitialised) ∧
    (s.inited = true → exec (.setFrameCs f) s = .next
      { s with
        irqEn := false
        prog := .op (.port (setFrameCommand f)) :: .op (.port (bareCommand 6)) :: s.prog }) ∧
    (s.inited = true → s.run = true → deliverable s = false → frameOk s.cfg.ncols f = true →
      ∀ a b : Nat, ∃ t,
        steps (a + b + 3)
          { s with
            prog := .op (.setFrameCs f) :: s.prog
            sched := .foreground :: (List.replicate a .timer ++ .foreground ::
              (List.replicate b .timer ++ .foreground :: s.sched)) } = .next t ∧
        t = { s with
          frame := f, irqEn := true, cnt := s.cnt + BitVec.ofNat 16 (a + b)
          pending := t.pending, waited := t.waited } ∧
        (t.pending = true ↔
          s.pending = true ∨ ∃ m, 1 ≤ m ∧ m ≤ a + b ∧ s.cnt + BitVec.ofNat 16 m = s.cmp))

/-! ### Steps of the machine -/

/-- 00_scope.md R13, R15, 20_memory.md R67: a step runs the decoded instruction. The engine's turn is
`HANDLE_EVENT`, the timer's is `TICK`, the foreground's is the instruction its operation decodes to;
the event transition plays the word at the cursor, the row start the header it latches (that frame
words are played as instructions is the model's choice, log entry 8). A `run N` line takes a tick,
after the `HANDLE_EVENT` that is enabled (30_encoding.md R107), whatever `LATENCY_MAX`. That an
idle turn answers the state with a move or line taken off is the model's choice (log entry 3, DESIGN
CHOICE). -/
def Obligations.StepRunsTheDecodedInstruction : Prop :=
  ∀ s t : State,
    (turn s = .engine t → step s = exec .handleEvent t) ∧
    (turn s = .timer t → step s = exec .tick t) ∧
    (turn s = .idle t → step s = .next t) ∧
    (∀ o i, turn s = .foreground o t → decodeForeground o = .ok i → step s = exec i t) ∧
    (∀ n p, s.prog = .run (n + 1) :: p → s.sched = [] →
      (deliverable s = true → step s = exec .handleEvent s) ∧
      (deliverable s = false → tickEnabled s = true →
        step s = exec .tick { s with prog := .run n :: p })) ∧
    (∀ n p l, s.prog = .run (n + 1) :: p → s.sched = .foreground :: l →
      (deliverable s = true → step s = exec .handleEvent s) ∧
      (deliverable s = false → tickEnabled s = true →
        step s = exec .tick { s with prog := .run n :: p, sched := l })) ∧
    (∀ pat n w clr off, headerOf s.cfg.ncols s.rowbuf = .ok (pat, n) → s.k.toNat < n.toNat →
      s.rowbuf[1 + s.k.toNat]? = some w → decodeFrameWord s.cfg.ncols w = .ok (.evt clr off) →
      exec .handleRowEvent s = exec (.evt clr off) s) ∧
    ∀ pat n, latchRow s = .next t → headerOf t.cfg.ncols t.rowbuf = .ok (pat, n) →
      exec .handleRowStart s = exec (.rowhdr pat n) t

/-- 60_exceptions.md R258 with `LATENCY_MAX = 0`: whenever `HANDLE_EVENT` is enabled it is the next
step taken, before any `TICK` and any foreground command, and the schedule keeps its moves (but
one that is the engine's own). -/
def Obligations.DeliverableEventGoesFirst : Prop :=
  ∀ s : State, s.cfg.latencyMax = 0 → s.inited = true → s.pending = true → s.irqEn = true →
    (∀ rest, s.sched = .engine :: rest → step s = exec .handleEvent { s with sched := rest }) ∧
    ((∀ rest, s.sched ≠ .engine :: rest) → step s = exec .handleEvent s)

/-- 10_state.md R41, R42: the model's start is a legal state. -/
def Obligations.ResetIsLegal : Prop := Legal State.reset

/-- 10_state.md R41: every step of every agent keeps the machine legal. -/
def Obligations.StepKeepsTheMachineLegal : Prop :=
  ∀ s t : State, Legal s → step s = .next t → Legal t

/-- 00_scope.md R8, R16: no step changes the configuration. -/
def Obligations.StepKeepsTheConfiguration : Prop :=
  ∀ s t : State, step s = .next t → t.cfg = s.cfg

/-- 60_exceptions.md R250, R251, R244 of 44_foreground_commands.md: "no recoverable runtime errors": in
every legal initialised state, under either level policy, with a foreground that keeps its duties, a
step always completes, and what is left of program and schedule is still dutiful. -/
def Obligations.DutifulRunsNeverStop : Prop :=
  ∀ s : State, Legal s → s.inited = true →
    s.prog.all (ScriptLine.dutiful s.cfg.ncols) = true → s.sched.all Move.dutiful = true →
    ∃ t, step s = .next t ∧ t.inited = true ∧ t.cfg = s.cfg ∧
      t.prog.all (ScriptLine.dutiful t.cfg.ncols) = true ∧ t.sched.all Move.dutiful = true

/-- 60_exceptions.md R250, R251: the only fault any instruction raises is `LevelRange`, under `REJECT`,
by the operations that read a level; the engine, the timer and the other commands raise none. A
raised fault ends the foreground program, which has no further step, and changes nothing of the
block; no instruction and no step stops the machine with one. How the model records it is its own
choice (log entries 4, 12). -/
def Obligations.OnlyLevelRangeIsEverRaised : Prop :=
  (∀ (i : Instr) (s t : State) (x : Fault), exec i s ≠ .fault x ∧
    (exec i s = .next t → t.result = .raised x →
      s.result = .raised x ∨
        s.cfg.levelPolicy = .reject ∧ (∃ v, x = .levelRange v ∧ 9 < v.toNat) ∧
        t = { s with prog := [], result := .raised x } ∧
        match i with
        | .compile _ | .compileRow _ _ | .clamp _ | .greyBrightnessAt _ _ _ | .showImage _ => True
        | _ => False)) ∧
  (∀ (s : State) (x : Fault), step s ≠ .fault x) ∧
  ∀ s t : State, s.prog = [] → step s = .next t → t.prog = []

/-- 60_exceptions.md R270: outside `INIT`, a foreground operation writes no interrupt-side state: not
the cursor, `ELAPSED`, `COLS`, `ROWBUF`, the outputs, `CNT`, `CMP`, `PENDING` or `TCFG`. -/
def Obligations.ForegroundLeavesTheInterruptSide : Prop :=
  ∀ (o : ForegroundOp) (i : Instr) (s t : State), decodeForeground o = .ok i → i ≠ .init →
    exec i s = .next t →
    t.row = s.row ∧ t.phase = s.phase ∧ t.k = s.k ∧ t.elapsed = s.elapsed ∧ t.cols = s.cols ∧
      t.rowbuf = s.rowbuf ∧ t.rowout = s.rowout ∧ t.colout = s.colout ∧ t.cnt = s.cnt ∧
      t.cmp = s.cmp ∧ t.pending = s.pending ∧ t.tcfg = s.tcfg ∧ t.inited = s.inited

/-- 10_state.md R32: a pending event is never lost: in an initialised machine the only step that
takes `PENDING` from 1 to 0 is the engine's `HANDLE_EVENT`. -/
def Obligations.PendingIsClearedOnlyByTheHandler : Prop :=
  ∀ s t : State, s.inited = true → step s = .next t → s.pending = true → t.pending = false →
    ∃ u, turn s = .engine u

/-- 60_exceptions.md R258: no event waits more than `LATENCY_MAX` ticks once it is deliverable, by the
model's own count `waited` of those ticks (log entry 5, DEDUCED). -/
def Obligations.WaitingNeverExceedsTheLatency : Prop :=
  ∀ s t : State, s.waited ≤ s.cfg.latencyMax → step s = .next t → t.waited ≤ t.cfg.latencyMax

/-- 43_timer_gpio_adapter.md R202, R204, R208: with the machine left to itself, an armed timer fires
after exactly the ticks it was asked for, and nothing but the counter moves until then. -/
def Obligations.TimerFiresAfterExactlyTheRequestedTicks : Prop :=
  ∀ (s : State) (n : Nat), s.inited = true → s.run = true → s.pending = false → s.prog = [] →
    s.sched = [] → s.waited = 0 → 1 ≤ n → n ≤ 65535 → s.cmp = s.cnt + BitVec.ofNat 16 n →
    (∀ m, m < n → steps m s = .next { s with cnt := s.cnt + BitVec.ofNat 16 m }) ∧
    steps n s = .next { s with cnt := s.cmp, pending := true }

/-- 42_display_engine.md R194, 44_foreground_commands.md R240: while the interrupt is masked, ticks move
the counter and may set `PENDING`, and nothing else: the event is held, the engine stands still. -/
def Obligations.MaskedTicksHoldTheEvent : Prop :=
  ∀ (n : Nat) (s : State), s.inited = true → s.run = true → s.irqEn = false →
    s.sched = List.replicate n .timer →
    ∃ t, steps n s = .next t ∧
      (t.pending = true ↔
        s.pending = true ∨ ∃ m, 1 ≤ m ∧ m ≤ n ∧ s.cnt + BitVec.ofNat 16 m = s.cmp) ∧
      t = { s with cnt := s.cnt + BitVec.ofNat 16 n, pending := t.pending, sched := [],
                   waited := t.waited }

/-- 44_foreground_commands.md R239, 70_reset_and_hazards.md R310: after `STOP`, with no event pending,
no run changes the outputs, the engine or the timer, whatever the foreground does. -/
def Obligations.StoppedDisplayIsFrozen : Prop :=
  ∀ (n : Nat) (s t : State), s.inited = true → s.run = false → s.pending = false →
    steps n s = .next t →
    t.run = false ∧ t.pending = false ∧ t.inited = true ∧ t.rowout = s.rowout ∧
      t.colout = s.colout ∧ t.row = s.row ∧ t.phase = s.phase ∧ t.k = s.k ∧
      t.elapsed = s.elapsed ∧ t.cols = s.cols ∧ t.rowbuf = s.rowbuf ∧ t.cnt = s.cnt ∧
      t.cmp = s.cmp ∧ t.tcfg = s.tcfg

/-- 42_display_engine.md R181, R193: with `ALL_OFF` active and latched, and no foreground program, no
run, whatever its schedule, ever asserts a column line. -/
def Obligations.AllOffStaysDark : Prop :=
  ∀ (n : Nat) (s t : State), Inv s → s.inited = true → s.frame = allOffWords →
    s.rowbuf = 0x40000000 :: List.replicate 9 0 → s.colout = 0 → s.prog = [] →
    steps n s = .next t → t.colout = 0 ∧ t.frame = allOffWords

/-- 42_display_engine.md R191: one row slot. From an event that starts a row, in a machine left to
itself with the interrupt open and no latency, one row start, the row's events and 375 ticks bring
the machine to the next row boundary with its event pending; in those ticks each column of the row
is high for exactly the time its schedule says, and no LED of another row is lit. -/
def Obligations.RowSlotLastsRowTicks : Prop :=
  ∀ (s : State) (r c : Nat) (f : Frame) (rs : RowSched), Inv s → s.inited = true →
    s.run = true → s.pending = true → s.irqEn = true → s.cfg.latencyMax = 0 → s.prog = [] →
    s.sched = [] → s.phase ≠ 1 → r = (if s.phase = 0 then s.row.toNat else (s.row.toNat + 1) % 3) →
    f.ok s.cfg.ncols → s.frame = encodeFrame f → f.rowAt r = some rs →
    let n := 1 + rs.evs.length + ROW_TICKS
    (∃ t, steps n s = .next t ∧ t.row.toNat = r ∧ t.phase = 2 ∧ deliverable t = true ∧
      t.cnt = s.cnt + BitVec.ofNat 16 ROW_TICKS ∧ t.frame = s.frame) ∧
    tickCount n s = ROW_TICKS ∧ litTicks r c n s = highTicks rs c ∧
    ∀ r', r' ≠ r → litTicks r' c n s = 0

/-- 42_display_engine.md R192, R193: one refresh cycle. From an event that starts row 0, the machine left
to itself plays the rows 0, 1, 2 in 1125 ticks, in which each LED is lit for exactly the time its
row's schedule says, and the next event starts row 0 again. -/
def Obligations.RefreshCycleLastsThreeSlots : Prop :=
  ∀ (s : State) (f : Frame), Inv s → s.inited = true →
    s.run = true → s.pending = true → s.irqEn = true → s.cfg.latencyMax = 0 → s.prog = [] →
    s.sched = [] → (s.phase = 0 ∧ s.row = 0 ∨ s.phase = 2 ∧ s.row = 2) →
    f.ok s.cfg.ncols → s.frame = encodeFrame f →
    let n := 3 + (f.row0.evs.length + f.row1.evs.length + f.row2.evs.length) + CYCLE_TICKS
    (∃ t, steps n s = .next t ∧ t.row = 2 ∧ t.phase = 2 ∧ deliverable t = true ∧
      t.frame = s.frame) ∧
    tickCount n s = CYCLE_TICKS ∧
    ∀ r rs, f.rowAt r = some rs → ∀ c, litTicks r c n s = highTicks rs c

/-- 41_frame_compiler.md R160, 40_brightness_image.md R134: an LED is lit for exactly `T(L)` ticks of the
slot in which a compiled row is played, L the level of the image cell that `LAYOUT` puts there. -/
def Obligations.CompiledRowLightsEachLedForItsThreshold : Prop :=
  ∀ (s : State) (img : Image) (f : Frame) (rs : RowSched) (r c : Nat) (ticks : Half), Inv s →
    s.inited = true → s.run = true → s.pending = true → s.irqEn = true → s.cfg.latencyMax = 0 →
    s.prog = [] → s.sched = [] → s.phase ≠ 1 →
    r = (if s.phase = 0 then s.row.toNat else (s.row.toNat + 1) % 3) →
    img.wf = true → compileFrame s.cfg img = .ok f → s.frame = encodeFrame f →
    f.rowAt r = some rs → s.cfg.trom[shownLevel s.cfg img r c]? = some ticks →
    litTicks r c (1 + rs.evs.length + ROW_TICKS) s = ticks.toNat
end

