-- ==== Sys2Proof/Laws/Words.lean ====
section
/-!
SUPPORT. The fields of a frame word and the decoder's cases (30_encoding.md R96 to R99).
-/
namespace Sys2Proof.Laws
open Sys2Proof

/-- The bits of a frame word, field by field (30_encoding.md R96). -/
theorem frameWord_getLsbD (t : BitVec 2) (p : ColPat) (a : Half) (i : Nat) :
    (frameWord t p a).getLsbD i =
      if i < 16 then a.getLsbD i else if i < 30 then p.getLsbD (i - 16) else t.getLsbD (i - 30) := by
  show BitVec.getLsbD (w := 2 + 14 + 16) (t ++ p ++ a) i = _
  rw [BitVec.getLsbD_append, BitVec.getLsbD_append]
  split
  · rfl
  · have : i - 16 < 14 ↔ i < 30 := by omega
    have e : i - 16 - 14 = i - 30 := by omega
    simp [this, e]

theorem tagOf_frameWord (t : BitVec 2) (p : ColPat) (a : Half) : tagOf (frameWord t p a) = t := by
  ext i hi
  simp only [tagOf, BitVec.getElem_extractLsb', frameWord_getLsbD]
  rw [if_neg (by omega), if_neg (by omega)]
  simp [hi]
  
theorem patOf_frameWord (t : BitVec 2) (p : ColPat) (a : Half) : patOf (frameWord t p a) = p := by
  ext i hi
  simp only [patOf, BitVec.getElem_extractLsb', frameWord_getLsbD]
  rw [if_neg (by omega), if_pos (by omega)]
  simp [hi]

theorem argOf_frameWord (t : BitVec 2) (p : ColPat) (a : Half) : argOf (frameWord t p a) = a := by
  ext i hi
  simp [argOf, frameWord_getLsbD, hi]

theorem frameWord_fields (w : Word) : frameWord (tagOf w) (patOf w) (argOf w) = w := by
  apply BitVec.eq_of_getLsbD_eq
  intro i hi
  rw [frameWord_getLsbD]
  simp only [tagOf, patOf, argOf, BitVec.getLsbD_extractLsb']
  split
  · simp [*]
  · split
    · have : i - 16 < 14 := by omega
      have e : 16 + (i - 16) = i := by omega
      simp [this, e]
    · have : i - 30 < 2 := by omega
      have e : 30 + (i - 30) = i := by omega
      simp [this, e]

theorem countOf_encodeHeader (p : ColPat) (n : BitVec 4) : countOf (encodeHeader p n) = n := by
  ext i hi
  simp only [countOf, encodeHeader, BitVec.getElem_extractLsb', frameWord_getLsbD]
  rw [if_pos (by omega)]
  simp [hi]
  intro h; omega

theorem headerRestOf_encodeHeader (p : ColPat) (n : BitVec 4) :
    headerRestOf (encodeHeader p n) = 0 := by
  ext i hi
  simp only [headerRestOf, encodeHeader, BitVec.getElem_extractLsb', frameWord_getLsbD]
  rw [if_pos (by omega)]
  simp

theorem argOf_of_headerRest {w : Word} (h : headerRestOf w = 0) :
    argOf w = (countOf w).setWidth 16 := by
  ext i hi
  have hb := congrArg (fun v : BitVec 12 => v.getLsbD (i - 4)) h
  simp only [headerRestOf, BitVec.getLsbD_extractLsb'] at hb
  simp only [argOf, countOf, BitVec.getElem_extractLsb', BitVec.getElem_setWidth,
    BitVec.getLsbD_extractLsb']
  by_cases h4 : i < 4
  · simp [h4]
  · have e : 4 + (i - 4) = i := by omega
    have : i - 4 < 12 := by omega
    simp [e, this] at hb
    simp [h4, hb]

theorem decode_encodeHeader {ncols : Nat} {p : ColPat} {n : BitVec 4} (hp : belowCols ncols p)
    (hn : n.toNat ≤ MAX_EVENTS) : decodeFrameWord ncols (encodeHeader p n) = .ok (.rowhdr p n) := by
  have ht : tagOf (encodeHeader p n) = 1 := tagOf_frameWord ..
  have hpat : patOf (encodeHeader p n) = p := patOf_frameWord ..
  unfold decodeFrameWord
  rw [ht, hpat, headerRestOf_encodeHeader, countOf_encodeHeader]
  simp [hp, Nat.not_lt.mpr hn]

theorem decode_encodeEvent {ncols : Nat} {p : ColPat} {off : Half} (hp : belowCols ncols p) :
    decodeFrameWord ncols (encodeEvent p off) = .ok (.evt p off) := by
  have ht : tagOf (encodeEvent p off) = 2 := tagOf_frameWord ..
  have hpat : patOf (encodeEvent p off) = p := patOf_frameWord ..
  have harg : argOf (encodeEvent p off) = off := argOf_frameWord ..
  unfold decodeFrameWord
  rw [ht, hpat, harg]
  simp [hp]

/-- What a frame word that decodes says of its fields: the cases of 30_encoding.md R97 to R99. -/
theorem decodeFrameWord_ok {ncols : Nat} {w : Word} {i : Instr}
    (h : decodeFrameWord ncols w = .ok i) :
    (w = 0 ∧ i = .pad) ∨
    (tagOf w = 1 ∧ headerRestOf w = 0 ∧ (countOf w).toNat ≤ MAX_EVENTS ∧
      belowCols ncols (patOf w) ∧ i = .rowhdr (patOf w) (countOf w)) ∨
    (tagOf w = 2 ∧ belowCols ncols (patOf w) ∧ i = .evt (patOf w) (argOf w)) := by
  unfold decodeFrameWord at h
  split at h
  · split at h
    · exact .inl ⟨‹_›, by simpa using h.symm⟩
    · cases h
  · split at h
    · split at h
      · cases h
      · split at h
        · cases h
        · split at h
          · exact .inr (.inl ⟨‹_›, by simpa using ‹¬ headerRestOf w ≠ 0›, by omega, ‹_›,
              by simpa using h.symm⟩)
          · cases h
    · split at h
      · split at h
        · exact .inr (.inr ⟨‹_›, ‹_›, by simpa using h.symm⟩)
        · cases h
      · cases h

/-- A `ROWHDR` word is the encoding of its fields. -/
theorem encodeHeader_fields {w : Word} (ht : tagOf w = 1) (hr : headerRestOf w = 0) :
    encodeHeader (patOf w) (countOf w) = w := by
  unfold encodeHeader
  rw [← argOf_of_headerRest hr, ← ht]
  exact frameWord_fields w

/-- An `EVT` word is the encoding of its fields. -/
theorem encodeEvent_fields {w : Word} (ht : tagOf w = 2) :
    encodeEvent (patOf w) (argOf w) = w := by
  unfold encodeEvent
  rw [← ht]
  exact frameWord_fields w

end Sys2Proof.Laws
end

