-- ==== Sys2Proof/Laws/Frames.lean ====
section
/-!
SUPPORT. Row records and frames in their stored form (30_encoding.md R95, R100, R101), and what the engine reads of them.
-/
namespace Sys2Proof.Laws
open Sys2Proof Sys2Proof.Machine

theorem decodeEvt_some {ncols : Nat} {w : Word} {e : Event} :
    decodeEvt ncols w = some e ↔
      tagOf w = 2 ∧ belowCols ncols (patOf w) ∧ e = ⟨argOf w, patOf w⟩ := by
  constructor
  · intro h
    unfold decodeEvt at h
    split at h
    · rename_i heq
      rcases decodeFrameWord_ok heq with ⟨_, hi⟩ | ⟨_, _, _, _, hi⟩ | ⟨ht, hb, hi⟩
      · cases hi
      · cases hi
      · cases hi
        exact ⟨ht, hb, by simpa using h.symm⟩
    · cases h
  · rintro ⟨ht, hb, rfl⟩
    have := decode_encodeEvent (off := argOf w) hb
    rw [encodeEvent_fields ht] at this
    simp [decodeEvt, this]

theorem decodeEvt_encodeEvt {ncols : Nat} {e : Event} (h : belowCols ncols e.clr) :
    decodeEvt ncols (encodeEvt e) = some e := by
  simp [decodeEvt, encodeEvt, decode_encodeEvent h]

theorem encodeEvt_of_decodeEvt {ncols : Nat} {w : Word} {e : Event}
    (h : decodeEvt ncols w = some e) : encodeEvt e = w := by
  obtain ⟨ht, -, rfl⟩ := decodeEvt_some.mp h
  exact encodeEvent_fields ht

theorem decodeEvents_encode {ncols : Nat} {es : List Event} (m : Nat)
    (h : ∀ e ∈ es, belowCols ncols e.clr) :
    decodeEvents ncols es.length (es.map encodeEvt ++ List.replicate m 0) = some es := by
  induction es with
  | nil => simp [decodeEvents]
  | cons e es ih =>
    have he : decodeEvt ncols (encodeEvt e) = some e := decodeEvt_encodeEvt (h e (by simp))
    have hi := ih fun x hx => h x (by simp [hx])
    simp only [List.length_cons, List.map_cons, List.cons_append, decodeEvents, he, hi]

theorem decodeEvents_some {ncols n : Nat} {ws : List Word} {es : List Event}
    (h : decodeEvents ncols n ws = some es) :
    es.length = n ∧ n ≤ ws.length ∧ (∀ e ∈ es, belowCols ncols e.clr) ∧
      ws = es.map encodeEvt ++ List.replicate (ws.length - n) 0 := by
  induction n generalizing ws es with
  | zero =>
    simp only [decodeEvents] at h
    split at h
    · rename_i hz
      cases h
      simp only [List.all_eq_true, beq_iff_eq] at hz
      refine ⟨rfl, by omega, by simp, ?_⟩
      simpa using List.eq_replicate_iff.mpr ⟨rfl, hz⟩
    · cases h
  | succ n ih =>
    cases ws with
    | nil => simp [decodeEvents] at h
    | cons w ws =>
      simp only [decodeEvents] at h
      split at h
      · rename_i e es' he hes
        cases h
        obtain ⟨hl, hn, hb, hw⟩ := ih hes
        refine ⟨by simp [hl], by simpa using hn, ?_, ?_⟩
        · intro x hx
          rcases List.mem_cons.mp hx with rfl | hx
          · exact (by obtain ⟨-, hb, rfl⟩ := decodeEvt_some.mp he; exact hb)
          · exact hb x hx
        · rw [List.map_cons, encodeEvt_of_decodeEvt he, List.cons_append]
          congr 1
          simpa using hw
      · cases h

theorem length_encodeRow {r : RowSched} (h : r.evs.length ≤ MAX_EVENTS) :
    (encodeRow r).length = ROW_WORDS := by
  simp only [MAX_EVENTS] at h
  simp [encodeRow, MAX_EVENTS, ROW_WORDS]
  omega

/-- What a row record must be to be read back (30_encoding.md R100, R101). -/
theorem decodeRow_encodeRow {ncols : Nat} {r : RowSched} (hl : r.evs.length ≤ MAX_EVENTS)
    (hi : belowCols ncols r.init) (hc : ∀ e ∈ r.evs, belowCols ncols e.clr) :
    decodeRow ncols (encodeRow r) = some r := by
  have hn : (BitVec.ofNat 4 r.evs.length).toNat = r.evs.length := by
    simp only [MAX_EVENTS] at hl
    simp
    omega
  have hd := decode_encodeHeader (n := BitVec.ofNat 4 r.evs.length) hi (by omega)
  have hlen : (r.evs.map encodeEvt ++ List.replicate (MAX_EVENTS - r.evs.length) (0 : Word)).length
      = MAX_EVENTS := by
    simp
    omega
  unfold encodeRow decodeRow
  simp only [if_pos hlen, hd, hn, decodeEvents_encode _ hc, Option.map_some]

theorem decodeRow_some {ncols : Nat} {ws : List Word} {r : RowSched}
    (h : decodeRow ncols ws = some r) :
    ws = encodeRow r ∧ r.evs.length ≤ MAX_EVENTS ∧ belowCols ncols r.init ∧
      ∀ e ∈ r.evs, belowCols ncols e.clr := by
  cases ws with
  | nil => simp [decodeRow] at h
  | cons w ws =>
    simp only [decodeRow] at h
    split at h
    · rename_i hlen
      split at h
      · rename_i p n hd
        rw [Option.map_eq_some_iff] at h
        obtain ⟨es, hes, rfl⟩ := h
        rcases decodeFrameWord_ok hd with ⟨_, hx⟩ | ⟨ht, hr, hn, hb, hx⟩ | ⟨_, _, hx⟩
        · cases hx
        · cases hx
          obtain ⟨hl, hle, hc, hw⟩ := decodeEvents_some hes
          refine ⟨?_, by simpa [hl] using hn, hb, hc⟩
          simp only [encodeRow, hl]
          rw [hlen] at hw
          rw [← hw]
          simp [encodeHeader_fields ht hr]
        · cases hx
      · cases h
    · cases h

theorem rowOk_iff {ncols : Nat} {ws : List Word} :
    rowOk ncols ws = true ↔ ∃ r : RowSched, r.ok ncols ∧ ws = encodeRow r := by
  constructor
  · intro h
    unfold rowOk at h
    split at h
    · rename_i r hr
      exact ⟨r, of_decide_eq_true h, (decodeRow_some hr).1⟩
    · cases h
  · rintro ⟨r, hr, rfl⟩
    unfold rowOk
    rw [decodeRow_encodeRow hr.1 hr.2.1 hr.2.2.1]
    exact decide_eq_true hr

theorem take_rows {a b c : List Word} (ha : a.length = 10) (hb : b.length = 10) :
    (a ++ b ++ c).take 10 = a ∧ ((a ++ b ++ c).drop 10).take 10 = b ∧ (a ++ b ++ c).drop 20 = c := by
  refine ⟨?_, ?_, ?_⟩
  · rw [List.append_assoc]; exact List.take_left' ha
  · rw [List.append_assoc, List.drop_left' ha]; exact List.take_left' hb
  · exact List.drop_left' (by simp [ha, hb])

theorem decodeFrame_some {ncols : Nat} {ws : List Word} {f : Frame}
    (h : decodeFrame ncols ws = some f) :
    ws = encodeFrame f ∧ decodeRow ncols (encodeRow f.row0) = some f.row0 ∧
      decodeRow ncols (encodeRow f.row1) = some f.row1 ∧
      decodeRow ncols (encodeRow f.row2) = some f.row2 := by
  unfold decodeFrame at h
  split at h
  · rename_i r0 r1 r2 h0 h1 h2
    cases h
    have e0 := (decodeRow_some h0).1
    have e1 := (decodeRow_some h1).1
    have e2 := (decodeRow_some h2).1
    refine ⟨?_, e0 ▸ h0, e1 ▸ h1, e2 ▸ h2⟩
    simp only [encodeFrame, ← e0, ← e1, ← e2, List.append_assoc]
    conv_lhs => rw [← List.take_append_drop 10 ws]
    congr 1
    conv_lhs => rw [← List.take_append_drop 10 (ws.drop 10)]
    simp
  · cases h

theorem decodeFrame_encodeFrame_of_rows {ncols : Nat} {f : Frame}
    (l0 : f.row0.evs.length ≤ MAX_EVENTS) (l1 : f.row1.evs.length ≤ MAX_EVENTS)
    (h0 : decodeRow ncols (encodeRow f.row0) = some f.row0)
    (h1 : decodeRow ncols (encodeRow f.row1) = some f.row1)
    (h2 : decodeRow ncols (encodeRow f.row2) = some f.row2) :
    decodeFrame ncols (encodeFrame f) = some f := by
  obtain ⟨t0, t1, t2⟩ := take_rows (c := encodeRow f.row2) (length_encodeRow l0)
    (length_encodeRow l1)
  simp [decodeFrame, encodeFrame, -List.append_assoc, t0, t1, t2, h0, h1, h2]

theorem frameOk_iff {ncols : Nat} {ws : List Word} :
    frameOk ncols ws = true ↔ ∃ f : Frame, f.ok ncols ∧ ws = encodeFrame f := by
  constructor
  · intro h
    unfold frameOk at h
    split at h
    · rename_i f hf
      exact ⟨f, of_decide_eq_true h, (decodeFrame_some hf).1⟩
    · cases h
  · rintro ⟨f, hf, rfl⟩
    obtain ⟨h0, h1, h2⟩ := hf
    unfold frameOk
    rw [decodeFrame_encodeFrame_of_rows h0.1 h1.1 (decodeRow_encodeRow h0.1 h0.2.1 h0.2.2.1)
      (decodeRow_encodeRow h1.1 h1.2.1 h1.2.2.1) (decodeRow_encodeRow h2.1 h2.2.1 h2.2.2.1)]
    exact decide_eq_true ⟨h0, h1, h2⟩

theorem headerOf_encodeRow {ncols : Nat} {r : RowSched} (h : r.ok ncols) :
    headerOf ncols (encodeRow r) = .ok (r.init, BitVec.ofNat 4 r.evs.length) := by
  have hl := h.1
  simp only [MAX_EVENTS] at hl
  have hd := decode_encodeHeader (n := BitVec.ofNat 4 r.evs.length) h.2.1 (by simp [MAX_EVENTS]; omega)
  simp [headerOf, encodeRow, hd]

theorem toNat_count {ncols : Nat} {r : RowSched} (h : r.ok ncols) :
    (BitVec.ofNat 4 r.evs.length).toNat = r.evs.length := by
  have hl := h.1
  simp only [MAX_EVENTS] at hl
  simp
  omega

theorem getElem?_encodeRow {r : RowSched} {j : Nat} {e : Event} (h : r.evs[j]? = some e) :
    (encodeRow r)[1 + j]? = some (encodeEvt e) := by
  obtain ⟨hj, rfl⟩ := List.getElem?_eq_some_iff.mp h
  simp [encodeRow, Nat.add_comm 1 j, List.getElem?_append_left, hj]

theorem eventOf_encodeRow {ncols : Nat} {r : RowSched} {j : Nat} {e : Event} (h : r.ok ncols)
    (hj : r.evs[j]? = some e) : eventOf ncols (encodeRow r) j = .ok e := by
  have hb := h.2.2.1 e (List.mem_of_getElem? hj)
  simp [eventOf, getElem?_encodeRow hj, decodeEvt_encodeEvt hb]

end Sys2Proof.Laws
end

