-- ==== Sys2Proof/Laws/Compiler.lean ====
section
/-!
SUPPORT. The reads of images and tables, and the Frame Compiler in closed form (41_frame_compiler.md R151 to R159).
-/
namespace Sys2Proof.Laws
open Sys2Proof Sys2Proof.Machine

/-! ### Reads -/

theorem readEach_ok {α β : Type} {f : α → Except NoValue β} {as : List α} {bs : List β}
    (h : readEach f as = .ok bs) :
    bs.length = as.length ∧ ∀ (i : Nat) (a : α), as[i]? = some a → ∃ b, f a = .ok b ∧ bs[i]? = some b := by
  induction as generalizing bs with
  | nil => cases h; simp
  | cons a as ih =>
    simp only [readEach] at h
    split at h
    · cases h
    · rename_i b hb
      split at h
      · cases h
      · rename_i bs' hbs
        cases h
        obtain ⟨hl, hi⟩ := ih hbs
        refine ⟨by simp [hl], fun i x hx => ?_⟩
        cases i with
        | zero => exact ⟨b, by simpa using (by simpa using hx : a = x) ▸ hb, rfl⟩
        | succ i => simpa using hi i x (by simpa using hx)

theorem readEach_total {α β : Type} {f : α → Except NoValue β} {as : List α}
    (h : ∀ a ∈ as, ∃ b, f a = .ok b) : ∃ bs, readEach f as = .ok bs := by
  induction as with
  | nil => exact ⟨[], rfl⟩
  | cons a as ih =>
    obtain ⟨b, hb⟩ := h a (by simp)
    obtain ⟨bs, hbs⟩ := ih fun x hx => h x (by simp [hx])
    exact ⟨b :: bs, by simp [readEach, hb, hbs]⟩

/-! ### Column sets -/

theorem columnsWhere_getLsbD (q : Level → Bool) (ls : List Level) (i : Nat) :
    (columnsWhere q ls).getLsbD i = (decide (i < 14) && (ls[i]?).any q) := by
  induction ls generalizing i with
  | nil => simp [columnsWhere]
  | cons l ls ih =>
    cases i with
    | zero => by_cases h : q l <;> simp [columnsWhere, h]
    | succ i =>
      by_cases h : q l <;>
        (simp [columnsWhere, h, ih, BitVec.getLsbD_one]
         by_cases h1 : i + 1 < 14 <;> simp [h1]
         omega)

theorem columnsWhere_eq_zero {q : Level → Bool} {ls : List Level} (hl : ls.length ≤ 14) :
    columnsWhere q ls = 0 ↔ ∀ l ∈ ls, q l = false := by
  constructor
  · intro h l hm
    obtain ⟨i, hi, rfl⟩ := List.getElem_of_mem hm
    have hb := columnsWhere_getLsbD q ls i
    rw [h] at hb
    simpa [show i < 14 by omega, List.getElem?_eq_getElem hi] using hb.symm
  · intro h
    apply BitVec.eq_of_getLsbD_eq
    intro i hi
    rw [columnsWhere_getLsbD]
    cases hx : ls[i]? with
    | none => simp
    | some l => simp [h l (List.mem_of_getElem? hx)]

theorem belowCols_columnsWhere {q : Level → Bool} {ls : List Level} {ncols : Nat}
    (h : ls.length ≤ ncols) : belowCols ncols (columnsWhere q ls) := by
  refine Nat.lt_pow_two_of_testBit _ fun i hi => ?_
  rw [BitVec.testBit_toNat, columnsWhere_getLsbD, List.getElem?_eq_none (by omega)]
  simp

/-! ### Thresholds -/

theorem threshold_eq (trom : List Half) {l : Nat} (h : l < trom.length) :
    threshold trom l = .ok trom[l] := by
  simp [threshold, List.getElem?_eq_getElem h]

theorem trom_lt {cfg : Config} (h : cfg.tromOk) {i j : Nat} {a b : Half} (hij : i < j)
    (ha : cfg.trom[i]? = some a) (hb : cfg.trom[j]? = some b) : a.toNat < b.toNat := by
  obtain ⟨hi, rfl⟩ := List.getElem?_eq_some_iff.mp ha
  obtain ⟨hj, rfl⟩ := List.getElem?_eq_some_iff.mp hb
  exact BitVec.lt_def.mp (List.pairwise_iff_getElem.mp h.2.2.2 i j hi hj hij)

/-! ### Events -/

/-- The event a level makes in a row, if some column has it (41_frame_compiler.md R153). -/
def eventFor (trom : List Half) (levels : List Level) (l : Nat) : Option Event :=
  if columnsWhere (fun v => v.toNat == l) levels = 0 then none
  else (trom[l]?).map fun t => ⟨t, columnsWhere (fun v => v.toNat == l) levels⟩

theorem eventFor_some {trom : List Half} {levels : List Level} {l : Nat} {e : Event} :
    eventFor trom levels l = some e ↔
      columnsWhere (fun v => v.toNat == l) levels ≠ 0 ∧ trom[l]? = some e.off ∧
        e.clr = columnsWhere (fun v => v.toNat == l) levels := by
  unfold eventFor
  split
  · simp [*]
  · rw [Option.map_eq_some_iff]
    constructor
    · rintro ⟨t, ht, rfl⟩
      exact ⟨‹_›, ht, rfl⟩
    · rintro ⟨-, ht, hc⟩
      exact ⟨e.off, ht, by cases e; simp_all⟩

theorem eventsFor_eq (trom : List Half) (levels : List Level) {ls : List Nat}
    (h : ∀ l ∈ ls, l < trom.length) :
    eventsFor trom levels ls = .ok (ls.filterMap (eventFor trom levels)) := by
  induction ls with
  | nil => rfl
  | cons l ls ih =>
    have hl := h l (by simp)
    simp only [eventsFor, ih fun x hx => h x (by simp [hx])]
    have ht := threshold_eq trom hl
    split
    · rename_i hm
      rw [List.filterMap_cons_none (by simp [eventFor, hm])]
    · rename_i hm
      rw [ht, List.filterMap_cons_some (b := ⟨trom[l], columnsWhere (fun v => v.toNat == l) levels⟩)
        (eventFor_some.mpr ⟨hm, List.getElem?_eq_getElem hl, rfl⟩)]

theorem scheduleOf_eq {cfg : Config} (h : cfg.tromOk) (levels : List Level) :
    scheduleOf cfg.trom levels = .ok
      ⟨columnsWhere (fun v => v.toNat != 0) levels,
        eventLevels.filterMap (eventFor cfg.trom levels)⟩ := by
  have hl : cfg.trom.length = 10 := h.1
  have := eventsFor_eq cfg.trom levels (ls := eventLevels)
    (by simp only [eventLevels, List.mem_cons, List.not_mem_nil, or_false]; omega)
  simp [scheduleOf, this]

theorem mem_eventLevels {l : Nat} : l ∈ eventLevels ↔ 1 ≤ l ∧ l ≤ 8 := by
  simp only [eventLevels, List.mem_cons, List.not_mem_nil, or_false]
  omega

/-- The events of a compiled row (41_frame_compiler.md R153 to R156). -/
theorem mem_scheduleEvents {cfg : Config} {levels : List Level} {e : Event} :
    e ∈ eventLevels.filterMap (eventFor cfg.trom levels) ↔
      ∃ l, 1 ≤ l ∧ l ≤ 8 ∧ eventFor cfg.trom levels l = some e := by
  simp only [List.mem_filterMap, mem_eventLevels, and_assoc]

theorem scheduleEvents_sorted {cfg : Config} (h : cfg.tromOk) (levels : List Level) :
    (eventLevels.filterMap (eventFor cfg.trom levels)).Pairwise
      fun a b => a.off.toNat < b.off.toNat := by
  refine List.Pairwise.filterMap (R := (· < ·)) _ ?_ (by decide)
  intro i j hij a ha b hb
  exact trom_lt h hij (eventFor_some.mp ha).2.1 (eventFor_some.mp hb).2.1

/-- Every row the compiler makes is well-formed (41_frame_compiler.md R159). -/
theorem scheduleOf_ok {cfg : Config} (h : cfg.ok) {levels : List Level}
    (hl : levels.length ≤ cfg.ncols) {rs : RowSched} (hs : scheduleOf cfg.trom levels = .ok rs) :
    rs.ok cfg.ncols := by
  have ht := h.2.2.2.1
  rw [scheduleOf_eq ht] at hs
  cases hs
  refine ⟨?_, belowCols_columnsWhere hl, ?_, ?_, scheduleEvents_sorted ht levels⟩
  · refine (List.length_filterMap_le ..).trans ?_
    decide
  · intro e he
    obtain ⟨l, -, -, hl'⟩ := mem_scheduleEvents.mp he
    rw [(eventFor_some.mp hl').2.2]
    exact belowCols_columnsWhere hl
  · intro e he
    obtain ⟨l, h1, h8, hl'⟩ := mem_scheduleEvents.mp he
    have ho := (eventFor_some.mp hl').2.1
    have h0 := trom_lt ht (by omega : 0 < l) ht.2.1 ho
    have h9 := trom_lt ht (show l < 9 by omega) ho ht.2.2.1
    simp only [ROW_TICKS]
    simp at h0 h9
    omega

/-! ### Images -/

theorem cell_in_grid {cfg : Config} (h : cfg.layoutOk) {r c x y : Nat}
    (hl : layoutAt cfg r c = some (x, y)) : x < IMG_W ∧ y < IMG_H := by
  unfold layoutAt at hl
  split at hl
  · cases hl
  · rename_i cells hr
    split at hl
    · cases hl
    · rename_i cell hc
      subst hl
      refine h.2.2.2 (x, y) ?_
      simp only [Config.cells, List.mem_filterMap, List.mem_flatten, id]
      exact ⟨some (x, y), ⟨cells, List.mem_of_getElem? hr, List.mem_of_getElem? hc⟩, rfl⟩

theorem clampLevel_le {policy : LevelPolicy} {v : Byte} (h : v.toNat ≤ 9) :
    clampLevel policy v = .ok (BitVec.ofNat 4 v.toNat) := by
  simp [clampLevel, MAX_LEVEL, Nat.not_lt.mpr h]
  
theorem clampLevel_clamp (v : Byte) :
    clampLevel .clamp v = .ok (BitVec.ofNat 4 (min v.toNat 9)) := by
  by_cases h : v.toNat ≤ 9
  · rw [clampLevel_le h, Nat.min_eq_left h]
  · simp [clampLevel, MAX_LEVEL, Nat.not_le.mp h, Nat.min_eq_right (by omega : 9 ≤ v.toNat)]

theorem clampLevel_le_nine {policy : LevelPolicy} {v : Byte} {l : Level}
    (h : clampLevel policy v = .ok l) : l.toNat ≤ 9 := by
  by_cases hv : v.toNat ≤ 9
  · rw [clampLevel_le hv] at h
    cases h
    simp
    omega
  · cases policy with
    | clamp =>
      rw [clampLevel_clamp] at h
      cases h
      simp
      omega
    | reject => simp [clampLevel, MAX_LEVEL, Nat.not_le.mp hv] at h

theorem greyLevel_in {policy : LevelPolicy} {buf : List Byte} (hb : buf.length = GREY_BYTES)
    {x y : Nat} (hx : x < IMG_W) (hy : y < IMG_H) :
    ∃ v, buf[5 * y + x]? = some v ∧ greyLevel policy buf x y = clampLevel policy v := by
  simp only [GREY_BYTES, IMG_W, IMG_H] at hb hx hy
  have hi : 5 * y + x < buf.length := by omega
  refine ⟨buf[5 * y + x], List.getElem?_eq_getElem hi, ?_⟩
  simp [greyLevel, IMG_W, IMG_H, hx, hy, imageByte, List.getElem?_eq_getElem hi]

theorem bitLevel_in {buf : List Byte} (hb : buf.length = BIT_BYTES)
    {x y : Nat} (hx : x < IMG_W) (hy : y < IMG_H) :
    ∃ v, buf[y]? = some v ∧ bitLevel buf x y = .ok (if v.getLsbD x then 9 else 0) := by
  simp only [BIT_BYTES, IMG_W, IMG_H] at hb hx hy
  have hi : y < buf.length := by omega
  refine ⟨buf[y], List.getElem?_eq_getElem hi, ?_⟩
  simp [bitLevel, IMG_W, IMG_H, hx, hy, imageByte, List.getElem?_eq_getElem hi]

theorem greyLevel_out {policy : LevelPolicy} {buf : List Byte} {x y : Nat}
    (h : ¬ (x < IMG_W ∧ y < IMG_H)) :
    greyLevel policy buf x y = .error (.refused (.coordinates x y)) := by
  simp only [greyLevel, if_neg h]

theorem bitLevel_out {buf : List Byte} {x y : Nat} (h : ¬ (x < IMG_W ∧ y < IMG_H)) :
    bitLevel buf x y = .error (.refused (.coordinates x y)) := by
  simp only [bitLevel, if_neg h]

theorem brightnessAt_total {policy : LevelPolicy} {img : Image} (hw : img.wf = true)
    (hp : policy = .clamp ∨ ∃ buf, img = .bits buf) {x y : Nat} (hx : x < IMG_W) (hy : y < IMG_H) :
    ∃ l, brightnessAt policy img x y = .ok l := by
  cases img with
  | grey buf =>
    obtain rfl | ⟨_, hb⟩ := hp
    · obtain ⟨v, -, hv⟩ := greyLevel_in (policy := .clamp) (by simpa [Image.wf] using hw) hx hy
      exact ⟨_, by rw [brightnessAt, hv, clampLevel_clamp]⟩
    · cases hb
  | bits buf =>
    obtain ⟨v, -, hv⟩ := bitLevel_in (by simpa [Image.wf] using hw) hx hy
    exact ⟨_, hv⟩

theorem brightnessAt_le_nine {policy : LevelPolicy} {img : Image} {x y : Nat} {l : Level}
    (h : brightnessAt policy img x y = .ok l) : l.toNat ≤ 9 := by
  cases img with
  | grey buf =>
    simp only [brightnessAt, greyLevel] at h
    split at h
    · split at h
      · exact clampLevel_le_nine h
      · cases h
    · cases h
  | bits buf =>
    simp only [brightnessAt, bitLevel] at h
    split at h
    · split at h
      · cases h
        split <;> decide
      · cases h
    · cases h

theorem rowLevels_ok {cfg : Config} {img : Image} {r : Nat} {levels : List Level}
    (h : rowLevels cfg img r = .ok levels) :
    levels.length = cfg.ncols ∧
      ∀ c, c < cfg.ncols → ∃ l, levelAt cfg img r c = .ok l ∧ levels[c]? = some l := by
  obtain ⟨hl, hi⟩ := readEach_ok h
  refine ⟨by simpa using hl, fun c hc => ?_⟩
  obtain ⟨l, hl, hc⟩ := hi c c (by simp [hc])
  exact ⟨l, hl, hc⟩

/-- A level read of a cell is the cell's level (40_brightness_image.md R136, R137). -/
theorem brightnessAt_cellLevel {policy : LevelPolicy} {img : Image} (hw : img.wf = true) {x y : Nat}
    (hx : x < IMG_W) (hy : y < IMG_H) {l : Level} (h : brightnessAt policy img x y = .ok l) :
    l.toNat = cellLevel img x y := by
  cases img with
  | grey buf =>
    obtain ⟨v, hv, hg⟩ := greyLevel_in (policy := policy) (by simpa [Image.wf] using hw) hx hy
    rw [brightnessAt, hg] at h
    simp only [cellLevel, List.getD_eq_getElem?_getD, hv, Option.getD_some, MAX_LEVEL]
    by_cases hle : v.toNat ≤ 9
    · rw [clampLevel_le hle] at h
      cases h
      simp
      omega
    · cases policy with
      | clamp =>
        rw [clampLevel_clamp] at h
        cases h
        simp
      | reject => simp [clampLevel, MAX_LEVEL, Nat.not_le.mp hle] at h
  | bits buf =>
    obtain ⟨v, hv, hb⟩ := bitLevel_in (by simpa [Image.wf] using hw) hx hy
    rw [brightnessAt, hb] at h
    cases h
    simp only [cellLevel, List.getD_eq_getElem?_getD, hv, Option.getD_some]
    split <;> rfl

/-- `LAYOUT` is defined on the columns below `NCOLS` only. -/
theorem layoutAt_below {cfg : Config} (h : cfg.layoutOk) {r c : Nat} {p : Nat × Nat}
    (hl : layoutAt cfg r c = some p) : c < cfg.ncols := by
  unfold layoutAt at hl
  split at hl
  · cases hl
  · rename_i cells hr
    split at hl
    · cases hl
    · rename_i cell hc
      rw [← h.2.1 cells (List.mem_of_getElem? hr)]
      exact (List.getElem?_eq_some_iff.mp hc).1

theorem shownLevel_beyond {cfg : Config} (h : cfg.layoutOk) (img : Image) (r : Nat) {c : Nat}
    (hc : cfg.ncols ≤ c) : shownLevel cfg img r c = 0 := by
  unfold shownLevel
  split
  · rfl
  · exact absurd (layoutAt_below h ‹_›) (by omega)

/-- The levels of a row are those its positions show (41_frame_compiler.md R151). -/
theorem rowLevels_shown {cfg : Config} (hc : cfg.layoutOk) {img : Image} (hw : img.wf = true)
    {r : Nat} {levels : List Level} (h : rowLevels cfg img r = .ok levels) {c : Nat}
    (hlt : c < cfg.ncols) : ∃ l, levels[c]? = some l ∧ l.toNat = shownLevel cfg img r c := by
  obtain ⟨l, hl, hlc⟩ := (rowLevels_ok h).2 c hlt
  refine ⟨l, hlc, ?_⟩
  cases hxy : layoutAt cfg r c with
  | none =>
    simp only [levelAt, hxy] at hl
    cases hl
    simp [shownLevel, hxy]
  | some p =>
    obtain ⟨hx, hy⟩ := cell_in_grid hc hxy
    simp only [levelAt, hxy] at hl
    simp only [shownLevel, hxy]
    exact brightnessAt_cellLevel hw hx hy hl

/-- The columns of a row whose level is in a set that 0 is not in. -/
theorem columnsWhere_shown {cfg : Config} (hc : cfg.ok) {img : Image} (hw : img.wf = true) {r : Nat}
    {levels : List Level} (h : rowLevels cfg img r = .ok levels) {q : Level → Bool}
    {p : Nat → Prop} (hq : ∀ l, q l = true ↔ p l.toNat) (h0 : ¬ p 0) (c : Nat) :
    (columnsWhere q levels).getLsbD c = true ↔ p (shownLevel cfg img r c) := by
  rw [columnsWhere_getLsbD]
  by_cases hlt : c < cfg.ncols
  · obtain ⟨l, hl, hs⟩ := rowLevels_shown hc.2.2.1 hw h hlt
    have : c < 14 := by have := hc.2.1; omega
    simp [hl, hq, hs, this]
  · rw [shownLevel_beyond hc.2.2.1 img r (by omega),
      List.getElem?_eq_none (by rw [(rowLevels_ok h).1]; omega)]
    simp [h0]

theorem rowLevels_total {cfg : Config} (hc : cfg.layoutOk) {img : Image} (hw : img.wf = true)
    (hp : cfg.levelPolicy = .clamp ∨ ∃ buf, img = .bits buf) (r : Nat) :
    ∃ levels, rowLevels cfg img r = .ok levels := by
  refine readEach_total fun c _ => ?_
  unfold levelAt
  split
  · exact ⟨0, rfl⟩
  · rename_i x y hxy
    obtain ⟨hx, hy⟩ := cell_in_grid hc hxy
    exact brightnessAt_total hw hp hx hy

theorem compileRow_of_levels {cfg : Config} {img : Image} {r : Nat} {levels : List Level}
    (hr : r < NROWS) (h : rowLevels cfg img r = .ok levels) :
    compileRow cfg img r = scheduleOf cfg.trom levels := by
  simp [compileRow, hr, h]

theorem compileRow_ok {cfg : Config} {img : Image} {r : Nat} {rs : RowSched}
    (h : compileRow cfg img r = .ok rs) :
    r < NROWS ∧ ∃ levels, rowLevels cfg img r = .ok levels ∧ scheduleOf cfg.trom levels = .ok rs := by
  unfold compileRow at h
  split at h
  · split at h
    · cases h
    · exact ⟨‹_›, _, ‹_›, h⟩
  · cases h

theorem compileRow_wf {cfg : Config} (hc : cfg.ok) {img : Image} {r : Nat} {rs : RowSched}
    (h : compileRow cfg img r = .ok rs) : rs.ok cfg.ncols := by
  obtain ⟨-, levels, hl, hs⟩ := compileRow_ok h
  exact scheduleOf_ok hc (rowLevels_ok hl).1.le hs

theorem compileRow_total {cfg : Config} (hc : cfg.ok) {img : Image} (hw : img.wf = true)
    (hp : cfg.levelPolicy = .clamp ∨ ∃ buf, img = .bits buf) {r : Nat} (hr : r < NROWS) :
    ∃ rs, compileRow cfg img r = .ok rs := by
  obtain ⟨levels, hl⟩ := rowLevels_total hc.2.2.1 hw hp r
  exact ⟨_, (compileRow_of_levels hr hl).trans (scheduleOf_eq hc.2.2.2.1 levels)⟩

theorem compileFrame_ok {cfg : Config} {img : Image} {f : Frame}
    (h : compileFrame cfg img = .ok f) :
    compileRow cfg img 0 = .ok f.row0 ∧ compileRow cfg img 1 = .ok f.row1 ∧
      compileRow cfg img 2 = .ok f.row2 := by
  unfold compileFrame at h
  split at h
  · cases h
  · split at h
    · cases h
    · split at h
      · cases h
      · cases h
        exact ⟨‹_›, ‹_›, ‹_›⟩

theorem compileFrame_wf {cfg : Config} (hc : cfg.ok) {img : Image} {f : Frame}
    (h : compileFrame cfg img = .ok f) : f.ok cfg.ncols := by
  obtain ⟨h0, h1, h2⟩ := compileFrame_ok h
  exact ⟨compileRow_wf hc h0, compileRow_wf hc h1, compileRow_wf hc h2⟩

theorem compileFrame_total {cfg : Config} (hc : cfg.ok) {img : Image} (hw : img.wf = true)
    (hp : cfg.levelPolicy = .clamp ∨ ∃ buf, img = .bits buf) :
    ∃ f, compileFrame cfg img = .ok f := by
  obtain ⟨r0, h0⟩ := compileRow_total hc hw hp (r := 0) (by decide)
  obtain ⟨r1, h1⟩ := compileRow_total hc hw hp (r := 1) (by decide)
  obtain ⟨r2, h2⟩ := compileRow_total hc hw hp (r := 2) (by decide)
  exact ⟨⟨r0, r1, r2⟩, by simp [compileFrame, h0, h1, h2]⟩

theorem compileRow_rowAt {cfg : Config} {img : Image} {f : Frame}
    (h : compileFrame cfg img = .ok f) {r : Nat} {rs : RowSched} (hr : f.rowAt r = some rs) :
    compileRow cfg img r = .ok rs := by
  obtain ⟨h0, h1, h2⟩ := compileFrame_ok h
  match r with
  | 0 => cases hr; exact h0
  | 1 => cases hr; exact h1
  | 2 => cases hr; exact h2
  | n + 3 => cases hr

end Sys2Proof.Laws
end

