-- ==== Sys2Proof/Laws/State.lean ====
section
/-!
SUPPORT. One lemma per named update of the state and per field, true by definition, so that no later
proof unfolds a record update.
-/
namespace Sys2Proof.Laws
open Sys2Proof Sys2Proof.Machine

/-! ### `programPeriod` -/

@[simp] theorem programPeriod_frame (a b : Half) (s : State) :
    (programPeriod a b s).frame = s.frame := rfl
@[simp] theorem programPeriod_row (a b : Half) (s : State) :
    (programPeriod a b s).row = s.row := rfl
@[simp] theorem programPeriod_phase (a b : Half) (s : State) :
    (programPeriod a b s).phase = s.phase := rfl
@[simp] theorem programPeriod_k (a b : Half) (s : State) : (programPeriod a b s).k = s.k := rfl
@[simp] theorem programPeriod_elapsed (a b : Half) (s : State) :
    (programPeriod a b s).elapsed = s.elapsed := rfl
@[simp] theorem programPeriod_cols (a b : Half) (s : State) :
    (programPeriod a b s).cols = s.cols := rfl
@[simp] theorem programPeriod_rowbuf (a b : Half) (s : State) :
    (programPeriod a b s).rowbuf = s.rowbuf := rfl
@[simp] theorem programPeriod_cnt (a b : Half) (s : State) : (programPeriod a b s).cnt = 0 := rfl
@[simp] theorem programPeriod_cmp (a b : Half) (s : State) :
    (programPeriod a b s).cmp = s.cmp := rfl
@[simp] theorem programPeriod_run (a b : Half) (s : State) :
    (programPeriod a b s).run = s.run := rfl
@[simp] theorem programPeriod_pending (a b : Half) (s : State) :
    (programPeriod a b s).pending = s.pending := rfl
@[simp] theorem programPeriod_irqEn (a b : Half) (s : State) :
    (programPeriod a b s).irqEn = s.irqEn := rfl
@[simp] theorem programPeriod_tcfg (a b : Half) (s : State) :
    (programPeriod a b s).tcfg = ⟨a, b⟩ := rfl
@[simp] theorem programPeriod_rowout (a b : Half) (s : State) :
    (programPeriod a b s).rowout = s.rowout := rfl
@[simp] theorem programPeriod_colout (a b : Half) (s : State) :
    (programPeriod a b s).colout = s.colout := rfl
@[simp] theorem programPeriod_inited (a b : Half) (s : State) :
    (programPeriod a b s).inited = s.inited := rfl
@[simp] theorem programPeriod_cfg (a b : Half) (s : State) :
    (programPeriod a b s).cfg = s.cfg := rfl
@[simp] theorem programPeriod_prog (a b : Half) (s : State) :
    (programPeriod a b s).prog = s.prog := rfl
@[simp] theorem programPeriod_sched (a b : Half) (s : State) :
    (programPeriod a b s).sched = s.sched := rfl
@[simp] theorem programPeriod_waited (a b : Half) (s : State) :
    (programPeriod a b s).waited = s.waited := rfl
@[simp] theorem programPeriod_result (a b : Half) (s : State) :
    (programPeriod a b s).result = s.result := rfl

/-! ### `clearEvent_state` -/

@[simp] theorem clearEvent_state_frame (s : State) : (clearEvent s).2.frame = s.frame := rfl
@[simp] theorem clearEvent_state_row (s : State) : (clearEvent s).2.row = s.row := rfl
@[simp] theorem clearEvent_state_phase (s : State) : (clearEvent s).2.phase = s.phase := rfl
@[simp] theorem clearEvent_state_k (s : State) : (clearEvent s).2.k = s.k := rfl
@[simp] theorem clearEvent_state_elapsed (s : State) : (clearEvent s).2.elapsed = s.elapsed := rfl
@[simp] theorem clearEvent_state_cols (s : State) : (clearEvent s).2.cols = s.cols := rfl
@[simp] theorem clearEvent_state_rowbuf (s : State) : (clearEvent s).2.rowbuf = s.rowbuf := rfl
@[simp] theorem clearEvent_state_cnt (s : State) : (clearEvent s).2.cnt = s.cnt := rfl
@[simp] theorem clearEvent_state_cmp (s : State) : (clearEvent s).2.cmp = s.cmp := rfl
@[simp] theorem clearEvent_state_run (s : State) : (clearEvent s).2.run = s.run := rfl
@[simp] theorem clearEvent_state_pending (s : State) : (clearEvent s).2.pending = false := rfl
@[simp] theorem clearEvent_state_irqEn (s : State) : (clearEvent s).2.irqEn = s.irqEn := rfl
@[simp] theorem clearEvent_state_tcfg (s : State) : (clearEvent s).2.tcfg = s.tcfg := rfl
@[simp] theorem clearEvent_state_rowout (s : State) : (clearEvent s).2.rowout = s.rowout := rfl
@[simp] theorem clearEvent_state_colout (s : State) : (clearEvent s).2.colout = s.colout := rfl
@[simp] theorem clearEvent_state_inited (s : State) : (clearEvent s).2.inited = s.inited := rfl
@[simp] theorem clearEvent_state_cfg (s : State) : (clearEvent s).2.cfg = s.cfg := rfl
@[simp] theorem clearEvent_state_prog (s : State) : (clearEvent s).2.prog = s.prog := rfl
@[simp] theorem clearEvent_state_sched (s : State) : (clearEvent s).2.sched = s.sched := rfl
@[simp] theorem clearEvent_state_waited (s : State) : (clearEvent s).2.waited = s.waited := rfl
@[simp] theorem clearEvent_state_result (s : State) : (clearEvent s).2.result = s.result := rfl

/-! ### `setRows` -/

@[simp] theorem setRows_frame (p : RowPat) (s : State) : (setRows p s).frame = s.frame := rfl
@[simp] theorem setRows_row (p : RowPat) (s : State) : (setRows p s).row = s.row := rfl
@[simp] theorem setRows_phase (p : RowPat) (s : State) : (setRows p s).phase = s.phase := rfl
@[simp] theorem setRows_k (p : RowPat) (s : State) : (setRows p s).k = s.k := rfl
@[simp] theorem setRows_elapsed (p : RowPat) (s : State) : (setRows p s).elapsed = s.elapsed := rfl
@[simp] theorem setRows_cols (p : RowPat) (s : State) : (setRows p s).cols = s.cols := rfl
@[simp] theorem setRows_rowbuf (p : RowPat) (s : State) : (setRows p s).rowbuf = s.rowbuf := rfl
@[simp] theorem setRows_cnt (p : RowPat) (s : State) : (setRows p s).cnt = s.cnt := rfl
@[simp] theorem setRows_cmp (p : RowPat) (s : State) : (setRows p s).cmp = s.cmp := rfl
@[simp] theorem setRows_run (p : RowPat) (s : State) : (setRows p s).run = s.run := rfl
@[simp] theorem setRows_pending (p : RowPat) (s : State) : (setRows p s).pending = s.pending := rfl
@[simp] theorem setRows_irqEn (p : RowPat) (s : State) : (setRows p s).irqEn = s.irqEn := rfl
@[simp] theorem setRows_tcfg (p : RowPat) (s : State) : (setRows p s).tcfg = s.tcfg := rfl
@[simp] theorem setRows_rowout (p : RowPat) (s : State) : (setRows p s).rowout = p := rfl
@[simp] theorem setRows_colout (p : RowPat) (s : State) : (setRows p s).colout = s.colout := rfl
@[simp] theorem setRows_inited (p : RowPat) (s : State) : (setRows p s).inited = s.inited := rfl
@[simp] theorem setRows_cfg (p : RowPat) (s : State) : (setRows p s).cfg = s.cfg := rfl
@[simp] theorem setRows_prog (p : RowPat) (s : State) : (setRows p s).prog = s.prog := rfl
@[simp] theorem setRows_sched (p : RowPat) (s : State) : (setRows p s).sched = s.sched := rfl
@[simp] theorem setRows_waited (p : RowPat) (s : State) : (setRows p s).waited = s.waited := rfl
@[simp] theorem setRows_result (p : RowPat) (s : State) : (setRows p s).result = s.result := rfl

/-! ### `setCols` -/

@[simp] theorem setCols_frame (p : ColPat) (s : State) : (setCols p s).frame = s.frame := rfl
@[simp] theorem setCols_row (p : ColPat) (s : State) : (setCols p s).row = s.row := rfl
@[simp] theorem setCols_phase (p : ColPat) (s : State) : (setCols p s).phase = s.phase := rfl
@[simp] theorem setCols_k (p : ColPat) (s : State) : (setCols p s).k = s.k := rfl
@[simp] theorem setCols_elapsed (p : ColPat) (s : State) : (setCols p s).elapsed = s.elapsed := rfl
@[simp] theorem setCols_cols (p : ColPat) (s : State) : (setCols p s).cols = s.cols := rfl
@[simp] theorem setCols_rowbuf (p : ColPat) (s : State) : (setCols p s).rowbuf = s.rowbuf := rfl
@[simp] theorem setCols_cnt (p : ColPat) (s : State) : (setCols p s).cnt = s.cnt := rfl
@[simp] theorem setCols_cmp (p : ColPat) (s : State) : (setCols p s).cmp = s.cmp := rfl
@[simp] theorem setCols_run (p : ColPat) (s : State) : (setCols p s).run = s.run := rfl
@[simp] theorem setCols_pending (p : ColPat) (s : State) : (setCols p s).pending = s.pending := rfl
@[simp] theorem setCols_irqEn (p : ColPat) (s : State) : (setCols p s).irqEn = s.irqEn := rfl
@[simp] theorem setCols_tcfg (p : ColPat) (s : State) : (setCols p s).tcfg = s.tcfg := rfl
@[simp] theorem setCols_rowout (p : ColPat) (s : State) : (setCols p s).rowout = s.rowout := rfl
@[simp] theorem setCols_colout (p : ColPat) (s : State) : (setCols p s).colout = p := rfl
@[simp] theorem setCols_inited (p : ColPat) (s : State) : (setCols p s).inited = s.inited := rfl
@[simp] theorem setCols_cfg (p : ColPat) (s : State) : (setCols p s).cfg = s.cfg := rfl
@[simp] theorem setCols_prog (p : ColPat) (s : State) : (setCols p s).prog = s.prog := rfl
@[simp] theorem setCols_sched (p : ColPat) (s : State) : (setCols p s).sched = s.sched := rfl
@[simp] theorem setCols_waited (p : ColPat) (s : State) : (setCols p s).waited = s.waited := rfl
@[simp] theorem setCols_result (p : ColPat) (s : State) : (setCols p s).result = s.result := rfl

/-! ### `writeCols` -/

@[simp] theorem writeCols_frame (p : ColPat) (s : State) : (writeCols p s).frame = s.frame := rfl
@[simp] theorem writeCols_row (p : ColPat) (s : State) : (writeCols p s).row = s.row := rfl
@[simp] theorem writeCols_phase (p : ColPat) (s : State) : (writeCols p s).phase = s.phase := rfl
@[simp] theorem writeCols_k (p : ColPat) (s : State) : (writeCols p s).k = s.k := rfl
@[simp] theorem writeCols_elapsed (p : ColPat) (s : State) :
    (writeCols p s).elapsed = s.elapsed := rfl
@[simp] theorem writeCols_cols (p : ColPat) (s : State) : (writeCols p s).cols = p := rfl
@[simp] theorem writeCols_rowbuf (p : ColPat) (s : State) : (writeCols p s).rowbuf = s.rowbuf := rfl
@[simp] theorem writeCols_cnt (p : ColPat) (s : State) : (writeCols p s).cnt = s.cnt := rfl
@[simp] theorem writeCols_cmp (p : ColPat) (s : State) : (writeCols p s).cmp = s.cmp := rfl
@[simp] theorem writeCols_run (p : ColPat) (s : State) : (writeCols p s).run = s.run := rfl
@[simp] theorem writeCols_pending (p : ColPat) (s : State) :
    (writeCols p s).pending = s.pending := rfl
@[simp] theorem writeCols_irqEn (p : ColPat) (s : State) : (writeCols p s).irqEn = s.irqEn := rfl
@[simp] theorem writeCols_tcfg (p : ColPat) (s : State) : (writeCols p s).tcfg = s.tcfg := rfl
@[simp] theorem writeCols_rowout (p : ColPat) (s : State) : (writeCols p s).rowout = s.rowout := rfl
@[simp] theorem writeCols_colout (p : ColPat) (s : State) : (writeCols p s).colout = p := rfl
@[simp] theorem writeCols_inited (p : ColPat) (s : State) : (writeCols p s).inited = s.inited := rfl
@[simp] theorem writeCols_cfg (p : ColPat) (s : State) : (writeCols p s).cfg = s.cfg := rfl
@[simp] theorem writeCols_prog (p : ColPat) (s : State) : (writeCols p s).prog = s.prog := rfl
@[simp] theorem writeCols_sched (p : ColPat) (s : State) : (writeCols p s).sched = s.sched := rfl
@[simp] theorem writeCols_waited (p : ColPat) (s : State) : (writeCols p s).waited = s.waited := rfl
@[simp] theorem writeCols_result (p : ColPat) (s : State) : (writeCols p s).result = s.result := rfl

/-! ### `advanceRow` -/

@[simp] theorem advanceRow_frame (s : State) : (advanceRow s).frame = s.frame := rfl
@[simp] theorem advanceRow_row (s : State) :
    (advanceRow s).row = BitVec.ofNat 2 ((s.row.toNat + 1) % NROWS) := rfl
@[simp] theorem advanceRow_phase (s : State) : (advanceRow s).phase = s.phase := rfl
@[simp] theorem advanceRow_k (s : State) : (advanceRow s).k = s.k := rfl
@[simp] theorem advanceRow_elapsed (s : State) : (advanceRow s).elapsed = s.elapsed := rfl
@[simp] theorem advanceRow_cols (s : State) : (advanceRow s).cols = s.cols := rfl
@[simp] theorem advanceRow_rowbuf (s : State) : (advanceRow s).rowbuf = s.rowbuf := rfl
@[simp] theorem advanceRow_cnt (s : State) : (advanceRow s).cnt = s.cnt := rfl
@[simp] theorem advanceRow_cmp (s : State) : (advanceRow s).cmp = s.cmp := rfl
@[simp] theorem advanceRow_run (s : State) : (advanceRow s).run = s.run := rfl
@[simp] theorem advanceRow_pending (s : State) : (advanceRow s).pending = s.pending := rfl
@[simp] theorem advanceRow_irqEn (s : State) : (advanceRow s).irqEn = s.irqEn := rfl
@[simp] theorem advanceRow_tcfg (s : State) : (advanceRow s).tcfg = s.tcfg := rfl
@[simp] theorem advanceRow_rowout (s : State) : (advanceRow s).rowout = s.rowout := rfl
@[simp] theorem advanceRow_colout (s : State) : (advanceRow s).colout = s.colout := rfl
@[simp] theorem advanceRow_inited (s : State) : (advanceRow s).inited = s.inited := rfl
@[simp] theorem advanceRow_cfg (s : State) : (advanceRow s).cfg = s.cfg := rfl
@[simp] theorem advanceRow_prog (s : State) : (advanceRow s).prog = s.prog := rfl
@[simp] theorem advanceRow_sched (s : State) : (advanceRow s).sched = s.sched := rfl
@[simp] theorem advanceRow_waited (s : State) : (advanceRow s).waited = s.waited := rfl
@[simp] theorem advanceRow_result (s : State) : (advanceRow s).result = s.result := rfl

/-! ### `writeIrqEn` -/

@[simp] theorem writeIrqEn_frame (b : Bool) (s : State) : (writeIrqEn b s).frame = s.frame := rfl
@[simp] theorem writeIrqEn_row (b : Bool) (s : State) : (writeIrqEn b s).row = s.row := rfl
@[simp] theorem writeIrqEn_phase (b : Bool) (s : State) : (writeIrqEn b s).phase = s.phase := rfl
@[simp] theorem writeIrqEn_k (b : Bool) (s : State) : (writeIrqEn b s).k = s.k := rfl
@[simp] theorem writeIrqEn_elapsed (b : Bool) (s : State) :
    (writeIrqEn b s).elapsed = s.elapsed := rfl
@[simp] theorem writeIrqEn_cols (b : Bool) (s : State) : (writeIrqEn b s).cols = s.cols := rfl
@[simp] theorem writeIrqEn_rowbuf (b : Bool) (s : State) : (writeIrqEn b s).rowbuf = s.rowbuf := rfl
@[simp] theorem writeIrqEn_cnt (b : Bool) (s : State) : (writeIrqEn b s).cnt = s.cnt := rfl
@[simp] theorem writeIrqEn_cmp (b : Bool) (s : State) : (writeIrqEn b s).cmp = s.cmp := rfl
@[simp] theorem writeIrqEn_run (b : Bool) (s : State) : (writeIrqEn b s).run = s.run := rfl
@[simp] theorem writeIrqEn_pending (b : Bool) (s : State) :
    (writeIrqEn b s).pending = s.pending := rfl
@[simp] theorem writeIrqEn_irqEn (b : Bool) (s : State) : (writeIrqEn b s).irqEn = b := rfl
@[simp] theorem writeIrqEn_tcfg (b : Bool) (s : State) : (writeIrqEn b s).tcfg = s.tcfg := rfl
@[simp] theorem writeIrqEn_rowout (b : Bool) (s : State) : (writeIrqEn b s).rowout = s.rowout := rfl
@[simp] theorem writeIrqEn_colout (b : Bool) (s : State) : (writeIrqEn b s).colout = s.colout := rfl
@[simp] theorem writeIrqEn_inited (b : Bool) (s : State) : (writeIrqEn b s).inited = s.inited := rfl
@[simp] theorem writeIrqEn_cfg (b : Bool) (s : State) : (writeIrqEn b s).cfg = s.cfg := rfl
@[simp] theorem writeIrqEn_prog (b : Bool) (s : State) : (writeIrqEn b s).prog = s.prog := rfl
@[simp] theorem writeIrqEn_sched (b : Bool) (s : State) : (writeIrqEn b s).sched = s.sched := rfl
@[simp] theorem writeIrqEn_waited (b : Bool) (s : State) : (writeIrqEn b s).waited = s.waited := rfl
@[simp] theorem writeIrqEn_result (b : Bool) (s : State) : (writeIrqEn b s).result = s.result := rfl

/-! ### `queue` -/

@[simp] theorem queue_frame (cs : List Command) (s : State) : (queue cs s).frame = s.frame := rfl
@[simp] theorem queue_row (cs : List Command) (s : State) : (queue cs s).row = s.row := rfl
@[simp] theorem queue_phase (cs : List Command) (s : State) : (queue cs s).phase = s.phase := rfl
@[simp] theorem queue_k (cs : List Command) (s : State) : (queue cs s).k = s.k := rfl
@[simp] theorem queue_elapsed (cs : List Command) (s : State) :
    (queue cs s).elapsed = s.elapsed := rfl
@[simp] theorem queue_cols (cs : List Command) (s : State) : (queue cs s).cols = s.cols := rfl
@[simp] theorem queue_rowbuf (cs : List Command) (s : State) : (queue cs s).rowbuf = s.rowbuf := rfl
@[simp] theorem queue_cnt (cs : List Command) (s : State) : (queue cs s).cnt = s.cnt := rfl
@[simp] theorem queue_cmp (cs : List Command) (s : State) : (queue cs s).cmp = s.cmp := rfl
@[simp] theorem queue_run (cs : List Command) (s : State) : (queue cs s).run = s.run := rfl
@[simp] theorem queue_pending (cs : List Command) (s : State) :
    (queue cs s).pending = s.pending := rfl
@[simp] theorem queue_irqEn (cs : List Command) (s : State) : (queue cs s).irqEn = s.irqEn := rfl
@[simp] theorem queue_tcfg (cs : List Command) (s : State) : (queue cs s).tcfg = s.tcfg := rfl
@[simp] theorem queue_rowout (cs : List Command) (s : State) : (queue cs s).rowout = s.rowout := rfl
@[simp] theorem queue_colout (cs : List Command) (s : State) : (queue cs s).colout = s.colout := rfl
@[simp] theorem queue_inited (cs : List Command) (s : State) : (queue cs s).inited = s.inited := rfl
@[simp] theorem queue_cfg (cs : List Command) (s : State) : (queue cs s).cfg = s.cfg := rfl
@[simp] theorem queue_prog (cs : List Command) (s : State) :
    (queue cs s).prog = cs.map (fun c => .op (.port c)) ++ s.prog := rfl
@[simp] theorem queue_sched (cs : List Command) (s : State) : (queue cs s).sched = s.sched := rfl
@[simp] theorem queue_waited (cs : List Command) (s : State) : (queue cs s).waited = s.waited := rfl
@[simp] theorem queue_result (cs : List Command) (s : State) : (queue cs s).result = s.result := rfl

/-! ### `tickOnce` -/

@[simp] theorem tickOnce_frame (s : State) : (tickOnce s).frame = s.frame := rfl
@[simp] theorem tickOnce_row (s : State) : (tickOnce s).row = s.row := rfl
@[simp] theorem tickOnce_phase (s : State) : (tickOnce s).phase = s.phase := rfl
@[simp] theorem tickOnce_k (s : State) : (tickOnce s).k = s.k := rfl
@[simp] theorem tickOnce_elapsed (s : State) : (tickOnce s).elapsed = s.elapsed := rfl
@[simp] theorem tickOnce_cols (s : State) : (tickOnce s).cols = s.cols := rfl
@[simp] theorem tickOnce_rowbuf (s : State) : (tickOnce s).rowbuf = s.rowbuf := rfl
@[simp] theorem tickOnce_cnt (s : State) : (tickOnce s).cnt = s.cnt + 1 := rfl
@[simp] theorem tickOnce_cmp (s : State) : (tickOnce s).cmp = s.cmp := rfl
@[simp] theorem tickOnce_run (s : State) : (tickOnce s).run = s.run := rfl
@[simp] theorem tickOnce_pending (s : State) :
    (tickOnce s).pending = pendingAfter s.pending (s.cnt + 1) s.cmp := rfl
@[simp] theorem tickOnce_irqEn (s : State) : (tickOnce s).irqEn = s.irqEn := rfl
@[simp] theorem tickOnce_tcfg (s : State) : (tickOnce s).tcfg = s.tcfg := rfl
@[simp] theorem tickOnce_rowout (s : State) : (tickOnce s).rowout = s.rowout := rfl
@[simp] theorem tickOnce_colout (s : State) : (tickOnce s).colout = s.colout := rfl
@[simp] theorem tickOnce_inited (s : State) : (tickOnce s).inited = s.inited := rfl
@[simp] theorem tickOnce_cfg (s : State) : (tickOnce s).cfg = s.cfg := rfl
@[simp] theorem tickOnce_prog (s : State) : (tickOnce s).prog = s.prog := rfl
@[simp] theorem tickOnce_sched (s : State) : (tickOnce s).sched = s.sched := rfl
@[simp] theorem tickOnce_waited (s : State) : (tickOnce s).waited = waitedAfterTick s := rfl
@[simp] theorem tickOnce_result (s : State) : (tickOnce s).result = s.result := rfl

/-! ### `startRunning` -/

@[simp] theorem startRunning_frame (s : State) : (startRunning s).frame = s.frame := rfl
@[simp] theorem startRunning_row (s : State) : (startRunning s).row = s.row := rfl
@[simp] theorem startRunning_phase (s : State) : (startRunning s).phase = s.phase := rfl
@[simp] theorem startRunning_k (s : State) : (startRunning s).k = s.k := rfl
@[simp] theorem startRunning_elapsed (s : State) : (startRunning s).elapsed = s.elapsed := rfl
@[simp] theorem startRunning_cols (s : State) : (startRunning s).cols = s.cols := rfl
@[simp] theorem startRunning_rowbuf (s : State) : (startRunning s).rowbuf = s.rowbuf := rfl
@[simp] theorem startRunning_cnt (s : State) : (startRunning s).cnt = s.cnt := rfl
@[simp] theorem startRunning_cmp (s : State) : (startRunning s).cmp = s.cmp := rfl
@[simp] theorem startRunning_run (s : State) : (startRunning s).run = true := rfl
@[simp] theorem startRunning_pending (s : State) : (startRunning s).pending = s.pending := rfl
@[simp] theorem startRunning_irqEn (s : State) : (startRunning s).irqEn = true := rfl
@[simp] theorem startRunning_tcfg (s : State) : (startRunning s).tcfg = s.tcfg := rfl
@[simp] theorem startRunning_rowout (s : State) : (startRunning s).rowout = s.rowout := rfl
@[simp] theorem startRunning_colout (s : State) : (startRunning s).colout = s.colout := rfl
@[simp] theorem startRunning_inited (s : State) : (startRunning s).inited = true := rfl
@[simp] theorem startRunning_cfg (s : State) : (startRunning s).cfg = s.cfg := rfl
@[simp] theorem startRunning_prog (s : State) : (startRunning s).prog = s.prog := rfl
@[simp] theorem startRunning_sched (s : State) : (startRunning s).sched = s.sched := rfl
@[simp] theorem startRunning_waited (s : State) : (startRunning s).waited = s.waited := rfl
@[simp] theorem startRunning_result (s : State) : (startRunning s).result = s.result := rfl

/-! ### `initRegisters` -/

@[simp] theorem initRegisters_frame (s : State) :
    (initRegisters s).frame = encodeFrame allOff := rfl
@[simp] theorem initRegisters_row (s : State) : (initRegisters s).row = 0 := rfl
@[simp] theorem initRegisters_phase (s : State) : (initRegisters s).phase = 0 := rfl
@[simp] theorem initRegisters_k (s : State) : (initRegisters s).k = 0 := rfl
@[simp] theorem initRegisters_elapsed (s : State) : (initRegisters s).elapsed = 0 := rfl
@[simp] theorem initRegisters_cols (s : State) : (initRegisters s).cols = 0 := rfl
@[simp] theorem initRegisters_rowbuf (s : State) :
    (initRegisters s).rowbuf = encodeRow allOffRow := rfl
@[simp] theorem initRegisters_cnt (s : State) : (initRegisters s).cnt = 0 := rfl
@[simp] theorem initRegisters_cmp (s : State) : (initRegisters s).cmp = s.cmp := rfl
@[simp] theorem initRegisters_run (s : State) : (initRegisters s).run = s.run := rfl
@[simp] theorem initRegisters_pending (s : State) : (initRegisters s).pending = false := rfl
@[simp] theorem initRegisters_irqEn (s : State) : (initRegisters s).irqEn = s.irqEn := rfl
@[simp] theorem initRegisters_tcfg (s : State) :
    (initRegisters s).tcfg = ⟨BitVec.ofNat 16 TICK_US, BitVec.ofNat 16 ROW_TICKS⟩ := rfl
@[simp] theorem initRegisters_rowout (s : State) : (initRegisters s).rowout = 0 := rfl
@[simp] theorem initRegisters_colout (s : State) : (initRegisters s).colout = 0 := rfl
@[simp] theorem initRegisters_inited (s : State) : (initRegisters s).inited = s.inited := rfl
@[simp] theorem initRegisters_cfg (s : State) : (initRegisters s).cfg = s.cfg := rfl
@[simp] theorem initRegisters_prog (s : State) : (initRegisters s).prog = s.prog := rfl
@[simp] theorem initRegisters_sched (s : State) : (initRegisters s).sched = s.sched := rfl
@[simp] theorem initRegisters_waited (s : State) : (initRegisters s).waited = 0 := rfl
@[simp] theorem initRegisters_result (s : State) : (initRegisters s).result = s.result := rfl

/-! ### Program and schedule are no part of the block -/

@[simp] theorem deliverable_prog (s : State) (p : List ScriptLine) :
    deliverable { s with prog := p } = deliverable s := rfl
@[simp] theorem deliverable_sched (s : State) (l : List Move) :
    deliverable { s with sched := l } = deliverable s := rfl
@[simp] theorem tickEnabled_prog (s : State) (p : List ScriptLine) :
    tickEnabled { s with prog := p } = tickEnabled s := rfl
@[simp] theorem tickEnabled_sched (s : State) (l : List Move) :
    tickEnabled { s with sched := l } = tickEnabled s := rfl

end Sys2Proof.Laws
end

