-- ==== Sys2Proof/Laws/Ops.lean ====
section
/-!
SUPPORT. What each shared operation, each meaning and a step can do: if it answers a next state, then one of the cases listed holds; and that memory keeps its form.
-/
namespace Sys2Proof.Laws
open Sys2Proof Sys2Proof.Machine

/-! ### Sequencing -/

@[simp] theorem andThen_next (s : State) (f : State → Res) : andThen (.next s) f = f s := rfl
@[simp] theorem andThen_fault (x : Fault) (f : State → Res) : andThen (.fault x) f = .fault x := rfl
@[simp] theorem andThen_refused (x : Refusal) (f : State → Res) :
    andThen (.refused x) f = .refused x := rfl
@[simp] theorem withValue_ok {α : Type} (a : α) (f : α → Res) : withValue (.ok a) f = f a := rfl
@[simp] theorem withValue_error {α : Type} (x : Refusal) (f : α → Res) :
    withValue (.error x) f = .refused x := rfl
@[simp] theorem orRaise_ok {α : Type} (a : α) (s : State) (f : α → Res) :
    orRaise (.ok a) s f = f a := rfl
@[simp] theorem orRaise_raises {α : Type} (x : Fault) (s : State) (f : α → Res) :
    orRaise (.error (.raises x)) s f = raise x s := rfl
@[simp] theorem orRaise_refused {α : Type} (x : Refusal) (s : State) (f : α → Res) :
    orRaise (.error (.refused x)) s f = .refused x := rfl

theorem andThen_eq_next {o : Res} {f : State → Res} {t : State} :
    andThen o f = .next t ↔ ∃ s, o = .next s ∧ f s = .next t := by
  cases o <;> simp [andThen]

theorem andThen_return (o : Res) : andThen o returnFromInterrupt = o := by
  cases o <;> rfl

theorem withValue_eq_next {α : Type} {e : Except Refusal α} {f : α → Res} {t : State} :
    withValue e f = .next t ↔ ∃ a, e = .ok a ∧ f a = .next t := by
  cases e <;> simp

/-- An operation that returns a value goes on with it, or a fault was raised (00_scope.md R13). -/
theorem orRaise_eq_next {α : Type} {e : Except NoValue α} {s t : State} {f : α → Res} :
    orRaise e s f = .next t ↔
      (∃ a, e = .ok a ∧ f a = .next t) ∨
        ∃ x, e = .error (.raises x) ∧ t = { s with prog := [], result := .raised x } := by
  rcases e with (x | x) | a <;> simp [raise, eq_comm]

/-! ### What each shared operation can do -/

theorem scheduleNext_eq {n : Nat} (h : 1 ≤ n) (h' : n ≤ 65535) (s : State) :
    scheduleNext n s = .next { s with cmp := s.cnt + BitVec.ofNat 16 n } := by
  simp [scheduleNext, h, h']

theorem scheduleNext_next {n : Nat} {s t : State} (h : scheduleNext n s = .next t) :
    1 ≤ n ∧ n ≤ 65535 ∧ t = { s with cmp := s.cnt + BitVec.ofNat 16 n } := by
  unfold scheduleNext at h
  split at h
  · cases h
    exact ⟨‹_ ∧ _›.1, ‹_ ∧ _›.2, rfl⟩
  · cases h

theorem latchRow_next {s t : State} (h : latchRow s = .next t) :
    ∃ ws, memRead s.frame (ROW_WORDS * s.row.toNat) ROW_WORDS = .ok ws ∧
      t = { s with rowbuf := ws } := by
  obtain ⟨ws, hw, ht⟩ := withValue_eq_next.mp h
  cases ht
  exact ⟨ws, hw, rfl⟩

theorem memRead_ok {space ws : List Word} {a n : Nat} (h : memRead space a n = .ok ws) :
    a + n ≤ space.length ∧ ws = (space.drop a).take n ∧ ws.length = n := by
  unfold memRead at h
  split at h
  · cases h
    refine ⟨‹_›, rfl, ?_⟩
    simp
    omega
  · cases h

/-- `MemWrite` keeps the size of a space, and `MemRead` of the words written gives them back. -/
theorem memWrite_ok {space v ws : List Word} {a : Nat} (h : memWrite space a v = .ok ws) :
    ws.length = space.length ∧ memRead ws a v.length = .ok v := by
  unfold memWrite at h
  split at h
  · rename_i hl
    cases h
    have ha : (space.take a).length = a := by simp; omega
    refine ⟨by simp; omega, ?_⟩
    unfold memRead
    rw [if_pos (by simp; omega), List.append_assoc, List.drop_left' ha, List.take_left' rfl]
  · cases h

theorem takeInterrupt_next {s t : State} (h : takeInterrupt s = .next t) :
    deliverable s = true ∧ t = { s with pending := false, waited := 0 } := by
  unfold takeInterrupt at h
  split at h
  · cases h
    exact ⟨‹_›, rfl⟩
  · cases h

/-- The engine's registers: what a row start, an event or a played frame word may change. Everything
else is as it was (60_exceptions.md R270). -/
structure EngineOnly (s t : State) : Prop where
  frame : t.frame = s.frame
  cnt : t.cnt = s.cnt
  run : t.run = s.run
  pending : t.pending = s.pending
  irqEn : t.irqEn = s.irqEn
  tcfg : t.tcfg = s.tcfg
  inited : t.inited = s.inited
  cfg : t.cfg = s.cfg
  prog : t.prog = s.prog
  sched : t.sched = s.sched
  waited : t.waited = s.waited
  result : t.result = s.result

theorem EngineOnly.trans {s t u : State} (h : EngineOnly s t) (h' : EngineOnly t u) :
    EngineOnly s u :=
  ⟨h'.1.trans h.1, h'.2.trans h.2, h'.3.trans h.3, h'.4.trans h.4, h'.5.trans h.5, h'.6.trans h.6,
    h'.7.trans h.7, h'.8.trans h.8, h'.9.trans h.9, h'.10.trans h.10, h'.11.trans h.11,
    h'.12.trans h.12⟩

theorem awaitNext_engineOnly {p : BitVec 2} {k : BitVec 4} {n : Nat} {s t : State}
    (h : awaitNext p k n s = .next t) : EngineOnly s t := by
  obtain ⟨-, -, rfl⟩ := scheduleNext_next h
  exact ⟨rfl, rfl, rfl, rfl, rfl, rfl, rfl, rfl, rfl, rfl, rfl, rfl⟩

theorem execRowhdr_engineOnly {p : ColPat} {n : BitVec 4} {s t : State}
    (h : execRowhdr p n s = .next t) : EngineOnly s t := by
  have hs : EngineOnly s { writeCols p (setRows (onehot s.row) s) with elapsed := 0 } :=
    ⟨rfl, rfl, rfl, rfl, rfl, rfl, rfl, rfl, rfl, rfl, rfl, rfl⟩
  unfold execRowhdr at h
  dsimp only at h
  split at h
  · obtain ⟨e, -, h⟩ := withValue_eq_next.mp h
    exact hs.trans (awaitNext_engineOnly h)
  · exact hs.trans (awaitNext_engineOnly h)

theorem execEvt_engineOnly {p : ColPat} {off : Half} {s t : State}
    (h : execEvt p off s = .next t) : EngineOnly s t := by
  have hs : EngineOnly s { writeCols (s.cols &&& ~~~p) s with elapsed := off } :=
    ⟨rfl, rfl, rfl, rfl, rfl, rfl, rfl, rfl, rfl, rfl, rfl, rfl⟩
  unfold execEvt at h
  obtain ⟨hd, -, h⟩ := withValue_eq_next.mp h
  dsimp only at h
  split at h
  · obtain ⟨e, -, h⟩ := withValue_eq_next.mp h
    exact hs.trans (awaitNext_engineOnly h)
  · exact hs.trans (awaitNext_engineOnly h)

theorem rowStart_engineOnly {s t : State} (h : rowStart s = .next t) : EngineOnly s t := by
  obtain ⟨u, hu, h⟩ := andThen_eq_next.mp h
  obtain ⟨ws, -, rfl⟩ := latchRow_next hu
  obtain ⟨hd, -, h⟩ := withValue_eq_next.mp h
  have hs : EngineOnly s { s with rowbuf := ws } :=
    ⟨rfl, rfl, rfl, rfl, rfl, rfl, rfl, rfl, rfl, rfl, rfl, rfl⟩
  exact hs.trans (execRowhdr_engineOnly h)

/-- An event transition is an `EVT` word played: the word at the cursor. -/
theorem rowEvent_next {s t : State} (h : rowEvent s = .next t) :
    ∃ w clr off, wordAtCursor s = some w ∧ decodeFrameWord s.cfg.ncols w = .ok (.evt clr off) ∧
      execEvt clr off s = .next t := by
  unfold rowEvent at h
  rw [withValue_eq_next] at h
  obtain ⟨hd, -, h⟩ := h
  split at h
  · cases hw : wordAtCursor s with
    | none =>
      rw [hw] at h
      cases h
    | some w =>
      rw [hw] at h
      dsimp only at h
      cases hi : decodeFrameWord s.cfg.ncols w with
      | error x =>
        rw [hi] at h
        cases h
      | ok i =>
        rw [hi] at h
        cases i with
        | evt clr off => exact ⟨w, clr, off, rfl, hi, h⟩
        | _ => cases h
  · cases h

theorem rowEvent_engineOnly {s t : State} (h : rowEvent s = .next t) : EngineOnly s t := by
  obtain ⟨_, _, _, -, -, h⟩ := rowEvent_next h
  exact execEvt_engineOnly h

theorem dispatchPhase_engineOnly {s t : State} (h : dispatchPhase s = .next t) :
    EngineOnly s t := by
  unfold dispatchPhase at h
  split at h
  · exact rowStart_engineOnly h
  · exact rowEvent_engineOnly h
  · have hs : EngineOnly s (advanceRow s) :=
      ⟨rfl, rfl, rfl, rfl, rfl, rfl, rfl, rfl, rfl, rfl, rfl, rfl⟩
    exact hs.trans (rowStart_engineOnly h)
  · cases h

/-- What `HANDLE_EVENT` can do (42_display_engine.md R183): it was deliverable, and one transition ran
from the state with the flag cleared. -/
theorem execHandleEvent_next {s t : State} (h : execHandleEvent s = .next t) :
    deliverable s = true ∧ dispatchPhase { s with pending := false, waited := 0 } = .next t := by
  unfold execHandleEvent at h
  rw [andThen_return] at h
  obtain ⟨u, hu, h⟩ := andThen_eq_next.mp h
  obtain ⟨hd, rfl⟩ := takeInterrupt_next hu
  exact ⟨hd, h⟩

theorem execHandleEvent_eq {s : State} (h : deliverable s = true) :
    execHandleEvent s = dispatchPhase { s with pending := false, waited := 0 } := by
  unfold execHandleEvent
  rw [andThen_return]
  simp [takeInterrupt, h, clearEvent]

theorem execTick_next {s t : State} (h : execTick s = .next t) :
    tickEnabled s = true ∧ t = tickOnce s := by
  unfold execTick at h
  split at h
  · cases h
    exact ⟨‹_›, rfl⟩
  · cases h

theorem onceInitialised_next {s t : State} {o : Res} (h : onceInitialised s o = .next t) :
    s.inited = true ∧ o = .next t := by
  unfold onceInitialised at h
  split at h
  · exact ⟨‹_›, h⟩
  · cases h

/-- What `INIT` can do (44_foreground_commands.md R236). -/
theorem execInit_next {s t : State} (h : execInit s = .next t) :
    s.inited = false ∧ s.cfg.initDelay ≠ 0 ∧
      t = startRunning { initRegisters s with cmp := s.cfg.initDelay } := by
  unfold execInit at h
  split at h
  · cases h
  · rename_i hi
    obtain ⟨u, hu, h⟩ := andThen_eq_next.mp h
    obtain ⟨h1, -, rfl⟩ := scheduleNext_next hu
    cases h
    refine ⟨by simpa using hi, ?_, ?_⟩
    · intro h0
      rw [h0] at h1
      simp at h1
    · have : (0 : Half) + BitVec.ofNat 16 s.cfg.initDelay.toNat = s.cfg.initDelay := by simp
      simp only [initRegisters_cnt, this]

theorem execSetFrame_next {f : List Word} {s t : State} (h : execSetFrame f s = .next t) :
    s.inited = true ∧ frameOk s.cfg.ncols f = true ∧ t = { s with frame := f } := by
  obtain ⟨hi, h⟩ := onceInitialised_next h
  split at h
  · cases h
    exact ⟨hi, ‹_›, rfl⟩
  · cases h

/-- What `COMPILE` can do: return a frame, or raise the compiler's fault (R237). -/
theorem execCompile_next {img : Image} {s t : State} (h : execCompile img s = .next t) :
    (∃ f, compileFrame s.cfg img = .ok f ∧ t = { s with result := .frame (encodeFrame f) }) ∨
      ∃ x, compileFrame s.cfg img = .error (.raises x) ∧
        t = { s with prog := [], result := .raised x } := by
  refine (orRaise_eq_next.mp h).imp_left fun ⟨f, hf, h⟩ => ?_
  cases h
  exact ⟨f, hf, rfl⟩

/-- What `show` can do: return the frame and go on with the `SET_FRAME`, or raise the fault. -/
theorem execShowImage_next {img : Image} {s t : State} (h : execShowImage img s = .next t) :
    (∃ f, compileFrame s.cfg img = .ok f ∧
      t = { s with
        prog := .op (.port (setFrameCommand (encodeFrame f))) :: s.prog
        result := .frame (encodeFrame f) }) ∨
      ∃ x, compileFrame s.cfg img = .error (.raises x) ∧
        t = { s with prog := [], result := .raised x } := by
  refine (orRaise_eq_next.mp h).imp_left fun ⟨f, hf, h⟩ => ?_
  cases h
  exact ⟨f, hf, rfl⟩

theorem execSetFrameCs_next {f : List Word} {s t : State} (h : execSetFrameCs f s = .next t) :
    s.inited = true ∧ t = { s with
      irqEn := false
      prog := .op (.port (setFrameCommand f)) :: .op (.port (bareCommand 6)) :: s.prog } := by
  obtain ⟨hi, h⟩ := onceInitialised_next h
  cases h
  exact ⟨hi, rfl⟩

/-! ### Whose turn it is -/

/-- An event that may wait no longer goes first (60_exceptions.md R258). -/
theorem turn_of_deliverable {s : State} (hd : deliverable s = true) (hl : s.cfg.latencyMax = 0)
    (hs : ∀ rest, s.sched ≠ .engine :: rest) : turn s = .engine s := by
  unfold turn
  split
  · simp [freeTurn, hd]
  · rename_i m rest hm
    rw [if_pos (by simp [hd, hl])]
    cases m with
    | engine => exact absurd hm (hs rest)
    | timer => rfl
    | foreground => rfl

/-- With nothing scheduled, no program and no deliverable event, an enabled timer ticks. -/
theorem step_free_tick {s : State} (hd : deliverable s = false) (ht : tickEnabled s = true)
    (hp : s.prog = []) (hs : s.sched = []) : turn s = .timer s ∧ step s = .next (tickOnce s) := by
  have h : turn s = .timer s := by simp [turn, hs, freeTurn, hd, ht, hp]
  exact ⟨h, by simp [step, h, exec, execTick, ht]⟩

/-- A scheduled tick that is enabled, with no event to go first, is taken. -/
theorem step_scheduled_tick {s : State} {l : List Move} (hd : deliverable s = false)
    (ht : tickEnabled s = true) (hs : s.sched = .timer :: l) :
    turn s = .timer { s with sched := l } ∧ step s = .next (tickOnce { s with sched := l }) := by
  have h : turn s = .timer { s with sched := l } := by simp [turn, hs, hd, scheduledTurn, ht]
  exact ⟨h, by simp [step, h, exec, execTick, ht]⟩

/-- A scheduled foreground operation, with no event to go first, is decoded and performed. -/
theorem step_scheduled_foreground {s : State} {o : ForegroundOp} {i : Instr}
    {p : List ScriptLine} {l : List Move} (hd : deliverable s = false) (hp : s.prog = .op o :: p)
    (hs : s.sched = .foreground :: l) (ho : decodeForeground o = .ok i) :
    step s = exec i { s with prog := p, sched := l } := by
  have h : turn s = .foreground o { s with prog := p, sched := l } := by
    simp [turn, hs, hd, scheduledTurn, foregroundTurn, hp]
  simp [step, h, ho]

/-- What the state a turn starts from is: the state before, with a shorter schedule or program. -/
def TurnFrom (s : State) : Turn → Prop
  | .engine t => ∃ l, t = { s with sched := l }
  | .timer t => tickEnabled s = true ∧
      ∃ p l, t = { s with prog := p, sched := l } ∧ (s.prog = [] → p = [])
  | .foreground o t => ∃ p l, s.prog = .op o :: p ∧ t = { s with prog := p, sched := l }
  | .idle t => ∃ p l, t = { s with prog := p, sched := l } ∧ (s.prog = [] → p = [])

theorem foregroundTurn_from (s : State) (l : List Move) :
    TurnFrom s (foregroundTurn s { s with sched := l }) := by
  unfold foregroundTurn
  split
  · exact ⟨s.prog, l, rfl, id⟩
  · exact ⟨_, l, ‹_›, rfl⟩
  · exact ⟨_, l, rfl, by simp_all⟩
  · unfold runTurn
    split
    · exact ⟨s.sched, rfl⟩
    · split
      · exact ⟨‹_›, _, l, rfl, by simp_all⟩
      · exact ⟨_, l, rfl, by simp_all⟩

/-- Everything `turn` can answer. -/
theorem turn_from (s : State) : TurnFrom s (turn s) := by
  unfold turn
  split
  · unfold freeTurn
    split
    · exact ⟨s.sched, rfl⟩
    · split
      · split
        · exact ⟨‹_›, s.prog, s.sched, rfl, id⟩
        · exact ⟨s.prog, s.sched, rfl, id⟩
      · exact foregroundTurn_from s s.sched
  · rename_i m rest _
    split
    · cases m
      · exact ⟨rest, rfl⟩
      · exact ⟨s.sched, rfl⟩
      · exact ⟨s.sched, rfl⟩
    · cases m with
      | engine => exact ⟨rest, rfl⟩
      | timer =>
        simp only [scheduledTurn]
        split
        · exact ⟨‹_›, s.prog, rest, rfl, id⟩
        · split
          · exact ⟨s.sched, rfl⟩
          · exact ⟨s.prog, rest, rfl, id⟩
      | foreground => exact foregroundTurn_from s rest

/-- Everything a step that completes can have done: the engine's event, a tick, a foreground
operation, or nothing but to take a move or a line off. -/
theorem step_next {s t : State} (h : step s = .next t) :
    (∃ l, turn s = .engine { s with sched := l } ∧ deliverable s = true ∧
      dispatchPhase { s with sched := l, pending := false, waited := 0 } = .next t) ∨
    (∃ p l, turn s = .timer { s with prog := p, sched := l } ∧ tickEnabled s = true ∧
      (s.prog = [] → p = []) ∧ t = tickOnce { s with prog := p, sched := l }) ∨
    (∃ o i p l, turn s = .foreground o { s with prog := p, sched := l } ∧ s.prog = .op o :: p ∧
      decodeForeground o = .ok i ∧ exec i { s with prog := p, sched := l } = .next t) ∨
    (∃ p l, turn s = .idle { s with prog := p, sched := l } ∧ (s.prog = [] → p = []) ∧
      t = { s with prog := p, sched := l }) := by
  have hf := turn_from s
  unfold step at h
  split at h <;> rename_i hu <;> rw [hu] at hf
  · obtain ⟨l, rfl⟩ := hf
    obtain ⟨hd, h⟩ := execHandleEvent_next h
    exact .inl ⟨l, hu, by simpa using hd, h⟩
  · obtain ⟨ht, p, l, rfl, hp⟩ := hf
    obtain ⟨-, h⟩ := execTick_next h
    exact .inr (.inl ⟨p, l, hu, ht, hp, h⟩)
  · obtain ⟨p, l, hp, rfl⟩ := hf
    split at h
    · exact .inr (.inr (.inl ⟨_, _, p, l, hu, hp, ‹_›, h⟩))
    · cases h
  · obtain ⟨p, l, rfl, hp⟩ := hf
    exact .inr (.inr (.inr ⟨p, l, hu, hp, by simpa using h.symm⟩))

/-- Everything a foreground operation that completes can have done. -/
theorem foreground_next {o : ForegroundOp} {i : Instr} {s t : State}
    (hd : decodeForeground o = .ok i) (h : exec i s = .next t) :
    t = s ∨ (s.inited = false ∧ execInit s = .next t) ∨
    (∃ p r, t = { s with prog := p, result := r }) ∨
    (∃ f, s.inited = true ∧ frameOk s.cfg.ncols f = true ∧ t = { s with frame := f }) ∨
    (s.inited = true ∧ t = { s with run := false }) ∨
    (∃ b p, s.inited = true ∧ t = { s with irqEn := b, prog := p }) := by
  cases o with
  | port c =>
    simp only [decodeForeground, decodeCommand] at hd
    split at hd
    · cases hd
      exact .inl (by simpa [exec, execNop] using h.symm)
    · cases hd
      exact .inr (.inl ⟨(execInit_next h).1, h⟩)
    · split at hd
      · cases hd
        obtain ⟨f, -, rfl⟩ | ⟨x, -, rfl⟩ := execCompile_next h
        · exact .inr (.inr (.inl ⟨s.prog, _, rfl⟩))
        · exact .inr (.inr (.inl ⟨_, _, rfl⟩))
      · cases hd
    · split at hd
      · cases hd
        obtain ⟨hi, hf, rfl⟩ := execSetFrame_next h
        exact .inr (.inr (.inr (.inl ⟨_, hi, hf, rfl⟩)))
      · cases hd
    · cases hd
      obtain ⟨hi, h⟩ := onceInitialised_next h
      cases h
      exact .inr (.inr (.inr (.inr (.inl ⟨hi, rfl⟩))))
    · cases hd
      obtain ⟨hi, h⟩ := onceInitialised_next h
      cases h
      exact .inr (.inr (.inr (.inr (.inr ⟨false, s.prog, hi, rfl⟩))))
    · cases hd
      obtain ⟨hi, h⟩ := onceInitialised_next h
      cases h
      exact .inr (.inr (.inr (.inr (.inr ⟨true, s.prog, hi, rfl⟩))))
    · cases hd
      cases h
  | showImage img =>
    simp only [decodeForeground] at hd
    split at hd
    · cases hd
      obtain ⟨f, -, rfl⟩ | ⟨x, -, rfl⟩ := execShowImage_next h <;>
        exact .inr (.inr (.inl ⟨_, _, rfl⟩))
    · cases hd
  | setFrameCs f =>
    simp only [decodeForeground] at hd
    split at hd
    · cases hd
      obtain ⟨hi, rfl⟩ := execSetFrameCs_next h
      exact .inr (.inr (.inr (.inr (.inr ⟨_, _, hi, rfl⟩))))
    · cases hd

/-! ### Memory keeps its form (20_memory.md R60) -/

theorem memory_wf_iff {s : State} :
    Memory.wf s = true ↔ s.frame.length = FRAME_WORDS ∧ s.rowbuf.length = ROW_WORDS := by
  simp [Memory.wf]

theorem latchRow_wf {s t : State} (hs : s.frame.length = FRAME_WORDS)
    (h : latchRow s = .next t) : Memory.wf t = true := by
  obtain ⟨ws, hw, rfl⟩ := latchRow_next h
  exact memory_wf_iff.mpr ⟨hs, (memRead_ok hw).2.2⟩

theorem length_encodeFrame {ncols : Nat} {f : Frame} (h : f.ok ncols) :
    (encodeFrame f).length = FRAME_WORDS := by
  simp [encodeFrame, length_encodeRow h.1.1, length_encodeRow h.2.1.1, length_encodeRow h.2.2.1,
    ROW_WORDS, FRAME_WORDS]

theorem execSetFrame_wf {f : List Word} {s t : State} (hs : Memory.wf s = true)
    (h : execSetFrame f s = .next t) : Memory.wf t = true := by
  obtain ⟨-, hf, rfl⟩ := execSetFrame_next h
  obtain ⟨g, hg, rfl⟩ := frameOk_iff.mp hf
  exact memory_wf_iff.mpr ⟨length_encodeFrame hg, (memory_wf_iff.mp hs).2⟩

theorem execInit_wf {s t : State} (h : execInit s = .next t) : Memory.wf t = true := by
  obtain ⟨-, -, rfl⟩ := execInit_next h
  rfl

theorem reset_wf : Memory.wf State.reset = true := rfl

end Sys2Proof.Laws
end

