-- ==== Sys2Proof/Laws/Engine.lean ====
section
/-!
SUPPORT. What the engine reads of well-formed rows and frames (42_display_engine.md R184 to R186), and
when the invariants of 10_state.md R41 carry over.
-/
namespace Sys2Proof.Laws
open Sys2Proof Sys2Proof.Machine

/-- The offsets of a well-formed row lie in 1..374 (30_encoding.md R100). -/
theorem off_range {ncols : Nat} {rs : RowSched} (h : rs.ok ncols) {j : Nat} {e : Event}
    (he : rs.evs[j]? = some e) : 1 ≤ e.off.toNat ∧ e.off.toNat < ROW_TICKS :=
  h.2.2.2.1 e (List.mem_of_getElem? he)

/-- The first fire of a well-formed row is 1 to `ROW_TICKS` ticks ahead (42_display_engine.md R184). -/
theorem firstFire_range {ncols : Nat} {rs : RowSched} (h : rs.ok ncols) :
    1 ≤ (firstFire rs.evs).toNat ∧ (firstFire rs.evs).toNat ≤ ROW_TICKS := by
  cases he : rs.evs with
  | nil => simp [firstFire, ROW_TICKS]
  | cons e es =>
    have := off_range h (j := 0) (e := e) (by simp [he])
    simp only [firstFire]
    omega

/-- The distance from an event to the next fire never borrows and is never 0 (R186). -/
theorem fire_after_event {ncols : Nat} {rs : RowSched} (h : rs.ok ncols) {k : Nat} {e : Event}
    (he : rs.evs[k]? = some e) :
    (firstFire (rs.evs.drop (k + 1)) - e.off).toNat =
        (firstFire (rs.evs.drop (k + 1))).toNat - e.off.toNat ∧
      e.off.toNat < (firstFire (rs.evs.drop (k + 1))).toNat ∧
      (firstFire (rs.evs.drop (k + 1))).toNat ≤ ROW_TICKS := by
  have hoff := off_range h he
  have hx : e.off.toNat < (firstFire (rs.evs.drop (k + 1))).toNat ∧
      (firstFire (rs.evs.drop (k + 1))).toNat ≤ ROW_TICKS := by
    by_cases hk : k + 1 < rs.evs.length
    · rw [List.drop_eq_getElem_cons hk]
      have hlt := List.pairwise_iff_getElem.mp h.2.2.2.2 k (k + 1) (by omega) hk (by omega)
      have := off_range h (List.getElem?_eq_getElem hk)
      rw [(List.getElem?_eq_some_iff.mp he).2] at hlt
      simp only [firstFire]
      omega
    · rw [List.drop_eq_nil_of_le (by omega)]
      simp only [ROW_TICKS] at hoff
      simp [firstFire, ROW_TICKS]
      omega
  exact ⟨BitVec.toNat_sub_of_le (by rw [BitVec.le_def]; omega), hx⟩

/-- A request for as many ticks as a 16-bit number says is refused only for 0 (R202). -/
theorem scheduleNext_toNat (x : Half) (s : State) :
    scheduleNext x.toNat s =
      if x = 0 then .refused (.delayOutOfRange 0) else .next { s with cmp := s.cnt + x } := by
  split
  · rename_i h
    subst h
    rfl
  · rename_i h
    have : 1 ≤ x.toNat := by
      by_contra hc
      exact h (BitVec.eq_of_toNat_eq (by simp; omega))
    rw [scheduleNext_eq this (by have := x.isLt; omega)]
    simp

/-- Row r of a well-formed frame, read from `FRAME` (20_memory.md R67). -/
theorem memRead_row {ncols : Nat} {f : Frame} {r : Nat} {rs : RowSched} (h : f.ok ncols)
    (hr : f.rowAt r = some rs) :
    memRead (encodeFrame f) (ROW_WORDS * r) ROW_WORDS = .ok (encodeRow rs) ∧ rs.ok ncols := by
  have l2 := length_encodeRow h.2.2.1
  obtain ⟨t0, t1, t2⟩ :=
    take_rows (c := encodeRow f.row2) (length_encodeRow h.1.1) (length_encodeRow h.2.1.1)
  have hl := length_encodeFrame h
  simp only [FRAME_WORDS] at hl
  unfold memRead ROW_WORDS
  rw [hl]
  match r with
  | 0 =>
    cases hr
    exact ⟨by simp only [encodeFrame]; simp [-List.append_assoc, t0], h.1⟩
  | 1 =>
    cases hr
    exact ⟨by simp only [encodeFrame]; simp [-List.append_assoc, t1], h.2.1⟩
  | 2 =>
    cases hr
    refine ⟨?_, h.2.2⟩
    simp only [encodeFrame]
    simp [-List.append_assoc, t2]
    rw [l2]
    rfl
  | n + 3 => cases hr

theorem rowAt_total (f : Frame) {r : Nat} (h : r ≤ 2) : ∃ rs, f.rowAt r = some rs := by
  match r, h with
  | 0, _ => exact ⟨_, rfl⟩
  | 1, _ => exact ⟨_, rfl⟩
  | 2, _ => exact ⟨_, rfl⟩

/-- A well-formed row has one stored form. -/
theorem encodeRow_inj {ncols : Nat} {a b : RowSched} (ha : a.ok ncols) (hb : b.ok ncols)
    (h : encodeRow a = encodeRow b) : a = b := by
  have h1 := decodeRow_encodeRow ha.1 ha.2.1 ha.2.2.1
  rw [h, decodeRow_encodeRow hb.1 hb.2.1 hb.2.2.1] at h1
  simpa using h1.symm

theorem onehot_getLsbD (r : BitVec 2) (h : r.toNat ≤ 2) (i : Nat) :
    (onehot r).getLsbD i = decide (i = r.toNat) := by
  have key : ∀ r : BitVec 2, r.toNat ≤ 2 → ∀ i, i < 3 →
      (onehot r).getLsbD i = decide (i = r.toNat) := by decide
  by_cases hi : i < 3
  · exact key r h i hi
  · rw [BitVec.getLsbD_of_ge _ _ (by omega)]
    symm
    rw [decide_eq_false_iff_not]
    omega

/-! ### The invariants -/

/-- The frame and the latched row of a state that satisfies the invariants, and the cursor in it. -/
theorem inv_rows {s : State} (h : Inv s) :
    ∃ f rs, Frame.ok s.cfg.ncols f ∧ s.frame = encodeFrame f ∧ RowSched.ok s.cfg.ncols rs ∧
      s.rowbuf = encodeRow rs ∧ (s.phase = 1 → s.k.toNat < rs.evs.length) := by
  obtain ⟨f, hf, hf'⟩ := frameOk_iff.mp h.frameWf
  obtain ⟨rs, hr, hr'⟩ := rowOk_iff.mp h.rowbufWf
  refine ⟨f, rs, hf, hf', hr, hr', fun hp => ?_⟩
  obtain ⟨i, n, hh, hk⟩ := h.cursorInRow hp
  rw [hr', headerOf_encodeRow hr] at hh
  cases hh
  rwa [toNat_count hr] at hk

/-- The invariants speak of these registers only. -/
theorem inv_congr {s t : State} (h : Inv s) (hcfg : t.cfg = s.cfg) (hrow : t.row = s.row)
    (hphase : t.phase = s.phase) (hk : t.k = s.k) (hframe : frameOk s.cfg.ncols t.frame = true)
    (hrowbuf : t.rowbuf = s.rowbuf) (hcolout : t.colout = s.colout) (hcols : t.cols = s.cols)
    (helapsed : t.elapsed = s.elapsed) (hrowout : t.rowout = s.rowout)
    (hpending : t.pending = s.pending) (hcmp : t.cmp = s.cmp) (hcnt : t.cnt = s.cnt) : Inv t := by
  obtain ⟨a1, a2, a3, a4, a5, a6, a7, a8, a9, a10, a11, a12, a13⟩ := h
  constructor <;> (try rw [hcfg]) <;>
    (try simp only [hrow, hphase, hk, hrowbuf, hcolout, hcols, helapsed, hrowout, hpending, hcmp,
      hcnt]) <;> assumption

/-! ### Runs -/

theorem steps_add (a b : Nat) (s : State) : steps (a + b) s = andThen (steps a s) (steps b) := by
  induction a generalizing s with
  | zero => simp [steps]
  | succ a ih =>
    rw [Nat.succ_add, steps, steps]
    cases step s with
    | next u => simpa using ih u
    | fault x => rfl
    | refused x => rfl

theorem tickCount_add {a b : Nat} {s t : State} (h : steps a s = .next t) :
    tickCount (a + b) s = tickCount a s + tickCount b t := by
  induction a generalizing s with
  | zero =>
    cases h
    simp [tickCount]
  | succ a ih =>
    obtain ⟨u, hu, h⟩ := andThen_eq_next.mp h
    rw [Nat.succ_add, tickCount, tickCount, hu]
    simp only [ih h]
    omega

theorem litTicks_add {r c a b : Nat} {s t : State} (h : steps a s = .next t) :
    litTicks r c (a + b) s = litTicks r c a s + litTicks r c b t := by
  induction a generalizing s with
  | zero =>
    cases h
    simp [litTicks]
  | succ a ih =>
    obtain ⟨u, hu, h⟩ := andThen_eq_next.mp h
    rw [Nat.succ_add, litTicks, litTicks, hu]
    simp only [ih h]
    omega

theorem cnt_add_one (c : Half) (m : Nat) :
    c + BitVec.ofNat 16 m + 1 = c + BitVec.ofNat 16 (m + 1) := by
  apply BitVec.eq_of_toNat_eq
  simp
  omega

/-- The counter does not meet a compare that lies further ahead (43_timer_gpio_adapter.md R204). -/
theorem cnt_ne {c : Half} {m n : Nat} (h : m < n) (hn : n ≤ 65535) :
    c + BitVec.ofNat 16 m ≠ c + BitVec.ofNat 16 n := by
  intro hh
  have := congrArg (fun x => (x - c).toNat) hh
  simp at this
  omega

end Sys2Proof.Laws
end

