-- ==== Sys2Proof/Laws/PerInstr.lean ====
section
/-!
SUPPORT. A statement for every instruction as syntax: its encoding carries the fixed bits that
spec/opcode_table.json gives its row.
-/
namespace Sys2Proof.Laws

open Sys2Proof

namespace TableMatch

/-- The bits the opcode table fixes for a row: a mask and the value under it, on the port the row's
form arrives on; `none` for a row without an encoding (30_encoding.md R90, R97 to R99, R104, R105). -/
inductive Fixed where
  | none
  | word (mask value : Word)
  | command (cmd : BitVec 3)
  | phase (p : BitVec 2)

/-- The table's row for each instruction. -/
def rowOf : Instr → Fixed
  | .rowhdr _ _ => .word 0xC000FFF0 0x40000000
  | .evt _ _ => .word 0xC0000000 0x80000000
  | .pad => .word 0xFFFFFFFF 0x00000000
  | .nop => .command 0
  | .init => .command 1
  | .compile _ => .command 2
  | .setFrame _ => .command 3
  | .stop => .command 4
  | .irqDisable => .command 5
  | .irqEnable => .command 6
  | .cmdReserved7 => .command 7
  | .handleEvent => .none
  | .handleRowStart => .phase 0
  | .handleRowEvent => .phase 1
  | .handleRowEnd => .phase 2
  | .phaseReserved3 => .phase 3
  | .tick => .none
  | .programPeriod _ _ => .none
  | .scheduleNext _ => .none
  | .clearEvent => .none
  | .setRows _ => .none
  | .setCols _ => .none
  | .clamp _ => .none
  | .thresholdOf _ => .none
  | .greyBrightnessAt _ _ _ => .none
  | .bitBrightnessAt _ _ _ => .none
  | .compileRow _ _ => .none
  | .showImage _ => .none
  | .setFrameCs _ => .none

/-- The form carries the row's fixed bits. -/
def Fixed.holdsOf : Fixed → Option Wire → Prop
  | .none, x => x = Option.none
  | .word mask value, x => ∃ w, x = some (.frameWord w) ∧ w &&& mask = value
  | .command cmd, x => ∃ c, x = some (.command c) ∧ c.cmd = cmd
  | .phase p, x => x = some (.phase p)

/-- An instruction's encoding carries the fixed bits of its row of the opcode table. -/
def Statement (i : Instr) : Prop := (rowOf i).holdsOf (encode i)

theorem header_mask (pat : ColPat) (n : BitVec 4) :
    encodeHeader pat n &&& 0xC000FFF0 = 0x40000000 := by
  apply BitVec.eq_of_getLsbD_eq
  intro i hi
  rw [BitVec.getLsbD_and, encodeHeader, frameWord_getLsbD]
  interval_cases i <;> simp

theorem event_mask (clr : ColPat) (off : Half) :
    encodeEvent clr off &&& 0xC0000000 = 0x80000000 := by
  apply BitVec.eq_of_getLsbD_eq
  intro i hi
  rw [BitVec.getLsbD_and, encodeEvent, frameWord_getLsbD]
  interval_cases i <;> simp

theorem rowhdr (pat : ColPat) (n : BitVec 4) : Statement (.rowhdr pat n) :=
  ⟨_, rfl, header_mask pat n⟩
theorem evt (clr : ColPat) (off : Half) : Statement (.evt clr off) := ⟨_, rfl, event_mask clr off⟩
theorem pad : Statement .pad := ⟨_, rfl, rfl⟩
theorem nop : Statement .nop := ⟨_, rfl, rfl⟩
theorem init : Statement .init := ⟨_, rfl, rfl⟩
theorem compile (img : Image) : Statement (.compile img) := by
  cases img <;> exact ⟨_, rfl, rfl⟩
theorem setFrame (f : List Word) : Statement (.setFrame f) := ⟨_, rfl, rfl⟩
theorem stop : Statement .stop := ⟨_, rfl, rfl⟩
theorem irqDisable : Statement .irqDisable := ⟨_, rfl, rfl⟩
theorem irqEnable : Statement .irqEnable := ⟨_, rfl, rfl⟩
theorem cmdReserved7 : Statement .cmdReserved7 := ⟨_, rfl, rfl⟩
theorem handleEvent : Statement .handleEvent := rfl
theorem handleRowStart : Statement .handleRowStart := rfl
theorem handleRowEvent : Statement .handleRowEvent := rfl
theorem handleRowEnd : Statement .handleRowEnd := rfl
theorem phaseReserved3 : Statement .phaseReserved3 := rfl
theorem tick : Statement .tick := rfl
theorem programPeriod (tickUs rowTicks : Half) : Statement (.programPeriod tickUs rowTicks) := rfl
theorem scheduleNext (n : Nat) : Statement (.scheduleNext n) := rfl
theorem clearEvent : Statement .clearEvent := rfl
theorem setRows (p : RowPat) : Statement (.setRows p) := rfl
theorem setCols (p : ColPat) : Statement (.setCols p) := rfl
theorem clamp (v : Byte) : Statement (.clamp v) := rfl
theorem thresholdOf (l : Level) : Statement (.thresholdOf l) := rfl
theorem greyBrightnessAt (buf : List Byte) (x y : Nat) : Statement (.greyBrightnessAt buf x y) := rfl
theorem bitBrightnessAt (buf : List Byte) (x y : Nat) : Statement (.bitBrightnessAt buf x y) := rfl
theorem compileRow (img : Image) (r : Nat) : Statement (.compileRow img r) := rfl
theorem showImage (img : Image) : Statement (.showImage img) := rfl
theorem setFrameCs (f : List Word) : Statement (.setFrameCs f) := rfl

end TableMatch

end Sys2Proof.Laws
end

