-- ==== Sys2Proof/Tests/Slice0.lean ====
section
/-!
SUPPORT. Tests. Expected results come from spec/95_test_vectors.md (V, P numbers) or from the rule
named; a witness theorem shows states and operands that meet the hypotheses of the statement of
that name.
-/
namespace Sys2Proof.Tests
open Sys2Proof Sys2Proof.Machine

/-! ### Small states -/

/-- What a field holds in the next state, if there is one. -/
def after {α : Type} (o : Res) (f : State → α) : Option α :=
  match o with
  | .next s => some (f s)
  | _ => none

/-- Why an outcome is no next state. -/
def refusal (o : Res) : Option Refusal :=
  match o with
  | .refused r => some r
  | _ => none

/-- The fault an operation raised. -/
def faultOf (o : Res) : Option Fault :=
  match o with
  | .next s =>
    match s.result with
    | .raised x => some x
    | _ => none
  | _ => none

/-- The cursor and outputs as section 2.5 of the vectors writes them:
`(ROW, PHASE, K, ELAPSED, COLS)`, `ROWOUT`, `COLOUT`. -/
def cursor (s : State) : List Nat :=
  [s.row.toNat, s.phase.toNat, s.k.toNat, s.elapsed.toNat, s.cols.toNat, s.rowout.toNat,
    s.colout.toNat]

/-- The reset state of the block (10_state.md R44). -/
def started : State := { State.reset with inited := true }

/-- A deliverable event. -/
def fired : State := { started with pending := true }

/-- The rows of vectors V21 to V25, and of V50. -/
def v22 : RowSched := ⟨0b11111, []⟩
def v23 : RowSched := ⟨0b01110, [⟨8, 0b00010⟩, ⟨29, 0b01000⟩]⟩
def v24 : RowSched := ⟨0b11111, [⟨2, 0b11111⟩]⟩
def v50 : RowSched := ⟨0b00001, [⟨8, 0b00010⟩]⟩

/-- Nine events, at the smallest and the largest legal offsets. -/
def fullRow : RowSched :=
  ⟨0b11111, [⟨1, 1⟩, ⟨2, 1⟩, ⟨3, 1⟩, ⟨4, 1⟩, ⟨5, 1⟩, ⟨6, 1⟩, ⟨7, 1⟩, ⟨8, 1⟩, ⟨374, 1⟩]⟩

/-- `ACTIVE` with V23, V24, V22 in rows 0, 1, 2. -/
def frame3 : Frame := ⟨v23, v24, v22⟩

/-- V60's after: row 0 of `frame3` started, event 0 awaited, its fire due. -/
def awaiting : State :=
  { fired with
    frame := encodeFrame frame3, rowbuf := encodeRow v23, phase := 1, cols := 0b01110,
    colout := 0b01110, rowout := 0b001, cmp := 0 }

/-- The greyscale buffer of V10. -/
def v10 : List Byte :=
  [0, 3, 9, 5, 0, 1, 1, 1, 1, 1, 9, 7, 5, 3, 1, 9, 9, 9, 9, 9, 0, 0, 0, 0, 0]

/-- A greyscale buffer with V29's raw values in row 0. -/
def v29 : List Byte := [0, 10, 15, 255, 9] ++ List.replicate 20 0

/-- `REF5` with the policy `REJECT`. -/
def rejecting : State := { started with cfg := { ref5 with levelPolicy := .reject } }

/-! ### Well-formedness: an ill-formed term for each check -/

theorem wf_rowhdr : Instr.wf 5 (.rowhdr 0b11111 9) = true := by decide
theorem wf_rowhdr_pattern : Instr.wf 5 (.rowhdr 0b100000 0) = false := by decide
theorem wf_rowhdr_count : Instr.wf 5 (.rowhdr 0 10) = false := by decide
theorem wf_evt_pattern : Instr.wf 5 (.evt 0b100000 8) = false := by decide
theorem wf_compile_grey : Instr.wf 5 (.compile (.grey (v10.take 24))) = false := by decide
theorem wf_compile_bits : Instr.wf 5 (.compile (.bits [1, 2, 3, 4])) = false := by decide
theorem wf_setFrame_size : Instr.wf 5 (.setFrame (allOffWords.take 29)) = false := by decide
theorem wf_scheduleNext_zero : Instr.wf 5 (.scheduleNext 0) = false := by decide
theorem wf_scheduleNext_big : Instr.wf 5 (.scheduleNext 65536) = false := by decide
theorem wf_setCols_pattern : Instr.wf 5 (.setCols 0b100000) = false := by decide
theorem wf_threshold_index : Instr.wf 5 (.thresholdOf 10) = false := by decide
theorem wf_grey_size : Instr.wf 5 (.greyBrightnessAt [] 0 0) = false := by decide
theorem wf_grey_x : Instr.wf 5 (.greyBrightnessAt v10 5 0) = false := by decide
theorem wf_grey_y : Instr.wf 5 (.greyBrightnessAt v10 0 5) = false := by decide
theorem wf_bits_size : Instr.wf 5 (.bitBrightnessAt [] 0 0) = false := by decide
theorem wf_bits_x : Instr.wf 5 (.bitBrightnessAt [0, 0, 0, 0, 0] 5 0) = false := by decide
theorem wf_bits_y : Instr.wf 5 (.bitBrightnessAt [0, 0, 0, 0, 0] 0 5) = false := by decide
theorem wf_compileRow_row : Instr.wf 5 (.compileRow (.grey v10) 3) = false := by decide
theorem wf_compileRow_image : Instr.wf 5 (.compileRow (.bits []) 0) = false := by decide
theorem wf_show_image : Instr.wf 5 (.showImage (.grey [])) = false := by decide
theorem wf_setFrameCs_size : Instr.wf 5 (.setFrameCs []) = false := by decide

/-! ### The configuration check (00_scope.md R9) -/

theorem config_ref5 : ref5.ok := by decide
theorem config_mb9 : mb9.ok := by decide
/-- V4. -/
theorem config_equal_thresholds :
    ¬ { ref5 with trom := [0, 2, 4, 8, 8, 29, 55, 104, 197, 375] }.ok := by decide
/-- V5. -/
theorem config_zero_threshold :
    ¬ { ref5 with trom := [0, 0, 4, 8, 15, 29, 55, 104, 197, 375] }.ok := by decide
theorem config_last_threshold :
    ¬ { ref5 with trom := [0, 2, 4, 8, 15, 29, 55, 104, 197, 374] }.ok := by decide
theorem config_no_columns : ¬ { ref5 with ncols := 0, layout := [[], [], []] }.ok := by decide
theorem config_delay : ¬ { ref5 with initDelay := 0 }.ok := by decide
theorem config_layout_twice :
    ¬ { ref5 with ncols := 1, layout := [[some (0, 0)], [some (0, 0)], [none]] }.ok := by decide
theorem config_layout_outside :
    ¬ { ref5 with ncols := 1, layout := [[some (5, 0)], [none], [none]] }.ok := by decide

/-! ### Words written out from the encodings of 30_encoding.md -/

/-- R97's example. -/
theorem decode_rowhdr : decode 5 (.frameWord 0x400E0002) = .ok (.rowhdr 0b01110 2) := by decide
theorem decode_rowhdr_bits :
    decode 5 (.frameWord 0b01_00000000010101_0000000000001001) = .ok (.rowhdr 0b10101 9) := by
  decide
/-- R98's example. -/
theorem decode_evt : decode 5 (.frameWord 0x80020008) = .ok (.evt 0b00010 8) := by decide
theorem decode_evt_bits :
    decode 5 (.frameWord 0b10_00000000010000_0000000101110110) = .ok (.evt 0b10000 374) := by decide
theorem decode_pad : decode 5 (.frameWord 0x00000000) = .ok .pad := by decide
/-- V46: a pattern bit at `NCOLS`. -/
theorem decode_v46 :
    decode 5 (.frameWord 0x40200000) = .error (.patternBeyondColumns 0x40200000) := by decide
/-- V47. -/
theorem decode_v47 : decode 5 (.frameWord 0xC0000000) = .error (.reservedTag 0xC0000000) := by decide
theorem decode_n10 : decode 5 (.frameWord 0x401F000A) = .error (.eventCount 0x401F000A) := by decide
theorem decode_arg : decode 5 (.frameWord 0x40000010) = .error (.headerArgNotZero 0x40000010) := by
  decide
theorem decode_pad_bit : decode 5 (.frameWord 1) = .error (.padNotZero 1) := by decide
/-- 20_memory.md R69. -/
theorem decode_bytes :
    decodeFrameBytes 5 [0x02, 0x00, 0x0E, 0x40] = .ok (.rowhdr 0b01110 2) := by decide
theorem decode_nop : decode 5 (.command ⟨0b000, 0, [], []⟩) = .ok .nop := by decide
theorem decode_init : decode 5 (.command ⟨0b001, 0, [], []⟩) = .ok .init := by decide
theorem decode_compile_bits :
    decode 5 (.command ⟨0b010, 1, [0x1F, 0x1F, 0x1F, 0x1F, 0x1F], []⟩) =
      .ok (.compile (.bits [0x1F, 0x1F, 0x1F, 0x1F, 0x1F])) := by decide
theorem decode_compile_grey :
    decode 5 (.command ⟨0b010, 0, v10, []⟩) = .ok (.compile (.grey v10)) := by decide
theorem decode_compile_size :
    decode 5 (.command ⟨0b010, 0, [1, 2, 3, 4, 5], []⟩) = .error (.imageSize 5) := by decide
theorem decode_setFrame :
    decode 5 (.command ⟨0b011, 0, [], allOffWords⟩) = .ok (.setFrame allOffWords) := by decide
theorem decode_stop : decode 5 (.command ⟨0b100, 0, [], []⟩) = .ok .stop := by decide
theorem decode_irqDisable : decode 5 (.command ⟨0b101, 0, [], []⟩) = .ok .irqDisable := by decide
theorem decode_irqEnable : decode 5 (.command ⟨0b110, 0, [], []⟩) = .ok .irqEnable := by decide
theorem decode_reserved7 : decode 5 (.command ⟨0b111, 0, [], []⟩) = .ok .cmdReserved7 := by decide
theorem decode_phases :
    decode 5 (.phase 0b00) = .ok .handleRowStart ∧ decode 5 (.phase 0b01) = .ok .handleRowEvent ∧
    decode 5 (.phase 0b10) = .ok .handleRowEnd ∧ decode 5 (.phase 0b11) = .ok .phaseReserved3 := by
  decide
theorem decode_show :
    decodeForeground (.showImage (.grey v10)) = .ok (.showImage (.grey v10)) := by decide
theorem decode_set_frame_cs :
    decodeForeground (.setFrameCs allOffWords) = .ok (.setFrameCs allOffWords) := by decide

/-- V23's stored words (R95, R97, R98). -/
theorem encode_v23 :
    encodeRow v23 = [0x400E0002, 0x80020008, 0x8008001D, 0, 0, 0, 0, 0, 0, 0] := by decide
/-- V40, V42: the smallest and largest legal offsets; V41, V43: one beyond. -/
theorem row_offsets :
    rowOk 5 [0x401F0001, 0x801F0001, 0, 0, 0, 0, 0, 0, 0, 0] = true ∧
    rowOk 5 [0x401F0001, 0x801F0000, 0, 0, 0, 0, 0, 0, 0, 0] = false ∧
    rowOk 5 [0x401F0001, 0x801F0176, 0, 0, 0, 0, 0, 0, 0, 0] = true ∧
    rowOk 5 [0x401F0001, 0x801F0177, 0, 0, 0, 0, 0, 0, 0, 0] = false := by decide
/-- V44, V48, V49, V50. -/
theorem row_forms :
    rowOk 5 [0x401F0002, 0x80010008, 0x80020008, 0, 0, 0, 0, 0, 0, 0] = false ∧
    rowOk 5 [0x401F0002, 0x80010008, 0x80020009, 0, 0, 0, 0, 0, 0, 0] = true ∧
    rowOk 5 [0x401F0001, 0, 0, 0, 0, 0, 0, 0, 0, 0] = false ∧
    rowOk 5 [0x401F0000, 0x801F0008, 0, 0, 0, 0, 0, 0, 0, 0] = false ∧
    rowOk 5 [0x40010001, 0x80020008, 0, 0, 0, 0, 0, 0, 0, 0] = true := by decide

/-! ### The host's reading of the opcode table, from reset -/

theorem table_rowhdr :
    decodeTableWord 32 0x40000000 = some (.rowhdr 0 0) ∧
    after (step (State.reset.withFetchWord 32 0x40000000)) cursor = some [0, 2, 0, 0, 0, 1, 0] := by
  decide
theorem table_evt :
    decodeTableWord 32 0x80000000 = some (.evt 0 0) ∧
    after (step (State.reset.withFetchWord 32 0x80000000)) cursor = some [0, 2, 0, 0, 0, 0, 0] := by
  decide
theorem table_pad :
    refusal (step (State.reset.withFetchWord 32 0)) = some .padNeverPlayed := by decide
theorem table_commands :
    decodeTableWord 8 1 = some .init ∧
    after (step (State.reset.withFetchWord 8 1)) State.inited = some true ∧
    decodeTableWord 8 7 = some .cmdReserved7 ∧
    refusal (step (State.reset.withFetchWord 8 7)) = some .reservedCommand := by decide
theorem table_phases :
    decodeTableWord 2 0 = some .handleRowStart ∧ decodeTableWord 2 1 = some .handleRowEvent ∧
    decodeTableWord 2 2 = some .handleRowEnd ∧
    refusal (step (State.reset.withFetchWord 2 3)) = some .reservedPhase := by decide

/-! ### Brightness Model and images (V1 to V14) -/

theorem test_clamp :
    after (exec (.clamp 255) started) State.result = some (.level 9) ∧
    after (exec (.clamp 9) started) State.result = some (.level 9) := by decide
/-- V2. -/
theorem test_clamp_reject :
    faultOf (exec (.clamp 10) rejecting) = some (.levelRange 10) ∧
    after (exec (.clamp 9) rejecting) State.result = some (.level 9) := by decide
/-- V3. -/
theorem test_threshold :
    after (exec (.thresholdOf 5) started) State.result = some (.ticks 29) ∧
    after (exec (.thresholdOf 9) started) State.result = some (.ticks 375) := by decide
/-- V10. -/
theorem test_grey :
    after (exec (.greyBrightnessAt v10 3 0) started) State.result = some (.level 5) ∧
    after (exec (.greyBrightnessAt v10 4 2) started) State.result = some (.level 1) := by decide
/-- V13, V14. -/
theorem test_bits :
    after (exec (.bitBrightnessAt [0, 0, 0x15, 0xE0, 0] 2 2) started) State.result =
      some (.level 9) ∧
    after (exec (.bitBrightnessAt [0, 0, 0x15, 0xE0, 0] 1 2) started) State.result =
      some (.level 0) ∧
    after (exec (.bitBrightnessAt [0, 0, 0x15, 0xE0, 0] 4 3) started) State.result =
      some (.level 0) := by decide
/-- V25: row 2 of V10's image. -/
theorem test_compileRow :
    after (exec (.compileRow (.grey v10) 2) started) State.result = some (.row
      [0x401F0004, 0x80100002, 0x80080008, 0x8004001D, 0x80020068, 0, 0, 0, 0, 0]) := by decide
/-- V29: values above 9. -/
theorem test_compileRow_clamps :
    after (exec (.compileRow (.grey v29) 0) started) State.result =
      some (.row [0x401E0000, 0, 0, 0, 0, 0, 0, 0, 0, 0]) := by decide
/-- P1's `F1`, before `INIT` too (R237). -/
theorem test_compile :
    after (exec (.compile (.bits [0x1F, 0x1F, 0x1F, 0x1F, 0x1F])) State.reset) State.result =
      some (.frame (0x401F0000 :: (List.replicate 9 0 ++ 0x401F0000 :: (List.replicate 9 0 ++
        0x401F0000 :: List.replicate 9 0)))) := by decide
/-- The `MB9` vector, row 1. -/
theorem test_compile_mb9 :
    compileRow mb9 (.grey ([0, 3, 9, 5, 0] ++ List.replicate 20 0)) 1 =
      .ok ⟨0b000011000, [⟨8, 0b000001000⟩, ⟨29, 0b000010000⟩]⟩ := by decide

/-! ### The engine (V60 to V69) -/

/-- V60. -/
theorem test_rowStart :
    after (exec .handleEvent { fired with frame := encodeFrame frame3 }) cursor =
      some [0, 1, 0, 0, 0b01110, 0b001, 0b01110] ∧
    after (exec .handleRowStart { fired with frame := encodeFrame frame3 }) State.cmp = some 8 := by
  decide
/-- V61. -/
theorem test_event_first :
    after (exec .handleEvent awaiting) cursor = some [0, 1, 1, 8, 0b01100, 0b001, 0b01100] ∧
    after (exec .handleEvent awaiting) State.cmp = some 21 := by decide
/-- V62. -/
theorem test_event_last :
    after (exec .handleRowEvent { awaiting with k := 1, cols := 0b01100, cnt := 29 }) cursor =
      some [0, 2, 0, 29, 0b00100, 0b001, 0b00100] ∧
    after (exec .handleRowEvent { awaiting with k := 1, cols := 0b01100, cnt := 29 }) State.cmp =
      some 375 := by decide
/-- V63. -/
theorem test_rowEnd :
    after (exec .handleRowEnd { awaiting with phase := 2 }) cursor =
      some [1, 1, 0, 0, 0b11111, 0b010, 0b11111] ∧
    after (exec .handleRowEnd { awaiting with phase := 2 }) State.rowbuf = some (encodeRow v24) := by
  decide
/-- V64: row 2 wraps to row 0. -/
theorem test_rowEnd_wraps :
    after (exec .handleEvent { fired with row := 2, phase := 2, cols := 1 }) cursor =
      some [0, 2, 0, 0, 0, 0b001, 0] := by decide
/-- V66, V67. -/
theorem test_handleEvent_masked :
    refusal (exec .handleEvent started) = some .handlerNotEnabled ∧
    refusal (exec .handleEvent { fired with irqEn := false }) = some .handlerNotEnabled := by decide
/-- V69: a `clr` outside `init` changes nothing. -/
theorem test_event_outside_init :
    after (exec .handleEvent { awaiting with rowbuf := encodeRow v50, cols := 1 }) cursor =
      some [0, 2, 0, 8, 1, 1, 1] ∧
    after (exec .handleEvent { awaiting with rowbuf := encodeRow v50, cols := 1 }) State.cmp =
      some 367 := by decide
/-- V60 and V61, as the frame words themselves. -/
theorem test_rowhdr :
    after (exec (.rowhdr 0b01110 2) { fired with rowbuf := encodeRow v23 }) cursor =
      some [0, 1, 0, 0, 0b01110, 0b001, 0b01110] := by decide
theorem test_evt :
    after (exec (.evt 0b00010 8) awaiting) cursor =
      some [0, 1, 1, 8, 0b01100, 0b001, 0b01100] := by decide
theorem test_pad : refusal (exec .pad awaiting) = some .padNeverPlayed := by decide
theorem test_phaseReserved :
    refusal (exec .handleEvent { fired with phase := 3 }) = some .reservedPhase := by decide

/-! ### Timer and adapter (V80 to V89) -/

/-- V80, V81. -/
theorem test_scheduleNext :
    after (exec (.scheduleNext 21) { started with cnt := 1133 }) State.cmp = some 1154 ∧
    after (exec (.scheduleNext 21) { started with cnt := 65530 }) State.cmp = some 15 := by decide
/-- V84. -/
theorem test_scheduleNext_zero :
    refusal (exec (.scheduleNext 0) started) = some (.delayOutOfRange 0) := by decide
/-- V82, V83. -/
theorem test_tick :
    after (exec .tick { started with cnt := 65535, cmp := 15 }) (fun s => (s.cnt, s.pending)) =
      some (0, false) ∧
    after (exec .tick { started with cnt := 14, cmp := 15 }) (fun s => (s.cnt, s.pending)) =
      some (15, true) := by decide
/-- V88, V89. -/
theorem test_tick_not_enabled :
    refusal (exec .tick { started with run := false }) = some .tickNotEnabled ∧
    refusal (exec .tick fired) = some .tickNotEnabled := by decide
/-- V85. -/
theorem test_clearEvent :
    after (exec .clearEvent fired) (fun s => (s.pending, s.result)) =
      some (false, .flag true) := by decide
/-- V86. -/
theorem test_clearEvent_clear :
    after (exec .clearEvent started) State.result = some (.flag false) := by decide
/-- R201's example. -/
theorem test_programPeriod :
    after (exec (.programPeriod 16 375) { started with cnt := 7 }) (fun s => (s.cnt, s.tcfg)) =
      some (0, ⟨16, 375⟩) := by decide
/-- R205's and R206's examples. -/
theorem test_outputs :
    after (exec (.setRows 0b100) started) State.rowout = some 0b100 ∧
    after (exec (.setCols 0b01100) started) State.colout = some 0b01100 := by decide

/-! ### Commands (V100 to V107) -/

/-- V100, from a power-on state that holds other values. -/
theorem test_init :
    after (exec .init { State.reset with cnt := 9, pending := true, rowout := 7, run := false }) id =
      some started := by decide
/-- V101. -/
theorem test_init_twice : refusal (exec .init started) = some .alreadyInitialised := by decide
/-- V102. -/
theorem test_before_init :
    refusal (exec (.setFrame allOffWords) State.reset) = some .notInitialised ∧
    refusal (exec .stop State.reset) = some .notInitialised ∧
    refusal (exec .irqDisable State.reset) = some .notInitialised ∧
    refusal (exec .irqEnable State.reset) = some .notInitialised := by decide
/-- V103. -/
theorem test_setFrame :
    after (exec (.setFrame (encodeFrame frame3)) started) id =
      some { started with frame := encodeFrame frame3 } := by decide
/-- V104: V41 in row 0. -/
theorem test_setFrame_refused :
    refusal (exec (.setFrame (0x401F0001 :: 0x801F0000 :: allOffWords.drop 2)) started) =
      some .frameNotWellFormed := by decide
/-- V105. -/
theorem test_stop :
    after (exec .stop { started with rowout := 0b010, colout := 0b01100 }) id =
      some { started with rowout := 0b010, colout := 0b01100, run := false } := by decide
/-- V106. -/
theorem test_masking :
    after (exec .irqDisable { started with irqEn := false }) State.irqEn = some false ∧
    after (exec .irqEnable { started with irqEn := false }) State.irqEn = some true := by decide
theorem test_nop : after (exec .nop State.reset) id = some State.reset := by decide
/-- V107. -/
theorem test_reserved7 : refusal (exec .cmdReserved7 started) = some .reservedCommand := by decide
/-- 30_encoding.md R107. -/
theorem test_show :
    after (exec (.showImage (.bits [0, 0, 0, 0, 0])) started) (fun s => (s.prog, s.result)) =
      some ([.op (.port ⟨3, 0, [], allOffWords⟩)], .frame allOffWords) := by decide
theorem test_setFrameCs :
    after (exec (.setFrameCs allOffWords) started) (fun s => (s.irqEn, s.prog)) =
      some (false, [.op (.port ⟨3, 0, [], allOffWords⟩), .op (.port ⟨6, 0, [], []⟩)]) ∧
    refusal (exec (.setFrameCs allOffWords) State.reset) = some .notInitialised := by decide
/-- 60_exceptions.md R251: the program ends, the block is as it was. -/
theorem test_compile_reject :
    after (exec (.compile (.grey v29)) { rejecting with prog := [.run 5], pending := true }) id =
      some { rejecting with prog := [], pending := true, result := .raised (.levelRange 10) } := by
  decide

/-! ### Steps -/

/-- A deliverable event goes before a scheduled command (60_exceptions.md R258); a timer move that a
stopped timer cannot take is dropped (P5). -/
theorem test_turns :
    after (step { fired with prog := [.op (.port ⟨4, 0, [], []⟩)], sched := [.foreground] })
      (fun s => (s.pending, s.run, s.prog.length, s.sched.length)) = some (false, true, 1, 1) ∧
    after (step { started with run := false, sched := [.timer] }) id =
      some { started with run := false } := by decide
theorem test_step_foreground :
    after (step { State.reset with prog := [.op (.port ⟨1, 0, [], []⟩)] }) id = some started := by
  decide
/-- `run N` (30_encoding.md R107): a tick, but an enabled `HANDLE_EVENT` before it, here with
`LATENCY_MAX` = 1, where a timer move would tick first. -/
theorem test_run :
    after (step { started with prog := [.run 2] }) (fun s => (s.cnt, s.prog)) =
      some (1, [.run 1]) ∧
    after (step { fired with cfg := { ref5 with latencyMax := 1 }, prog := [.run 2] })
      (fun s => (s.pending, s.cnt, s.prog)) = some (false, 0, [.run 2]) ∧
    after (step { fired with cfg := { ref5 with latencyMax := 1 }, sched := [.timer] })
      (fun s => (s.pending, s.cnt)) = some (true, 1) := by decide

/-! ### Witnesses: each set of hypotheses of a statement is met -/

/-- The invariants hold right after `INIT`. -/
theorem started_inv : Inv started where
  cfgOk := config_ref5
  rowLegal := by decide
  phaseLegal := by decide
  cursorInRow := fun h => absurd h (by decide)
  cursorZero := by decide
  frameWf := by decide
  rowbufWf := by decide
  columns := by decide
  columnsBelow := by decide
  elapsedLt := by decide
  rowLine := by decide
  darkBefore := by decide
  armed := by decide

/-- They hold with the first event due. -/
theorem fired_inv : Inv fired where
  cfgOk := config_ref5
  rowLegal := by decide
  phaseLegal := by decide
  cursorInRow := fun h => absurd h (by decide)
  cursorZero := by decide
  frameWf := by decide
  rowbufWf := by decide
  columns := by decide
  columnsBelow := by decide
  elapsedLt := by decide
  rowLine := by decide
  darkBefore := by decide
  armed := by decide

/-- They hold in mid-row, with an event awaited. -/
theorem awaiting_inv : Inv awaiting where
  cfgOk := config_ref5
  rowLegal := by decide
  phaseLegal := by decide
  cursorInRow := fun _ => ⟨0b01110, 2, by rfl, by decide⟩
  cursorZero := by decide
  frameWf := by decide
  rowbufWf := by decide
  columns := by decide
  columnsBelow := by decide
  elapsedLt := by decide
  rowLine := by decide
  darkBefore := by decide
  armed := by decide

/-- `fired`, at the end of row 2, with `frame3` active. -/
def boundary : State :=
  { fired with frame := encodeFrame frame3, row := 2, phase := 2, rowout := 0b100 }

theorem boundary_inv : Inv boundary where
  cfgOk := config_ref5
  rowLegal := by decide
  phaseLegal := by decide
  cursorInRow := fun h => absurd h (by decide)
  cursorZero := by decide
  frameWf := by decide
  rowbufWf := by decide
  columns := by decide
  columnsBelow := by decide
  elapsedLt := by decide
  rowLine := by decide
  darkBefore := by decide
  armed := by decide

/-- The frame V10's image compiles to (program P2's `F2`). -/
def f2 : Frame :=
  ⟨v23, v24, ⟨0b11111, [⟨2, 0b10000⟩, ⟨8, 0b01000⟩, ⟨29, 0b00100⟩, ⟨104, 0b00010⟩]⟩⟩

/-- `boundary`, with that frame active. -/
def playing : State := { boundary with frame := encodeFrame f2 }

theorem playing_inv : Inv playing :=
  Laws.inv_congr boundary_inv rfl rfl rfl rfl (by decide) rfl rfl rfl rfl rfl rfl rfl rfl

theorem witness_EncodedInstructionsDecodeBack :
    Instr.wf 5 (.rowhdr 0b11111 9) = true ∧
    encode (.rowhdr 0b11111 9) = some (.frameWord 0x401F0009) ∧
    Instr.wf 5 (.evt 0b10000 65535) = true ∧
    encode (.evt 0b10000 65535) = some (.frameWord 0x8010FFFF) ∧
    Instr.wf 5 (.compile (.grey v10)) = true ∧
    encode (.compile (.grey v10)) = some (.command ⟨2, 0, v10, []⟩) := by decide
theorem witness_DecodedFrameWordsEncodeBack :
    decodeFrameWord 5 0x401F0009 = .ok (.rowhdr 0b11111 9) ∧
    decodeFrameWord 5 0x8010FFFF = .ok (.evt 0b10000 65535) ∧
    decodeFrameWord 14 0x7FFF0000 = .ok (.rowhdr 0x3FFF 0) := by decide
theorem witness_StoredFramesAreABijection :
    Frame.ok 5 ⟨fullRow, v23, v50⟩ ∧ ¬ storedFrame 5 [] ∧ storedFrame 5 allOffWords := by
  refine ⟨by decide, fun h => absurd h.1 (by decide), rfl, fun r hr => ?_⟩
  simp only [NROWS] at hr
  have h0 : ∀ r, r < 3 → ∀ j, j < 10 → 0 < j → allOffWords.getD (10 * r + j) 0 = 0 := by decide
  have h1 : ∀ r, r < 3 → allOffWords.getD (10 * r) 0 = 0x40000000 := by decide
  simp only [storedRow, ROW_WORDS, MAX_EVENTS, h1 r hr]
  refine ⟨by decide, by decide, by decide, by decide, fun j hj hj' => ?_, fun j hj hj' => ?_⟩
  · have : (countOf (0x40000000 : Word)).toNat = 0 := by decide
    omega
  · exact h0 r hr j (by omega) (by omega)
theorem witness_FrameCheckIsTheWellFormednessRule :
    frameOk 5 (encodeFrame ⟨fullRow, v23, v50⟩) = true ∧ ref5.ok ∧
    compileFrame ref5 (.grey v10) = .ok f2 := by decide
theorem witness_ReservedFrameWordsAreRefused :
    tagOf 0xC0000000 = 3 ∧ tagOf 0x00000001 = 0 ∧ (0x00000001 : Word) ≠ 0 ∧
    tagOf 0x40000010 = 1 ∧ headerRestOf 0x40000010 ≠ 0 ∧
    tagOf 0x4000000A = 1 ∧ headerRestOf 0x4000000A = 0 ∧ 10 ≤ (countOf 0x4000000A).toNat ∧
    tagOf 0x80200000 = 2 ∧ ¬ belowCols 5 (patOf 0x80200000) ∧
    tagOf 0x40200009 = 1 ∧ headerRestOf 0x40200009 = 0 ∧ (countOf 0x40200009).toNat ≤ 9 ∧
    ¬ belowCols 5 (patOf 0x40200009) := by decide
theorem witness_InitEstablishesTheResetState :
    State.reset.inited = false ∧ State.reset.cfg.initDelay ≠ 0 ∧ started.inited = true := by decide
theorem witness_CommandsBeforeInitAreRefused :
    State.reset.inited = false ∧ State.reset.cfg.ok ∧ (Image.grey v29).wf = true ∧
    rejecting.cfg.ok ∧ faultOf (exec (.compile (.grey v29)) rejecting) = some (.levelRange 10) := by
  decide
theorem witness_NothingRunsBeforeInit :
    State.reset.inited = false ∧ State.reset.prog = [] ∧ State.reset.sched = [] := by decide
theorem witness_SetFrameReplacesActiveOnly :
    started.inited = true ∧ frameOk 5 (encodeFrame ⟨fullRow, v23, v50⟩) = true ∧
    frameOk 5 (0x401F0001 :: 0x801F0177 :: allOffWords.drop 2) = false := by decide
theorem witness_StopClearsRunOnly :
    started.inited = true ∧ after (exec .handleEvent fired) State.pending = some false ∧
    after (step { fired with run := false }) State.run = some false ∧ started.pending = false ∧
    after (step { started with run := false }) State.pending = some false ∧
    after (step { fired with run := false, irqEn := false }) State.pending = some true := by decide
theorem witness_IrqDisableMasksTheHandler :
    started.inited = true ∧ started.run = true ∧ State.reset.inited = false := by decide
theorem witness_IrqEnableDeliversAHeldEvent :
    fired.inited = true ∧ fired.pending = true ∧ fired.cfg.latencyMax = 0 ∧ fired.sched = [] := by
  decide
theorem witness_TickCountsAndMatches :
    started.inited = true ∧ started.run = true ∧ ¬ (started.pending = true ∧ started.irqEn = true) ∧
    fired.cfg.latencyMax = 0 ∧
    ¬ (fired.inited = true ∧ fired.run = true ∧ ¬ (fired.pending = true ∧ fired.irqEn = true)) := by
  decide
theorem witness_LatencyBoundsTheTicksOfAWaitingEvent :
    let s := { fired with cfg := { ref5 with latencyMax := 3 }, waited := 2 }
    s.inited = true ∧ s.run = true ∧ s.pending = true ∧ s.irqEn = true ∧
      s.waited < s.cfg.latencyMax ∧ fired.cfg.latencyMax ≤ fired.waited := by decide
theorem witness_ScheduleNextCountsFromTheCall :
    refusal (exec (.scheduleNext 65536) started) = some (.delayOutOfRange 65536) ∧
    after (exec (.scheduleNext 65535) { started with cnt := 2 }) State.cmp = some 1 ∧
    after (exec (.scheduleNext 1) started) State.cmp = some 1 := by decide
theorem witness_OutputWritesAreWholeAndIdempotent :
    belowCols started.cfg.ncols 0b11111 ∧ ¬ belowCols started.cfg.ncols 0b100000 := by decide
theorem witness_ClampReadsHighLevelsAsNine :
    (9 : Byte).toNat ≤ 9 ∧ 9 < (10 : Byte).toNat ∧ started.cfg.levelPolicy = .clamp ∧
    rejecting.cfg.levelPolicy = .reject := by decide
theorem witness_ThresholdIsATableEntry :
    started.cfg.ok ∧ (9 : Level).toNat ≤ 9 ∧ 9 < (10 : Level).toNat ∧
    started.cfg.trom[8]? = some 197 ∧ started.cfg.trom[9]? = some 375 := by decide
theorem witness_GreyImageReadsItsCell :
    v29.length = GREY_BYTES ∧ v29[5 * 0 + 1]? = some 10 ∧ v29[5 * 4 + 4]? = some 0 ∧
    rejecting.cfg.levelPolicy = .reject := by decide
theorem witness_BitImageReadsItsCell :
    ([0, 0, 0x15, 0, 0x10] : List Byte).length = BIT_BYTES ∧
    after (exec (.bitBrightnessAt [0, 0, 0x15, 0, 0x10] 4 4) started) State.result =
      some (.level 9) ∧
    refusal (exec (.bitBrightnessAt [0, 0, 0, 0, 0] 0 5) started) = some (.coordinates 0 5) := by
  decide
theorem witness_CompileAlwaysAnswersAWellFormedFrame :
    started.cfg.ok ∧ (Image.grey v29).wf = true ∧ started.cfg.levelPolicy = .clamp ∧
    rejecting.cfg.ok ∧ (Image.bits [0, 0, 0, 0, 0]).wf = true ∧ 2 < NROWS ∧ NROWS ≤ 3 := by decide
theorem witness_CompiledRowGroupsColumnsByLevel :
    ref5.ok ∧ (Image.grey v10).wf = true ∧ rowLevels ref5 (.grey v10) 2 = .ok [9, 7, 5, 3, 1] ∧
    shownLevel ref5 (.grey v10) 2 4 = 1 ∧ shownLevel ref5 (.grey v10) 2 5 = 0 := by decide
theorem witness_CompiledRowEventBound :
    ref5.ok ∧ compileRow ref5 (.grey v10) 2 = .ok f2.row2 ∧
    compileRow ref5 (.grey ([1, 2, 3, 4, 5] ++ v10.drop 5)) 0 =
      .ok ⟨0b11111, [⟨2, 1⟩, ⟨4, 2⟩, ⟨8, 4⟩, ⟨15, 8⟩, ⟨29, 16⟩]⟩ := by decide
theorem witness_CompiledRowEventsPartitionItsColumns :
    ref5.ok ∧ (Image.grey v10).wf = true ∧ compileRow ref5 (.grey v10) 2 = .ok f2.row2 ∧
    shownLevel ref5 (.grey v10) 2 0 = 9 := by decide
/-- Bits above the grid, bytes above 9 under `CLAMP`, and `REJECT` without one. -/
theorem witness_UniformImagesCompileWithoutEvents :
    (mb9.ok ∧ rejecting.cfg.ok ∧ rejecting.cfg.levelPolicy = .reject) ∧
    (∀ r c x y, layoutAt mb9 r c = some (x, y) →
      cellLevel (.bits (List.replicate 5 0xE0)) x y = 0 ∧
      cellLevel (.bits (List.replicate 5 0xFF)) x y = 9 ∧
      cellLevel (.grey (List.replicate 25 200)) x y = 9 ∧
      cellLevel (.grey (List.replicate 25 9)) x y = 9) ∧
    ∀ v ∈ List.replicate 25 (9 : Byte), v.toNat ≤ 9 := by
  refine ⟨by decide, fun r c x y h => ?_, by decide⟩
  obtain ⟨hx, hy⟩ := Laws.cell_in_grid config_mb9.2.2.1 h
  have all : ∀ y, y < 5 → ∀ x, x < 5 →
      cellLevel (.bits (List.replicate 5 0xE0)) x y = 0 ∧
      cellLevel (.bits (List.replicate 5 0xFF)) x y = 9 ∧
      cellLevel (.grey (List.replicate 25 200)) x y = 9 ∧
      cellLevel (.grey (List.replicate 25 9)) x y = 9 := by decide
  exact all y hy x hx
theorem witness_RejectReportsTheFirstBadCell :
    rejecting.cfg.ok ∧ v29.length = GREY_BYTES ∧ rejecting.cfg.levelPolicy = .reject ∧
    faultOf (exec (.compileRow (.grey v29) 0) rejecting) = some (.levelRange 10) ∧
    after (exec (.compile (.grey v10)) rejecting) State.result = some (.frame (encodeFrame f2)) := by
  decide
theorem witness_HandlerClearsThenDispatchesOnPhase :
    fired.inited = true ∧ fired.pending = true ∧ fired.irqEn = true ∧
    ¬ (started.inited = true ∧ started.pending = true ∧ started.irqEn = true) := by decide
theorem witness_RowStartPlaysTheLatchedRow :
    Frame.ok playing.cfg.ncols f2 ∧ playing.frame = encodeFrame f2 ∧
    f2.rowAt playing.row.toNat = some f2.row2 := by decide
theorem witness_EventClearsItsColumns :
    RowSched.ok awaiting.cfg.ncols v23 ∧ awaiting.rowbuf = encodeRow v23 ∧
    v23.evs[awaiting.k.toNat]? = some ⟨8, 0b00010⟩ := by decide
theorem witness_EventClearsItsColumns_last :
    let s := { awaiting with rowbuf := encodeRow fullRow, k := 8 }
    RowSched.ok s.cfg.ncols fullRow ∧ fullRow.evs[s.k.toNat]? = some ⟨374, 1⟩ := by decide
theorem witness_RowEndStartsTheNextRow :
    Frame.ok playing.cfg.ncols f2 ∧ playing.frame = encodeFrame f2 ∧
    f2.rowAt ((playing.row.toNat + 1) % 3) = some v23 := by decide
theorem witness_FrameWordsPlayAsTheEngineDoes :
    RowSched.ok awaiting.cfg.ncols v23 ∧ awaiting.rowbuf = encodeRow v23 ∧
    v23.evs[awaiting.k.toNat]? = some ⟨8, 0b00010⟩ := by decide
theorem witness_FrameWordsPlayOnAnyRow :
    eventOf awaiting.cfg.ncols awaiting.rowbuf 0 = .ok ⟨8, 0b00010⟩ ∧
    headerOf awaiting.cfg.ncols awaiting.rowbuf = .ok (0b01110, 2) ∧
    awaiting.k.toNat + 1 < (2 : BitVec 4).toNat ∧
    eventOf awaiting.cfg.ncols awaiting.rowbuf 1 = .ok ⟨29, 0b01000⟩ ∧
    refusal (exec (.rowhdr 0 1) started) = some .notAnEvent ∧
    refusal (exec (.evt 0 375) started) = some (.delayOutOfRange 0) ∧
    refusal (exec (.evt 0 29) awaiting) = some (.delayOutOfRange 0) ∧
    refusal (exec (.evt 0 8) { awaiting with rowbuf := [0x40000002, 0, 0] }) = some .notAnEvent ∧
    refusal (exec (.evt 0 8) { awaiting with rowbuf := [] }) = some .notARowHeader := by decide
theorem witness_EventsDoNotSeeASwappedFrame :
    after (exec .handleRowEvent awaiting) State.colout = some 0b01100 ∧
    after (exec .handleRowEvent { awaiting with frame := allOffWords }) State.colout =
      some 0b01100 := by decide
theorem witness_HandlerCompletesAndRearmsTheTimer :
    Inv awaiting ∧ awaiting.inited = true ∧ awaiting.pending = true ∧ awaiting.irqEn = true :=
  ⟨awaiting_inv, by decide⟩
theorem witness_ShowCompilesThenSetsTheFrame :
    started.cfg.ok ∧ (Image.grey v10).wf = true ∧ started.cfg.levelPolicy = .clamp ∧
    started.inited = true ∧ deliverable started = false := by decide
theorem witness_CriticalSectionSetsTheFrame :
    started.inited = true ∧ started.run = true ∧ deliverable started = false ∧
    State.reset.inited = false ∧ frameOk started.cfg.ncols (encodeFrame f2) = true ∧
    after (steps 5 { started with
      cnt := 374, prog := [.op (.setFrameCs (encodeFrame f2))],
      sched := [.foreground, .timer, .foreground, .timer, .foreground] })
      (fun s => (s.pending, s.cnt, s.irqEn)) = some (true, 376, true) := by decide
theorem witness_StepRunsTheDecodedInstruction :
    turn fired = .engine fired ∧ turn started = .timer started ∧
    turn State.reset = .idle State.reset ∧
    turn { started with prog := [.op (.port ⟨4, 0, [], []⟩)], sched := [.foreground] } =
      .foreground (.port ⟨4, 0, [], []⟩) started ∧
    turn { fired with prog := [.run 1], sched := [.foreground] } =
      .engine { fired with prog := [.run 1], sched := [.foreground] } ∧
    turn { started with prog := [.run 1], sched := [.foreground] } =
      .timer { started with prog := [.run 0] } ∧
    decodeForeground (.port ⟨4, 0, [], []⟩) = .ok .stop := by decide
theorem witness_StepRunsTheDecodedInstruction_words :
    headerOf awaiting.cfg.ncols awaiting.rowbuf = .ok (0b01110, 2) ∧
    awaiting.k.toNat < (2 : BitVec 4).toNat ∧
    awaiting.rowbuf[1 + awaiting.k.toNat]? = some 0x80020008 ∧
    decodeFrameWord awaiting.cfg.ncols 0x80020008 = .ok (.evt 0b00010 8) ∧
    after (latchRow { awaiting with row := 1 }) State.rowbuf = some (encodeRow v24) ∧
    headerOf awaiting.cfg.ncols (encodeRow v24) = .ok (0b11111, 1) := by decide
theorem witness_DeliverableEventGoesFirst :
    fired.cfg.latencyMax = 0 ∧ fired.inited = true ∧ fired.pending = true ∧ fired.irqEn = true ∧
    fired.sched = [] ∧ { fired with sched := [.engine] }.sched = [.engine] := by decide
theorem witness_StepKeepsTheMachineLegal :
    Legal awaiting ∧ after (step awaiting) State.colout = some 0b01100 :=
  ⟨⟨config_ref5, fun _ => awaiting_inv⟩, by decide⟩
theorem witness_StepKeepsTheConfiguration :
    after (step awaiting) State.cfg = some ref5 := by decide
theorem witness_DutifulRunsNeverStop :
    let s := { started with
      prog := [.op (.port (setFrameCommand (encodeFrame f2))), .run 3,
        .op (.showImage (.grey v29)), .op (.setFrameCs allOffWords)]
      sched := [.timer, .foreground] }
    Legal s ∧ s.inited = true ∧ s.prog.all (ScriptLine.dutiful s.cfg.ncols) = true ∧
      s.sched.all Move.dutiful = true := by
  refine ⟨⟨config_ref5, fun _ => ?_⟩, by decide, by decide, by decide⟩
  exact Laws.inv_congr started_inv rfl rfl rfl rfl (by decide) rfl rfl rfl rfl rfl rfl rfl rfl
theorem witness_OnlyLevelRangeIsEverRaised :
    faultOf (exec (.greyBrightnessAt v29 1 0) rejecting) = some (.levelRange 10) ∧
    faultOf (exec (.showImage (.grey v29)) rejecting) = some (.levelRange 10) := by decide
theorem witness_ForegroundLeavesTheInterruptSide :
    decodeForeground (.port ⟨4, 0, [], []⟩) = .ok .stop ∧ Instr.stop ≠ .init ∧
    after (exec .stop awaiting) State.run = some false := by decide
theorem witness_PendingIsClearedOnlyByTheHandler :
    fired.inited = true ∧ fired.pending = true ∧ after (step fired) State.pending = some false := by
  decide
theorem witness_WaitingNeverExceedsTheLatency :
    let s := { fired with cfg := { ref5 with latencyMax := 1 }, sched := [.timer] }
    s.waited ≤ s.cfg.latencyMax ∧ after (step s) State.waited = some 1 := by decide
theorem witness_TimerFiresAfterExactlyTheRequestedTicks :
    started.inited = true ∧ started.run = true ∧ started.pending = false ∧ started.prog = [] ∧
    started.sched = [] ∧ started.waited = 0 ∧ started.cmp = started.cnt + BitVec.ofNat 16 375 := by decide
theorem witness_MaskedTicksHoldTheEvent :
    let s := { fired with irqEn := false, sched := List.replicate 2 .timer }
    s.inited = true ∧ s.run = true ∧ s.irqEn = false ∧ s.sched = List.replicate 2 .timer := by
  decide
theorem witness_StoppedDisplayIsFrozen :
    let s := { started with run := false, prog := [.op (.port (setFrameCommand allOffWords))] }
    s.inited = true ∧ s.run = false ∧ s.pending = false ∧
      after (steps 2 s) State.frame = some allOffWords := by decide
theorem witness_AllOffStaysDark :
    Inv started ∧ started.inited = true ∧ started.frame = allOffWords ∧
    started.rowbuf = 0x40000000 :: List.replicate 9 0 ∧ started.colout = 0 ∧
    started.prog = [] ∧ after (steps 3 started) State.cnt = some 3 :=
  ⟨started_inv, by decide⟩
theorem witness_RowSlotLastsRowTicks :
    Inv playing ∧ playing.inited = true ∧ playing.run = true ∧ playing.pending = true ∧
    playing.irqEn = true ∧ playing.cfg.latencyMax = 0 ∧ playing.prog = [] ∧
    playing.sched = [] ∧ playing.phase ≠ 1 ∧
    0 = (if playing.phase = 0 then playing.row.toNat else (playing.row.toNat + 1) % 3) ∧
    Frame.ok playing.cfg.ncols f2 ∧ playing.frame = encodeFrame f2 ∧ f2.rowAt 0 = some v23 :=
  ⟨playing_inv, by decide⟩
theorem witness_RefreshCycleLastsThreeSlots :
    Inv playing ∧ playing.inited = true ∧ playing.run = true ∧ playing.pending = true ∧
    playing.irqEn = true ∧ playing.cfg.latencyMax = 0 ∧ playing.prog = [] ∧
    playing.sched = [] ∧
    (playing.phase = 0 ∧ playing.row = 0 ∨ playing.phase = 2 ∧ playing.row = 2) ∧
    Frame.ok playing.cfg.ncols f2 ∧ playing.frame = encodeFrame f2 :=
  ⟨playing_inv, by decide⟩
theorem witness_CompiledRowLightsEachLedForItsThreshold :
    Inv playing ∧ (Image.grey v10).wf = true ∧ playing.prog = [] ∧
    compileFrame playing.cfg (.grey v10) = .ok f2 ∧ playing.frame = encodeFrame f2 ∧
    f2.rowAt 0 = some v23 ∧ shownLevel playing.cfg (.grey v10) 0 1 = 3 ∧
    playing.cfg.trom[shownLevel playing.cfg (.grey v10) 0 1]? = some 8 ∧
    playing.cfg.trom[shownLevel playing.cfg (.grey v10) 0 2]? = some 375 :=
  ⟨playing_inv, by decide⟩

end Sys2Proof.Tests
end

section
/-!
PROOFS of 00_scope.md: a step runs the decoded instruction of the agent whose turn it is (R13, R15,
20_memory.md R67), and no step changes the configuration (R8, R16).
-/
namespace Sys2Proof.Proofs.Scope
open Sys2Proof Sys2Proof.Machine Sys2Proof.Laws

/-! ### The step of each agent -/

theorem step_of_engine {s t : State} (h : turn s = .engine t) : step s = exec .handleEvent t := by
  simp [step, h]

theorem step_of_timer {s t : State} (h : turn s = .timer t) : step s = exec .tick t := by
  simp [step, h]

theorem step_of_idle {s t : State} (h : turn s = .idle t) : step s = .next t := by
  simp [step, h]

theorem step_of_foreground {s t : State} {o : ForegroundOp} {i : Instr}
    (h : turn s = .foreground o t) (ho : decodeForeground o = .ok i) : step s = exec i t := by
  simp [step, h, ho]

/-! ### A `run N` line (30_encoding.md R107) -/

/-- The free-running machine on a `run` line: the deliverable event that `freeTurn` lets go first is
the one `runTurn` takes. -/
theorem turn_free_run {s : State} {n : Nat} {p : List ScriptLine}
    (hp : s.prog = .run (n + 1) :: p) (hs : s.sched = []) :
    turn s = runTurn s { s with prog := .run n :: p } := by
  cases hd : deliverable s <;> simp [turn, hs, freeTurn, foregroundTurn, hp, runTurn, hd]

/-- A scheduled foreground move on a `run` line: a preempting event is the one `runTurn` takes. -/
theorem turn_scheduled_run {s : State} {n : Nat} {p : List ScriptLine} {l : List Move}
    (hp : s.prog = .run (n + 1) :: p) (hs : s.sched = .foreground :: l) :
    turn s = runTurn s { s with prog := .run n :: p, sched := l } := by
  cases hd : deliverable s <;>
    simp [turn, hs, preempted, scheduledTurn, foregroundTurn, hp, runTurn, hd]

theorem step_of_runTurn {s t : State} (h : turn s = runTurn s t) :
    (deliverable s = true → step s = exec .handleEvent s) ∧
    (deliverable s = false → tickEnabled s = true → step s = exec .tick t) := by
  constructor
  · intro hd
    exact step_of_engine (by simp [h, runTurn, hd])
  · intro hd ht
    exact step_of_timer (by simp [h, runTurn, hd, ht])

/-! ### Frame words played by the engine (20_memory.md R67) -/

theorem rowEvent_of_evt {s : State} {pat clr : ColPat} {n : BitVec 4} {w : Word} {off : Half}
    (hh : headerOf s.cfg.ncols s.rowbuf = .ok (pat, n)) (hk : s.k.toNat < n.toNat)
    (hw : wordAtCursor s = some w) (he : decodeFrameWord s.cfg.ncols w = .ok (.evt clr off)) :
    rowEvent s = execEvt clr off s := by
  unfold rowEvent
  rw [hh, withValue_ok, if_pos hk, hw]
  dsimp only
  rw [he]
  rfl

theorem rowStart_of_header {s t : State} {pat : ColPat} {n : BitVec 4}
    (hl : latchRow s = .next t) (hh : headerOf t.cfg.ncols t.rowbuf = .ok (pat, n)) :
    rowStart s = execRowhdr pat n t := by
  simp [rowStart, hl, playHeader, hh]

/-! ### The configuration (00_scope.md R8) -/

theorem foreground_cfg {o : ForegroundOp} {i : Instr} {s t : State}
    (ho : decodeForeground o = .ok i) (h : exec i s = .next t) : t.cfg = s.cfg := by
  obtain ht | ⟨-, hi⟩ | ⟨_, _, ht⟩ | ⟨_, -, -, ht⟩ | ⟨-, ht⟩ | ⟨_, _, -, ht⟩ :=
    foreground_next ho h
  case inr.inl =>
    obtain ⟨-, -, ht⟩ := execInit_next hi
    simp [ht]
  all_goals rw [ht]

/-! ### The statements -/

/-- Settles O44, one agent's turn after the other, then the frame words. -/
theorem stepRunsTheDecodedInstruction : Obligations.StepRunsTheDecodedInstruction := by
  intro s t
  refine ⟨step_of_engine, step_of_timer, step_of_idle, fun _ _ => step_of_foreground, ?_, ?_, ?_, ?_⟩
  · intro n p hp hs
    exact step_of_runTurn (turn_free_run hp hs)
  · intro n p l hp hs
    exact step_of_runTurn (turn_scheduled_run hp hs)
  · intro pat n w clr off hh hk hw he
    exact rowEvent_of_evt hh hk hw he
  · intro pat n hl hh
    exact rowStart_of_header hl hh

/-- Settles O48, by what a step of each agent can do: the engine writes its own registers, a tick the
timer's, a foreground command as `foreground_cfg` says, and an idle turn none. -/
theorem stepKeepsTheConfiguration : Obligations.StepKeepsTheConfiguration := by
  intro s t h
  obtain ⟨l, -, -, hd⟩ | ⟨p, l, -, -, -, rfl⟩ | ⟨o, i, p, l, -, -, ho, hx⟩ | ⟨p, l, -, -, rfl⟩ :=
    step_next h
  · exact (dispatchPhase_engineOnly hd).cfg
  · exact tickOnce_cfg _
  · have hcfg := foreground_cfg ho hx
    exact hcfg
  · rfl

end Sys2Proof.Proofs.Scope
end

section
/-!
PROOFS of 10_state.md: the model's start (R42), what is not enabled before `INIT` (R43), every step of
every agent keeps the machine legal (R41), and a pending event is not lost (R32). The engine's
transitions on well-formed rows (42_display_engine.md R184, R185, R187) are stated on the way, as
functions of the state before.
-/
namespace Sys2Proof.Proofs.Legality
open Sys2Proof Sys2Proof.Machine Sys2Proof.Laws

/-! ### Before `INIT` (R42, R43) -/

theorem reset_cfg_ok : State.reset.cfg.ok := by decide

theorem deliverable_iff {s : State} :
    deliverable s = true ↔ s.inited = true ∧ s.pending = true ∧ s.irqEn = true := by
  simp [deliverable, and_assoc]

theorem deliverable_of_not_inited {s : State} (h : s.inited = false) : deliverable s = false := by
  simp [deliverable, h]

theorem tickEnabled_of_not_inited {s : State} (h : s.inited = false) : tickEnabled s = false := by
  simp [tickEnabled, h]

theorem takeInterrupt_of_not_deliverable {s : State} (h : deliverable s = false) :
    takeInterrupt s = .refused .handlerNotEnabled := by
  simp [takeInterrupt, h]

theorem execTick_of_not_enabled {s : State} (h : tickEnabled s = false) :
    execTick s = .refused .tickNotEnabled := by
  simp [execTick, h]

theorem execHandleEvent_of_not_deliverable {s : State} (h : deliverable s = false) :
    execHandleEvent s = .refused .handlerNotEnabled := by
  simp [execHandleEvent, takeInterrupt_of_not_deliverable h]

/-- Where no agent has a step the free-running machine waits (log entry 3). -/
theorem turn_idle {s : State} (hd : deliverable s = false) (ht : tickEnabled s = false)
    (hp : s.prog = []) (hs : s.sched = []) : turn s = .idle s := by
  simp [turn, hs, freeTurn, hd, ht, hp]

/-- `INIT` on a machine that it is meant for (44_foreground_commands.md R236). -/
theorem execInit_eq {s : State} (hi : s.inited = false) (hd : s.cfg.initDelay ≠ 0) :
    execInit s = .next (startRunning { initRegisters s with cmp := s.cfg.initDelay }) := by
  have hfire : scheduleNext s.cfg.initDelay.toNat (initRegisters s) =
      .next { initRegisters s with cmp := s.cfg.initDelay } := by
    rw [scheduleNext_toNat, if_neg hd, initRegisters_cnt]
    simp
  rw [execInit, hi, hfire]
  rfl

/-! ### The engine's transitions on well-formed rows -/

/-- The state after the ROW_START action on a row (42_display_engine.md R184, R188). -/
def rowStarted (rs : RowSched) (s : State) : State :=
  { s with
    rowbuf := encodeRow rs
    rowout := onehot s.row
    cols := rs.init
    colout := rs.init
    elapsed := 0
    phase := if rs.evs = [] then 2 else 1
    k := 0
    cmp := s.cnt + firstFire rs.evs }

/-- The state after the transition of the event at the cursor (R185, R186). -/
def eventPlayed (rs : RowSched) (e : Event) (s : State) : State :=
  { s with
    cols := s.cols &&& ~~~e.clr
    colout := s.cols &&& ~~~e.clr
    elapsed := e.off
    phase := if s.k.toNat + 1 < rs.evs.length then 1 else 2
    k := if s.k.toNat + 1 < rs.evs.length then s.k + 1 else 0
    cmp := s.cnt + (firstFire (rs.evs.drop (s.k.toNat + 1)) - e.off) }

theorem awaitNext_eq (p : BitVec 2) (k : BitVec 4) {x : Half} (h : x ≠ 0) (s : State) :
    awaitNext p k x.toNat s = .next { s with phase := p, k := k, cmp := s.cnt + x } := by
  rw [awaitNext, scheduleNext_toNat, if_neg h]

theorem ne_zero_of_one_le_toNat {x : Half} (h : 1 ≤ x.toNat) : x ≠ 0 := by
  rintro rfl
  simp at h

theorem firstFire_ne_zero {ncols : Nat} {rs : RowSched} (h : rs.ok ncols) :
    firstFire rs.evs ≠ 0 :=
  ne_zero_of_one_le_toNat (firstFire_range h).1

theorem fire_after_event_ne_zero {ncols : Nat} {rs : RowSched} (h : rs.ok ncols) {k : Nat}
    {e : Event} (he : rs.evs[k]? = some e) : firstFire (rs.evs.drop (k + 1)) - e.off ≠ 0 := by
  obtain ⟨hsub, hlt, -⟩ := fire_after_event h he
  exact ne_zero_of_one_le_toNat (by omega)

theorem execRowhdr_eq {rs : RowSched} {s : State} (h : rs.ok s.cfg.ncols)
    (hb : s.rowbuf = encodeRow rs) :
    execRowhdr rs.init (BitVec.ofNat 4 rs.evs.length) s = .next (rowStarted rs s) := by
  have hfire := firstFire_ne_zero h
  unfold execRowhdr rowStarted
  rw [toNat_count h, ← hb]
  cases hevs : rs.evs with
  | nil => exact awaitNext_eq 2 0 (x := BitVec.ofNat 16 ROW_TICKS) (by decide) _
  | cons e es =>
    have he : eventOf s.cfg.ncols s.rowbuf 0 = .ok e := by
      rw [hb]
      exact eventOf_encodeRow h (by simp [hevs])
    rw [hevs] at hfire
    rw [he]
    exact awaitNext_eq 1 0 hfire _

/-- A row start on a well-formed frame plays the row `ROW` names (R184). -/
theorem rowStart_eq {s : State} {f : Frame} {rs : RowSched} (hf : f.ok s.cfg.ncols)
    (hs : s.frame = encodeFrame f) (hr : f.rowAt s.row.toNat = some rs) :
    rowStart s = .next (rowStarted rs s) := by
  obtain ⟨hread, hrs⟩ := memRead_row hf hr
  have hlatch : latchRow s = .next { s with rowbuf := encodeRow rs } := by
    rw [latchRow, hs, hread, withValue_ok]
  rw [Scope.rowStart_of_header hlatch (headerOf_encodeRow hrs)]
  exact execRowhdr_eq hrs rfl

theorem execEvt_eq {s : State} {rs : RowSched} {e : Event} (h : rs.ok s.cfg.ncols)
    (hb : s.rowbuf = encodeRow rs) (he : rs.evs[s.k.toNat]? = some e) :
    execEvt e.clr e.off s = .next (eventPlayed rs e s) := by
  have hfire := fire_after_event_ne_zero h he
  have hh : headerOf s.cfg.ncols s.rowbuf = .ok (rs.init, BitVec.ofNat 4 rs.evs.length) :=
    hb ▸ headerOf_encodeRow h
  unfold execEvt eventPlayed
  rw [hh, withValue_ok, toNat_count h]
  by_cases hk : s.k.toNat + 1 < rs.evs.length
  · have hnext : firstFire (rs.evs.drop (s.k.toNat + 1)) = rs.evs[s.k.toNat + 1].off := by
      rw [List.drop_eq_getElem_cons hk, firstFire]
    have hev : eventOf s.cfg.ncols s.rowbuf (s.k.toNat + 1) = .ok rs.evs[s.k.toNat + 1] :=
      hb ▸ eventOf_encodeRow h (List.getElem?_eq_getElem hk)
    rw [hnext] at hfire ⊢
    simp only [if_pos hk, hev, withValue_ok]
    exact awaitNext_eq 1 (s.k + 1) hfire _
  · have hnext : firstFire (rs.evs.drop (s.k.toNat + 1)) = BitVec.ofNat 16 ROW_TICKS := by
      rw [List.drop_eq_nil_of_le (by omega), firstFire]
    rw [hnext] at hfire ⊢
    simp only [if_neg hk]
    exact awaitNext_eq 2 0 hfire _

/-- An event transition on a well-formed row plays the event at the cursor (R185). -/
theorem rowEvent_eq {s : State} {rs : RowSched} {e : Event} (h : rs.ok s.cfg.ncols)
    (hb : s.rowbuf = encodeRow rs) (he : rs.evs[s.k.toNat]? = some e) :
    rowEvent s = .next (eventPlayed rs e s) := by
  have hk : s.k.toNat < (BitVec.ofNat 4 rs.evs.length).toNat := by
    rw [toNat_count h]
    exact (List.getElem?_eq_some_iff.mp he).1
  have hw : wordAtCursor s = some (encodeEvt e) := by
    rw [wordAtCursor, hb]
    exact getElem?_encodeRow he
  have ⟨_, _, hclr, _⟩ := h
  have hd : decodeFrameWord s.cfg.ncols (encodeEvt e) = .ok (.evt e.clr e.off) :=
    decode_encodeEvent (hclr e (List.mem_of_getElem? he))
  rw [Scope.rowEvent_of_evt (hb ▸ headerOf_encodeRow h) hk hw hd]
  exact execEvt_eq h hb he

/-! ### What keeps the invariants (R41) -/

/-- The invariants read the configuration, `FRAME`, the engine's registers and the timer's: what else
a foreground command, the schedule or a result writes leaves a legal state legal. -/
theorem legal_foreground_side {s : State} {f : List Word} (h : Legal s)
    (hf : s.inited = true → frameOk s.cfg.ncols f = true) (run irqEn : Bool)
    (p : List ScriptLine) (l : List Move) (w : Nat) (r : Result) :
    Legal { s with
      frame := f, run := run, irqEn := irqEn, prog := p, sched := l, waited := w, result := r } :=
  ⟨h.cfgOk, fun hi =>
    inv_congr (h.inv hi) rfl rfl rfl rfl (hf hi) rfl rfl rfl rfl rfl rfl rfl rfl⟩

theorem legal_frameOk {s : State} (h : Legal s) (hi : s.inited = true) :
    frameOk s.cfg.ncols s.frame = true :=
  (h.inv hi).frameWf

/-- With the flag set the invariants ask for no outstanding compare (43_timer_gpio_adapter.md R208). -/
theorem inv_of_pending {s : State} (h : Inv s) (hp : s.pending = true) (l : List Move) (w : Nat) :
    Inv { s with sched := l, waited := w, pending := true } :=
  inv_congr h rfl rfl rfl rfl h.frameWf rfl rfl rfl rfl rfl hp.symm rfl rfl

/-- The cursor does not wrap inside a well-formed row, which has at most nine events. -/
theorem toNat_cursor_succ {ncols : Nat} {rs : RowSched} {k : BitVec 4} (h : rs.ok ncols)
    (hk : k.toNat + 1 < rs.evs.length) : (k + 1).toNat = k.toNat + 1 := by
  have hlen : rs.evs.length ≤ 9 := h.1
  have h1 : (1 : BitVec 4).toNat = 1 := rfl
  rw [BitVec.toNat_add, h1]
  omega

theorem inv_rowStarted {s : State} {rs : RowSched} (hc : s.cfg.ok) (hrow : s.row.toNat ≤ 2)
    (hf : frameOk s.cfg.ncols s.frame = true) (h : rs.ok s.cfg.ncols) : Inv (rowStarted rs s) where
  cfgOk := hc
  rowLegal := hrow
  phaseLegal := by
    simp only [rowStarted]
    split <;> decide
  cursorInRow hp := by
    have hne : rs.evs ≠ [] := by
      intro h0
      simp [rowStarted, h0] at hp
    refine ⟨_, _, headerOf_encodeRow h, ?_⟩
    rw [toNat_count h]
    exact List.length_pos_iff.mpr hne
  cursorZero _ := rfl
  frameWf := hf
  rowbufWf := rowOk_iff.mpr ⟨rs, h, rfl⟩
  columns := rfl
  columnsBelow := h.2.1
  elapsedLt := by simp [rowStarted, ROW_TICKS]
  rowLine _ := rfl
  darkBefore hp := by
    simp only [rowStarted] at hp
    split at hp <;> cases hp
  armed _ := add_ne_left.mpr (firstFire_ne_zero h)

theorem inv_eventPlayed {s : State} {rs : RowSched} {e : Event}
    (h : Inv { s with pending := true }) (hp : s.phase = 1) (hrs : rs.ok s.cfg.ncols)
    (hb : s.rowbuf = encodeRow rs) (he : rs.evs[s.k.toNat]? = some e) :
    Inv (eventPlayed rs e s) where
  cfgOk := h.cfgOk
  rowLegal := h.rowLegal
  phaseLegal := by
    simp only [eventPlayed]
    split <;> decide
  cursorInRow hq := by
    have hk : s.k.toNat + 1 < rs.evs.length := by
      by_contra hk
      simp [eventPlayed, hk] at hq
    refine ⟨rs.init, BitVec.ofNat 4 rs.evs.length, hb ▸ headerOf_encodeRow hrs, ?_⟩
    rw [toNat_count hrs]
    simpa only [eventPlayed, if_pos hk, toNat_cursor_succ hrs hk] using hk
  cursorZero hq := by
    have hk : ¬ s.k.toNat + 1 < rs.evs.length := by
      intro hk
      simp [eventPlayed, hk] at hq
    simp [eventPlayed, hk]
  frameWf := h.frameWf
  rowbufWf := h.rowbufWf
  columns := rfl
  columnsBelow := by
    have hle : (s.cols &&& ~~~e.clr).toNat ≤ s.cols.toNat := by
      rw [BitVec.toNat_and]
      exact Nat.and_le_left
    exact hle.trans_lt h.columnsBelow
  elapsedLt := (off_range hrs he).2
  rowLine _ := h.rowLine (by simp [hp])
  darkBefore hq := by
    simp only [eventPlayed] at hq
    split at hq <;> cases hq
  armed _ := add_ne_left.mpr (fire_after_event_ne_zero hrs he)

theorem inv_rowStart {s t : State} (hc : s.cfg.ok) (hrow : s.row.toNat ≤ 2)
    (hf : frameOk s.cfg.ncols s.frame = true) (h : rowStart s = .next t) : Inv t := by
  obtain ⟨f, hfo, hs⟩ := frameOk_iff.mp hf
  obtain ⟨rs, hr⟩ := rowAt_total f hrow
  rw [rowStart_eq hfo hs hr] at h
  cases h
  exact inv_rowStarted hc hrow hf (memRead_row hfo hr).2

theorem inv_rowEvent {s t : State} (hi : Inv { s with pending := true }) (hp : s.phase = 1)
    (h : rowEvent s = .next t) : Inv t := by
  obtain ⟨f, rs, -, -, hrs, hb, hk⟩ := inv_rows hi
  have he : rs.evs[s.k.toNat]? = some (rs.evs[s.k.toNat]'(hk hp)) :=
    List.getElem?_eq_getElem (hk hp)
  rw [rowEvent_eq (s := s) hrs hb he] at h
  cases h
  exact inv_eventPlayed hi hp hrs hb he

theorem advanceRow_row_le (s : State) : (advanceRow s).row.toNat ≤ 2 := by
  simp [advanceRow, NROWS]
  omega

/-- Each transition of the engine establishes the invariants again, the flag being clear. -/
theorem inv_dispatchPhase {s t : State} (hi : Inv { s with pending := true })
    (h : dispatchPhase s = .next t) : Inv t := by
  unfold dispatchPhase at h
  split at h
  · exact inv_rowStart (s := s) hi.cfgOk hi.rowLegal hi.frameWf h
  · rename_i hp
    exact inv_rowEvent hi (BitVec.eq_of_toNat_eq hp) h
  · exact inv_rowStart (s := advanceRow s) hi.cfgOk (advanceRow_row_le s) hi.frameWf h
  · cases h

/-- A tick that does not set the flag has not met the compare (R204). -/
theorem inv_tickOnce {s : State} (h : Inv s) : Inv (tickOnce s) :=
  { h with
    armed := fun hp heq => by
      have heq' : s.cmp = s.cnt + 1 := heq
      simp [pendingAfter, heq'] at hp }

theorem legal_tickOnce {s : State} (h : Legal s) : Legal (tickOnce s) :=
  ⟨h.cfgOk, fun hi => inv_tickOnce (h.inv hi)⟩

/-- `INIT` establishes the invariants from any registers (R44). -/
theorem inv_execInit {s t : State} (hc : s.cfg.ok) (h : execInit s = .next t) : Inv t := by
  obtain ⟨-, hd, rfl⟩ := execInit_next h
  have hrow : allOffRow.ok s.cfg.ncols := by
    simp [RowSched.ok, allOffRow, offsetsOk, belowCols]
  exact
    { cfgOk := hc
      rowLegal := by simp
      phaseLegal := by simp
      cursorInRow := fun hp => by simp at hp
      cursorZero := fun _ => rfl
      frameWf := frameOk_iff.mpr ⟨allOff, ⟨hrow, hrow, hrow⟩, rfl⟩
      rowbufWf := rowOk_iff.mpr ⟨allOffRow, hrow, rfl⟩
      columns := rfl
      columnsBelow := hrow.2.1
      elapsedLt := by simp [ROW_TICKS]
      rowLine := fun hp => absurd rfl hp
      darkBefore := fun _ => ⟨rfl, rfl⟩
      armed := fun _ => hd }

/-- A foreground operation keeps the machine legal: but for `INIT` it writes nothing the invariants
read, except a well-formed frame. -/
theorem legal_foreground {o : ForegroundOp} {i : Instr} {s t : State} (h : Legal s)
    (ho : decodeForeground o = .ok i) (hx : exec i s = .next t) : Legal t := by
  obtain rfl | ⟨-, hinit⟩ | ⟨p, r, rfl⟩ | ⟨f, -, hf, rfl⟩ | ⟨-, rfl⟩ | ⟨b, p, -, rfl⟩ :=
    foreground_next ho hx
  · exact h
  · have hi := inv_execInit h.cfgOk hinit
    exact ⟨hi.cfgOk, fun _ => hi⟩
  · exact legal_foreground_side h (legal_frameOk h) _ _ _ _ _ _
  · exact legal_foreground_side h (fun _ => hf) _ _ _ _ _ _
  · exact legal_foreground_side h (legal_frameOk h) _ _ _ _ _ _
  · exact legal_foreground_side h (legal_frameOk h) _ _ _ _ _ _

/-! ### `PENDING` (R32) -/

theorem tickOnce_keeps_pending {s : State} (h : s.pending = true) :
    (tickOnce s).pending = true := by
  simp [pendingAfter, h]

/-- Once initialised, no foreground operation writes `PENDING` (60_exceptions.md R270). -/
theorem foreground_pending {o : ForegroundOp} {i : Instr} {s t : State} (hi : s.inited = true)
    (ho : decodeForeground o = .ok i) (hx : exec i s = .next t) : t.pending = s.pending := by
  obtain ht | ⟨hn, -⟩ | ⟨_, _, ht⟩ | ⟨_, -, -, ht⟩ | ⟨-, ht⟩ | ⟨_, _, -, ht⟩ :=
    foreground_next ho hx
  case inr.inl =>
    rw [hi] at hn
    cases hn
  all_goals rw [ht]

/-! ### The statements -/

/-- Settles O9: `INIT` on the start writes only the values its registers hold already. -/
theorem resetStartsUninitialised : Obligations.ResetStartsUninitialised := by
  obtain ⟨-, -, -, -, hdelay⟩ := reset_cfg_ok
  exact ⟨rfl, reset_wf, _, execInit_eq rfl hdelay, rfl⟩

/-- Settles O11: both conditions ask for `INITED`. -/
theorem nothingRunsBeforeInit : Obligations.NothingRunsBeforeInit := by
  intro s hi
  have hd := deliverable_of_not_inited hi
  have ht := tickEnabled_of_not_inited hi
  exact ⟨execTick_of_not_enabled ht, execHandleEvent_of_not_deliverable hd,
    fun hp hs => Scope.step_of_idle (turn_idle hd ht hp hs)⟩

/-- Settles O46: the start is not initialised, so only its configuration has to be legal. -/
theorem resetIsLegal : Obligations.ResetIsLegal where
  cfgOk := reset_cfg_ok
  inv h := by cases h

/-- Settles O47, by what a step of each agent can do: the engine's transition establishes the
invariants with the next compare ahead, a tick meets the compare only where it sets `PENDING`, and
the foreground writes what the invariants do not read, or a well-formed frame, or the reset state. -/
theorem stepKeepsTheMachineLegal : Obligations.StepKeepsTheMachineLegal := by
  intro s t hl h
  have hside := legal_foreground_side hl (legal_frameOk hl) s.run s.irqEn
  obtain ⟨l, -, hd, hx⟩ | ⟨p, l, -, -, -, rfl⟩ | ⟨o, i, p, l, -, -, ho, hx⟩ | ⟨p, l, -, -, rfl⟩ :=
    step_next h
  · obtain ⟨hin, hpend, -⟩ := deliverable_iff.mp hd
    have hi := inv_dispatchPhase (inv_of_pending (hl.inv hin) hpend l 0) hx
    exact ⟨hi.cfgOk, fun _ => hi⟩
  · exact legal_tickOnce (hside p l s.waited s.result)
  · exact legal_foreground (hside p l s.waited s.result) ho hx
  · exact hside p l s.waited s.result

/-- Settles O52, by what a step of each agent can do: a tick, a foreground operation and an idle turn
leave a set `PENDING` set, so only the engine's step is left. -/
theorem pendingIsClearedOnlyByTheHandler : Obligations.PendingIsClearedOnlyByTheHandler := by
  intro s t hi h hp hc
  obtain ⟨l, hturn, -, -⟩ | ⟨p, l, -, -, -, rfl⟩ | ⟨o, i, p, l, -, -, ho, hx⟩ | ⟨p, l, -, -, rfl⟩ :=
    step_next h
  · exact ⟨_, hturn⟩
  · have hset := tickOnce_keeps_pending (s := { s with prog := p, sched := l }) hp
    rw [hset] at hc
    cases hc
  · have hkept : t.pending = s.pending :=
      foreground_pending (s := { s with prog := p, sched := l }) hi ho hx
    rw [hkept, hp] at hc
    cases hc
  · rw [hp] at hc
    cases hc

end Sys2Proof.Proofs.Legality
end

section
/-!
PROOFS of 20_memory.md: the byte order of a frame word (R69).
-/
namespace Sys2Proof.Proofs.Memory
open Sys2Proof

/-- The bytes of a word, joined in their order, are the word again (R69): each join of two adjacent
fields is the wider field. -/
theorem wordOfBytes_wordBytes (w : Word) :
    wordOfBytes (w.extractLsb' 0 8) (w.extractLsb' 8 8) (w.extractLsb' 16 8) (w.extractLsb' 24 8) =
      w := by
  unfold wordOfBytes
  rw [BitVec.extractLsb'_append_extractLsb'_eq_extractLsb' (show 24 = 16 + 8 from rfl),
    BitVec.extractLsb'_append_extractLsb'_eq_extractLsb' (show 16 = 8 + 8 from rfl),
    BitVec.extractLsb'_append_extractLsb'_eq_extractLsb' (show 8 = 0 + 8 from rfl)]
  exact BitVec.extractLsb'_eq_self

/-- The decoder of bytes reads the word that the bytes of a word stand for. -/
theorem decodeFrameBytes_wordBytes (ncols : Nat) (w : Word) :
    decodeFrameBytes ncols (wordBytes w) = decodeFrameWord ncols w :=
  congrArg (decodeFrameWord ncols) (wordOfBytes_wordBytes w)

/-- Settles O7: joining the four bytes gives the word back, and byte `i` is bits `8i+7..8i` by the
definition of `wordBytes`. -/
theorem frameWordBytesAreLittleEndian : Obligations.FrameWordBytesAreLittleEndian :=
  fun ncols w => ⟨decodeFrameBytes_wordBytes ncols w, rfl⟩

end Sys2Proof.Proofs.Memory
end

section
/-!
PROOFS of 30_encoding.md: the decoder and the encoder are inverse to each other on single words, on
commands (R90, R96 to R99, R104, R105) and on stored frames (R95, R100 to R102); the frame words played
as instructions (R97, R98) and `show` (R107).
-/
namespace Sys2Proof.Proofs.Encoding
open Sys2Proof Sys2Proof.Machine Sys2Proof.Laws

/-! ### Single words and commands (R96 to R99, R102, R104) -/

theorem decodeFrameWord_pad (ncols : Nat) : decodeFrameWord ncols 0 = .ok .pad := rfl

theorem decodeCommand_compile {img : Image} (h : img.wf = true) :
    decodeCommand (compileCommand img) = .ok (.compile img) := by
  cases img with
  | grey buf =>
    have hl : buf.length = GREY_BYTES := by simpa [Image.wf] using h
    simp [decodeCommand, compileCommand, decodeImage, hl]
  | bits buf =>
    have hl : buf.length = BIT_BYTES := by simpa [Image.wf] using h
    simp [decodeCommand, compileCommand, decodeImage, hl]

theorem decodeCommand_setFrame {f : List Word} (h : f.length = FRAME_WORDS) :
    decodeCommand (setFrameCommand f) = .ok (.setFrame f) := by
  simp [decodeCommand, setFrameCommand, h]

/-- A word is a `ROWHDR` exactly when its fields are what R97 and R102 ask for. -/
theorem decodeFrameWord_rowhdr_iff {ncols : Nat} {w : Word} {p : ColPat} {n : BitVec 4} :
    decodeFrameWord ncols w = .ok (.rowhdr p n) ↔
      tagOf w = 1 ∧ headerRestOf w = 0 ∧ (countOf w).toNat ≤ MAX_EVENTS ∧
        belowCols ncols (patOf w) ∧ p = patOf w ∧ n = countOf w := by
  constructor
  · intro h
    obtain ⟨-, hi⟩ | ⟨ht, hr, hn, hb, hi⟩ | ⟨-, -, hi⟩ := decodeFrameWord_ok h
    · cases hi
    · cases hi
      exact ⟨ht, hr, hn, hb, rfl, rfl⟩
    · cases hi
  · rintro ⟨ht, hr, hn, hb, rfl, rfl⟩
    have hd := decode_encodeHeader hb hn
    rwa [encodeHeader_fields ht hr] at hd

/-! ### The statements on single words -/

/-- Settles O1, by the ports: the header and event words by their fields, `COMPILE` and `SET_FRAME`
by the size of their operand; the other encodings are constants. -/
theorem encodedInstructionsDecodeBack : Obligations.EncodedInstructionsDecodeBack := by
  intro ncols i x hwf hx
  cases i with
  | rowhdr pat n =>
    cases hx
    obtain ⟨hp, hn⟩ : belowCols ncols pat ∧ n.toNat ≤ MAX_EVENTS := by simpa [Instr.wf] using hwf
    exact decode_encodeHeader hp hn
  | evt clr off =>
    cases hx
    exact decode_encodeEvent (of_decide_eq_true hwf)
  | pad =>
    cases hx
    exact decodeFrameWord_pad ncols
  | compile img =>
    cases hx
    exact decodeCommand_compile hwf
  | setFrame f =>
    cases hx
    exact decodeCommand_setFrame (by simpa [Instr.wf] using hwf)
  | _ => cases hx <;> rfl

/-- Settles O2: a word that decodes is `PAD`, or a header or event word with its fields in range
(`decodeFrameWord_ok`), and such a word is the encoding of its fields. -/
theorem decodedFrameWordsEncodeBack : Obligations.DecodedFrameWordsEncodeBack := by
  intro ncols w i h
  obtain ⟨rfl, rfl⟩ | ⟨ht, hr, hn, hb, rfl⟩ | ⟨ht, hb, rfl⟩ := decodeFrameWord_ok h
  · exact ⟨rfl, rfl⟩
  · exact ⟨by rw [encode, encodeHeader_fields ht hr], by simp [Instr.wf, hb, hn]⟩
  · exact ⟨by rw [encode, encodeEvent_fields ht], by simp [Instr.wf, hb]⟩

/-- Settles O5, one clause per branch of the word decoder. -/
theorem reservedFrameWordsAreRefused : Obligations.ReservedFrameWordsAreRefused := by
  intro ncols w
  refine ⟨fun ht => ?_, fun ht hw => ?_, fun ht hr => ?_, fun ht hr hn => ?_, fun ht hb => ?_,
    fun ht hr hn hb => ?_⟩
  · simp [decodeFrameWord, ht]
  · rw [decodeFrameWord, if_pos ht, if_neg hw]
  · rw [decodeFrameWord, ht, if_neg (by decide), if_pos rfl, if_pos hr]
  · simp [decodeFrameWord, ht, hr, MAX_EVENTS, Nat.lt_of_succ_le hn]
  · simp [decodeFrameWord, ht, Nat.le_of_not_lt hb]
  · simp [decodeFrameWord, ht, hr, MAX_EVENTS, Nat.not_lt.mpr hn, Nat.le_of_not_lt hb]

/-- Settles O6: the decoder run on each word. -/
theorem specWordsDecode : Obligations.SpecWordsDecode := by
  unfold Obligations.SpecWordsDecode
  decide

/-! ### Row records (R100, R101) -/

/-- An event slot holds a stored event: `TAG = 10` and no pattern bit at or above `NCOLS` (R98, R100). -/
def StoredEvent (ncols : Nat) (w : Word) : Prop := tagOf w = 2 ∧ belowCols ncols (patOf w)

theorem exists_decodeEvt_iff {ncols : Nat} {w : Word} :
    (∃ e, decodeEvt ncols w = some e) ↔ StoredEvent ncols w := by
  simp [decodeEvt_some, StoredEvent]

theorem all_zero_iff {ws : List Word} : ws.all (· == 0) = true ↔ ∀ j, ws.getD j 0 = 0 := by
  simp only [List.all_eq_true, beq_iff_eq, List.getD_eq_getElem?_getD]
  constructor
  · intro h j
    cases hj : ws[j]? with
    | none => rfl
    | some w => exact h w (List.mem_of_getElem? hj)
  · intro h w hw
    obtain ⟨j, hj⟩ := List.mem_iff_getElem?.mp hw
    simpa [hj] using h j

theorem decodeEvents_zero_iff {ncols : Nat} {ws : List Word} {es : List Event} :
    decodeEvents ncols 0 ws = some es ↔ (∀ j, ws.getD j 0 = 0) ∧ [] = es := by
  simp only [decodeEvents, Option.ite_none_right_eq_some, Option.some.injEq, all_zero_iff]

theorem decodeEvents_cons_iff {ncols n : Nat} {w : Word} {ws : List Word} {es : List Event} :
    decodeEvents ncols (n + 1) (w :: ws) = some es ↔
      ∃ e es', decodeEvt ncols w = some e ∧ decodeEvents ncols n ws = some es' ∧ e :: es' = es := by
  cases he : decodeEvt ncols w <;> cases hes : decodeEvents ncols n ws <;>
    simp [decodeEvents, he, hes]

/-- The event words of a row decode when the first n are events and all after them are zero. -/
theorem exists_decodeEvents_iff {ncols n : Nat} {ws : List Word} :
    (∃ es, decodeEvents ncols n ws = some es) ↔
      (∀ j, j < n → StoredEvent ncols (ws.getD j 0)) ∧ ∀ j, n ≤ j → ws.getD j 0 = 0 := by
  induction n generalizing ws with
  | zero => simp [-List.getD_eq_getElem?_getD, decodeEvents_zero_iff]
  | succ n ih =>
    cases ws with
    | nil =>
      have hnot : ¬ StoredEvent ncols 0 := fun ⟨ht, _⟩ => absurd ht (by decide)
      constructor
      · rintro ⟨es, h⟩
        cases h
      · rintro ⟨hev, -⟩
        exact absurd (hev 0 (Nat.succ_pos n)) hnot
    | cons w ws =>
      have hsplit : (∃ es, decodeEvents ncols (n + 1) (w :: ws) = some es) ↔
          (∃ e, decodeEvt ncols w = some e) ∧ ∃ es, decodeEvents ncols n ws = some es := by
        simp only [decodeEvents_cons_iff]
        constructor
        · rintro ⟨_, e, es, he, hes, -⟩
          exact ⟨⟨e, he⟩, es, hes⟩
        · rintro ⟨⟨e, he⟩, es, hes⟩
          exact ⟨_, e, es, he, hes, rfl⟩
      rw [hsplit, exists_decodeEvt_iff, ih]
      constructor
      · rintro ⟨hw, hev, hz⟩
        constructor
        · rintro (_ | j) hj
          · exact hw
          · exact hev j (Nat.lt_of_succ_lt_succ hj)
        · rintro (_ | j) hj
          · cases hj
          · exact hz j (Nat.le_of_succ_le_succ hj)
      · rintro ⟨hev, hz⟩
        exact ⟨hev 0 (Nat.succ_pos n), fun j hj => hev (j + 1) (Nat.succ_lt_succ hj),
          fun j hj => hz (j + 1) (Nat.succ_le_succ hj)⟩

/-- What a row record that decodes is made of. -/
theorem decodeRow_cons_iff {ncols : Nat} {h : Word} {ws : List Word} {rs : RowSched} :
    decodeRow ncols (h :: ws) = some rs ↔
      ws.length = MAX_EVENTS ∧ decodeFrameWord ncols h = .ok (.rowhdr rs.init (countOf h)) ∧
        decodeEvents ncols (countOf h).toNat ws = some rs.evs := by
  simp only [decodeRow]
  split
  · rename_i hl
    split
    · rename_i p n hd
      obtain ⟨-, -, -, -, rfl, rfl⟩ := decodeFrameWord_rowhdr_iff.mp hd
      cases rs
      simp [hl, hd, and_comm]
    · rename_i hd
      constructor
      · intro hx
        cases hx
      · rintro ⟨-, hx, -⟩
        exact (hd _ _ hx).elim
  · simp [*]

theorem length_of_decodeRow {ncols : Nat} {ws : List Word} {rs : RowSched}
    (h : decodeRow ncols ws = some rs) : ws.length = ROW_WORDS := by
  obtain ⟨rfl, hl, -⟩ := decodeRow_some h
  exact length_encodeRow hl

/-- The row record of physical row r in an image of a frame (20_memory.md R67). -/
def rowRecord (ws : List Word) (r : Nat) : List Word := (ws.drop (ROW_WORDS * r)).take ROW_WORDS

theorem getD_rowRecord {ws : List Word} {r j : Nat} (h : j < ROW_WORDS) :
    (rowRecord ws r).getD j 0 = ws.getD (ROW_WORDS * r + j) 0 := by
  simp [rowRecord, List.getElem?_take_of_lt h]

theorem length_rowRecord {ws : List Word} {r : Nat} (h : ws.length = FRAME_WORDS) (hr : r < NROWS) :
    (rowRecord ws r).length = ROW_WORDS := by
  simp only [rowRecord, List.length_take, List.length_drop]
  simp only [FRAME_WORDS, NROWS, ROW_WORDS] at *
  omega

/-- A row record is its header word and the nine event slots after it (20_memory.md R67). -/
theorem rowRecord_eq_cons {ws : List Word} {r : Nat} (h : ws.length = FRAME_WORDS) (hr : r < NROWS) :
    ∃ slots, rowRecord ws r = ws.getD (ROW_WORDS * r) 0 :: slots ∧ slots.length = MAX_EVENTS ∧
      ∀ j, j < MAX_EVENTS → slots.getD j 0 = ws.getD (ROW_WORDS * r + (j + 1)) 0 := by
  have hlen := length_rowRecord h hr
  have hget := fun j => getD_rowRecord (ws := ws) (r := r) (j := j)
  cases hrow : rowRecord ws r with
  | nil =>
    rw [hrow] at hlen
    cases hlen
  | cons w slots =>
    rw [hrow] at hlen hget
    have hhead : w = ws.getD (ROW_WORDS * r) 0 := hget 0 (by decide)
    exact ⟨slots, by rw [hhead], Nat.succ.inj hlen, fun j hj => hget (j + 1) (Nat.succ_lt_succ hj)⟩

/-- The row record at a row's place decodes exactly when it is in stored form (R100, R101). -/
theorem exists_decodeRow_iff {ncols : Nat} {ws : List Word} {r : Nat}
    (h : ws.length = FRAME_WORDS) (hr : r < NROWS) :
    (∃ rs, decodeRow ncols (rowRecord ws r) = some rs) ↔ storedRow ncols ws (ROW_WORDS * r) := by
  obtain ⟨slots, hrow, hlen, hslot⟩ := rowRecord_eq_cons h hr
  simp only [hrow, decodeRow_cons_iff]
  constructor
  · rintro ⟨rs, -, hhead, hevs⟩
    obtain ⟨ht, hrest, hn, hb, -, -⟩ := decodeFrameWord_rowhdr_iff.mp hhead
    obtain ⟨hev, hz⟩ := exists_decodeEvents_iff.mp ⟨_, hevs⟩
    refine ⟨ht, hrest, hn, hb, ?_, ?_⟩
    · rintro (_ | j) h1 hj
      · cases h1
      · rw [← hslot j (by omega)]
        exact hev j hj
    · rintro (_ | j) hj h9
      · cases hj
      · rw [← hslot j h9]
        exact hz j (Nat.le_of_lt_succ hj)
  · rintro ⟨ht, hrest, hn, hb, hev, hz⟩
    have hevs : ∃ es, decodeEvents ncols (countOf (ws.getD (ROW_WORDS * r) 0)).toNat slots =
        some es := by
      refine exists_decodeEvents_iff.mpr ⟨fun j hj => ?_, fun j hj => ?_⟩
      · rw [hslot j (by omega)]
        exact hev (j + 1) (Nat.succ_pos j) hj
      · by_cases h9 : j < MAX_EVENTS
        · rw [hslot j h9]
          exact hz (j + 1) (Nat.lt_succ_of_le hj) h9
        · exact List.getD_eq_default _ _ (by omega)
    obtain ⟨es, hes⟩ := hevs
    exact ⟨⟨_, es⟩, hlen, decodeFrameWord_rowhdr_iff.mpr ⟨ht, hrest, hn, hb, rfl, rfl⟩, hes⟩

/-- The rule's conditions on the offsets, numbered from 1 (R100): first and last in range and each
below the next, exactly when all are in range and in strict order. -/
theorem offsetsOk_iff {evs : List Event} {off : Nat → Nat}
    (h : ∀ j e, evs[j]? = some e → off (j + 1) = e.off.toNat) :
    offsetsOk evs ↔ (1 ≤ evs.length → 1 ≤ off 1 ∧ off evs.length < ROW_TICKS) ∧
      ∀ j, 1 ≤ j → j + 1 ≤ evs.length → off j < off (j + 1) := by
  have hoff : ∀ j (hj : j < evs.length), off (j + 1) = evs[j].off.toNat := fun j hj =>
    h j _ (List.getElem?_eq_getElem hj)
  constructor
  · rintro ⟨hrange, hsorted⟩
    refine ⟨fun hn => ?_, ?_⟩
    · have hlast := hoff (evs.length - 1) (by omega)
      rw [Nat.sub_add_cancel hn] at hlast
      rw [hoff 0 hn, hlast]
      exact ⟨(hrange _ (List.getElem_mem _)).1, (hrange _ (List.getElem_mem _)).2⟩
    · rintro (_ | j) h1 hj
      · cases h1
      · rw [hoff j (by omega), hoff (j + 1) hj]
        exact List.pairwise_iff_getElem.mp hsorted j (j + 1) _ hj (Nat.lt_succ_self j)
  · rintro ⟨hends, hnext⟩
    have hlt : ∀ i j, i < j → j < evs.length → off (i + 1) < off (j + 1) := by
      intro i j hij
      induction j, hij using Nat.le_induction with
      | base => exact fun hj => hnext (i + 1) (Nat.succ_pos i) hj
      | succ j hij ih =>
        exact fun hj => (ih (by omega)).trans (hnext (j + 1) (Nat.succ_pos j) hj)
    constructor
    · intro e he
      obtain ⟨j, hj, rfl⟩ := List.getElem_of_mem he
      obtain ⟨hfirst, hlast⟩ := hends (by omega)
      rw [← hoff j hj]
      constructor
      · obtain rfl | hpos := Nat.eq_zero_or_pos j
        · exact hfirst
        · have := hlt 0 j hpos hj
          omega
      · obtain hend | hbefore := Nat.eq_or_lt_of_le (Nat.succ_le_of_lt hj)
        · rwa [← hend] at hlast
        · have := hlt j (evs.length - 1) (by omega) (by omega)
          rw [Nat.sub_add_cancel (by omega)] at this
          omega
    · refine List.pairwise_iff_getElem.mpr fun i j hi hj hij => ?_
      rw [← hoff i hi, ← hoff j hj]
      exact hlt i j hij hj

/-- A row record that decodes stands for a well-formed row exactly when its words meet the conditions
on offsets (R100). -/
theorem rowSched_ok_iff {ncols : Nat} {ws : List Word} {r : Nat} {rs : RowSched}
    (h : decodeRow ncols (rowRecord ws r) = some rs) :
    rs.ok ncols ↔ storedOffsets ws (ROW_WORDS * r) := by
  obtain ⟨hrow, hl, hi, hc⟩ := decodeRow_some h
  have hl' : rs.evs.length ≤ 9 := hl
  have hword : ∀ j, j < ROW_WORDS → ws.getD (ROW_WORDS * r + j) 0 = (encodeRow rs).getD j 0 :=
    fun j hj => hrow ▸ (getD_rowRecord hj).symm
  have hcount : (countOf (ws.getD (ROW_WORDS * r) 0)).toNat = rs.evs.length := by
    have hhead : ws.getD (ROW_WORDS * r) 0 = encodeHeader rs.init (BitVec.ofNat 4 rs.evs.length) :=
      hword 0 (by decide)
    rw [hhead, countOf_encodeHeader]
    simp
    omega
  have hoff : ∀ j e, rs.evs[j]? = some e →
      (argOf (ws.getD (ROW_WORDS * r + (j + 1)) 0)).toNat = e.off.toNat := by
    intro j e he
    have hj := (List.getElem?_eq_some_iff.mp he).1
    have hslot := getElem?_encodeRow he
    rw [hword (j + 1) (by simp only [ROW_WORDS]; omega), List.getD_eq_getElem?_getD,
      Nat.add_comm j 1, hslot]
    exact congrArg BitVec.toNat (argOf_frameWord ..)
  have hiff := offsetsOk_iff
    (off := fun j => (argOf (ws.getD (ROW_WORDS * r + j) 0)).toNat) hoff
  rw [← hcount] at hiff
  constructor
  · rintro ⟨-, -, -, ho⟩
    exact hiff.mp ho
  · exact fun ho => ⟨hl, hi, hc, hiff.mpr ho⟩

/-! ### Frames (R100, R101) -/

/-- An image decodes to a frame when it has 30 words and each row record decodes to that row. -/
theorem decodeFrame_iff {ncols : Nat} {ws : List Word} {f : Frame} :
    decodeFrame ncols ws = some f ↔
      ws.length = FRAME_WORDS ∧
        ∀ r, r < NROWS → decodeRow ncols (rowRecord ws r) = f.rowAt r := by
  have hlast : ws.length = FRAME_WORDS → rowRecord ws 2 = ws.drop 20 := fun h =>
    List.take_of_length_le (by simp [h, FRAME_WORDS, ROW_WORDS])
  constructor
  · intro h
    unfold decodeFrame at h
    split at h
    · rename_i r0 r1 r2 h0 h1 h2
      cases h
      have hlen : ws.length = FRAME_WORDS := by
        have := length_of_decodeRow h2
        simp only [List.length_drop, ROW_WORDS] at this
        simp only [FRAME_WORDS]
        omega
      refine ⟨hlen, fun r hr => ?_⟩
      match r, hr with
      | 0, _ => exact h0
      | 1, _ => exact h1
      | 2, _ => exact (hlast hlen).symm ▸ h2
    · cases h
  · rintro ⟨hlen, hrows⟩
    have h0 : decodeRow ncols (ws.take 10) = some f.row0 := hrows 0 (by decide)
    have h1 : decodeRow ncols ((ws.drop 10).take 10) = some f.row1 := hrows 1 (by decide)
    have h2 : decodeRow ncols (ws.drop 20) = some f.row2 := hlast hlen ▸ hrows 2 (by decide)
    simp only [decodeFrame, h0, h1, h2]

theorem frame_ok_iff {ncols : Nat} {f : Frame} :
    f.ok ncols ↔ ∀ r rs, f.rowAt r = some rs → rs.ok ncols := by
  constructor
  · rintro h r rs hr
    exact (memRead_row h hr).2
  · exact fun h => ⟨h 0 _ rfl, h 1 _ rfl, h 2 _ rfl⟩

/-- An image decodes to a frame whose rows satisfy P when its row records decode to such rows. -/
theorem exists_decodeFrame_iff {ncols : Nat} {ws : List Word} (P : RowSched → Prop) :
    (∃ f, decodeFrame ncols ws = some f ∧ ∀ r rs, f.rowAt r = some rs → P rs) ↔
      ws.length = FRAME_WORDS ∧
        ∀ r, r < NROWS → ∃ rs, decodeRow ncols (rowRecord ws r) = some rs ∧ P rs := by
  constructor
  · rintro ⟨f, hf, hP⟩
    obtain ⟨hlen, hrows⟩ := decodeFrame_iff.mp hf
    refine ⟨hlen, fun r hr => ?_⟩
    obtain ⟨rs, hrs⟩ := rowAt_total f (Nat.le_of_lt_succ hr)
    exact ⟨rs, (hrows r hr).trans hrs, hP r rs hrs⟩
  · rintro ⟨hlen, hrows⟩
    obtain ⟨r0, h0, p0⟩ := hrows 0 (by decide)
    obtain ⟨r1, h1, p1⟩ := hrows 1 (by decide)
    obtain ⟨r2, h2, p2⟩ := hrows 2 (by decide)
    refine ⟨⟨r0, r1, r2⟩, decodeFrame_iff.mpr ⟨hlen, fun r hr => ?_⟩, fun r rs hr => ?_⟩
    · match r, hr with
      | 0, _ => exact h0
      | 1, _ => exact h1
      | 2, _ => exact h2
    · match r, hr with
      | 0, rfl => exact p0
      | 1, rfl => exact p1
      | 2, rfl => exact p2

/-- An image decodes exactly when it is in stored form (R101, log entry 19). -/
theorem decodes_iff_storedFrame {ncols : Nat} {ws : List Word} :
    (∃ f, decodeFrame ncols ws = some f) ↔ storedFrame ncols ws := by
  have h := exists_decodeFrame_iff (ncols := ncols) (ws := ws) fun _ => True
  simp only [implies_true, and_true] at h
  rw [h]
  exact and_congr_right fun hlen => forall₂_congr fun r hr => exists_decodeRow_iff hlen hr

/-- `WF` of an image is `WF` of the rows that its records decode to (R100). -/
theorem frameOk_iff_rows {ncols : Nat} {ws : List Word} :
    frameOk ncols ws = true ↔ ws.length = FRAME_WORDS ∧
      ∀ r, r < NROWS → ∃ rs, decodeRow ncols (rowRecord ws r) = some rs ∧ rs.ok ncols := by
  rw [← exists_decodeFrame_iff]
  simp only [← frame_ok_iff]
  unfold frameOk
  split <;> simp [*]

theorem row_wf_iff {ncols : Nat} {ws : List Word} {r : Nat} (h : ws.length = FRAME_WORDS)
    (hr : r < NROWS) :
    (∃ rs, decodeRow ncols (rowRecord ws r) = some rs ∧ rs.ok ncols) ↔
      storedRow ncols ws (ROW_WORDS * r) ∧ storedOffsets ws (ROW_WORDS * r) := by
  rw [← exists_decodeRow_iff h hr]
  constructor
  · rintro ⟨rs, hd, hok⟩
    exact ⟨⟨rs, hd⟩, (rowSched_ok_iff hd).mp hok⟩
  · rintro ⟨⟨rs, hd⟩, ho⟩
    exact ⟨rs, hd, (rowSched_ok_iff hd).mpr ho⟩

theorem frameOk_iff_stored {ncols : Nat} {ws : List Word} :
    frameOk ncols ws = true ↔
      storedFrame ncols ws ∧ ∀ r, r < NROWS → storedOffsets ws (ROW_WORDS * r) := by
  rw [frameOk_iff_rows, storedFrame, and_assoc]
  refine and_congr_right fun hlen => ?_
  rw [← forall₂_and]
  exact forall₂_congr fun r hr => row_wf_iff hlen hr

theorem allOff_ok (ncols : Nat) : allOff.ok ncols := by
  have hrow : allOffRow.ok ncols := by simp [RowSched.ok, allOffRow, offsetsOk, belowCols]
  exact ⟨hrow, hrow, hrow⟩

theorem frameOk_of_compileFrame {cfg : Config} {img : Image} {f : Frame} (hc : cfg.ok)
    (h : compileFrame cfg img = .ok f) : frameOk cfg.ncols (encodeFrame f) = true :=
  frameOk_iff.mpr ⟨f, compileFrame_wf hc h, rfl⟩

/-! ### The statements on stored frames -/

/-- Settles O3: a well-formed frame is read back row by row; an image decodes exactly when it is in
stored form, and then it is the stored form of what it decodes to. -/
theorem storedFramesAreABijection : Obligations.StoredFramesAreABijection := by
  intro ncols
  refine ⟨?_, fun ws hs => ?_, fun ws hs => ?_⟩
  · rintro f ⟨⟨l0, i0, c0, -⟩, ⟨l1, i1, c1, -⟩, ⟨l2, i2, c2, -⟩⟩
    exact decodeFrame_encodeFrame_of_rows l0 l1 (decodeRow_encodeRow l0 i0 c0)
      (decodeRow_encodeRow l1 i1 c1) (decodeRow_encodeRow l2 i2 c2)
  · obtain ⟨f, hf⟩ := decodes_iff_storedFrame.mpr hs
    exact ⟨f, hf, (decodeFrame_some hf).1.symm⟩
  · exact Option.eq_none_iff_forall_ne_some.mpr fun f hf =>
      hs (decodes_iff_storedFrame.mp ⟨f, hf⟩)

/-- Settles O4: the machine's check asks of each row record that it decodes, which is the stored form,
to a well-formed row, which is the conditions on the offsets. -/
theorem frameCheckIsTheWellFormednessRule : Obligations.FrameCheckIsTheWellFormednessRule :=
  ⟨fun _ _ => frameOk_iff_stored, fun ncols => frameOk_iff.mpr ⟨allOff, allOff_ok ncols, rfl⟩,
    fun _ _ _ => frameOk_of_compileFrame⟩

/-! ### Frame words played, and `show` -/

/-- Settles O38 by the two engine laws of a well-formed row; the row record is latched already. -/
theorem frameWordsPlayAsTheEngineDoes : Obligations.FrameWordsPlayAsTheEngineDoes := by
  intro s rs hrs hb
  refine ⟨?_, fun e he => Legality.execEvt_eq hrs hb he⟩
  have hplay := Legality.execRowhdr_eq hrs hb
  rw [Legality.rowStarted, ← hb] at hplay
  exact hplay

theorem execShowImage_eq {s : State} {img : Image} {f : Frame}
    (h : compileFrame s.cfg img = .ok f) :
    execShowImage img s = .next
      { s with
        prog := .op (.port (setFrameCommand (encodeFrame f))) :: s.prog
        result := .frame (encodeFrame f) } := by
  rw [execShowImage, h]
  rfl

theorem execSetFrame_eq {s : State} {f : List Word} (hi : s.inited = true)
    (hf : frameOk s.cfg.ncols f = true) : execSetFrame f s = .next { s with frame := f } := by
  simp [execSetFrame, onceInitialised, hi, hf]

/-- A scheduled foreground operation at the head of the program is performed on the rest. -/
theorem step_foreground_op {s : State} {o : ForegroundOp} {i : Instr} {p : List ScriptLine}
    {l : List Move} (hd : deliverable s = false) (ho : decodeForeground o = .ok i) :
    step { s with prog := .op o :: p, sched := .foreground :: l } =
      exec i { s with prog := p, sched := l } :=
  step_scheduled_foreground hd rfl rfl ho

/-- Settles O42: the compiler answers, the first step is the `COMPILE` that queues the `SET_FRAME`, and
the second performs it on the compiled frame, which is well-formed. -/
theorem showCompilesThenSetsTheFrame : Obligations.ShowCompilesThenSetsTheFrame := by
  intro s img hc hw hp
  obtain ⟨f, hf⟩ := compileFrame_total hc hw hp
  refine ⟨f, hf, execShowImage_eq hf, fun hi hd => ?_⟩
  have hshow : decodeForeground (.showImage img) = .ok (.showImage img) := by
    simp [decodeForeground, hw]
  have hset : decodeForeground (.port (setFrameCommand (encodeFrame f))) =
      .ok (.setFrame (encodeFrame f)) :=
    decodeCommand_setFrame (length_encodeFrame (compileFrame_wf hc hf))
  have hfirst := (step_foreground_op (p := s.prog) (l := .foreground :: s.sched) hd hshow).trans
    (execShowImage_eq hf)
  have hsecond := (step_foreground_op (s := { s with result := .frame (encodeFrame f) })
    (p := s.prog) (l := s.sched) hd hset).trans (execSetFrame_eq hi (frameOk_of_compileFrame hc hf))
  rw [steps, hfirst, andThen_next, steps, hsecond]
  rfl

end Sys2Proof.Proofs.Encoding
end

section
/-!
PROOFS of 40_brightness_image.md: the lookups return their value, raise `LevelRange` or are refused
(R131, R132, R136 to R138); in the slot of a compiled row an LED is lit for the threshold of its cell's
level (R134, 41_frame_compiler.md R160). Two facts on the way to the second stand apart: the time the
schedule of a compiled row gives a column (`highTicks_compileRow`), and what the machine plays in one
slot of any well-formed row (`StartsRow.plays_slot`, 42_display_engine.md R184 to R187).
-/
namespace Sys2Proof.Proofs.Brightness
open Sys2Proof Sys2Proof.Machine Sys2Proof.Laws Sys2Proof.Proofs.Legality

/-! ### Lookups (R131, R132, R136 to R138) -/

theorem clampLevel_min {policy : LevelPolicy} {v : Byte} (h : v.toNat ≤ 9 ∨ policy = .clamp) :
    clampLevel policy v = .ok (BitVec.ofNat 4 (min v.toNat 9)) := by
  obtain h | rfl := h
  · rw [clampLevel_le h, Nat.min_eq_left h]
  · exact clampLevel_clamp v

theorem clampLevel_reject {v : Byte} (h : 9 < v.toNat) :
    clampLevel .reject v = .error (.raises (.levelRange v)) := by
  simp [clampLevel, MAX_LEVEL, h]

theorem threshold_beyond {trom : List Half} {l : Nat} (h : trom.length ≤ l) :
    threshold trom l = .error (.refused (.indexOutOfRange l)) := by
  simp [threshold, List.getElem?_eq_none h]

/-- What a lookup of a level does with a clamped byte: it returns the level, at most 9, or raises
`LevelRange` (R131, 60_exceptions.md R251). -/
theorem orRaise_clampLevel (s : State) (v : Byte) :
    let o := orRaise (clampLevel s.cfg.levelPolicy v) s fun l => returnValue (.level l) s
    (v.toNat ≤ 9 ∨ s.cfg.levelPolicy = .clamp →
      o = .next { s with result := .level (BitVec.ofNat 4 (min v.toNat 9)) }) ∧
    (9 < v.toNat → s.cfg.levelPolicy = .reject →
      o = .next { s with prog := [], result := .raised (.levelRange v) }) := by
  constructor
  · intro h
    rw [clampLevel_min h, orRaise_ok, returnValue]
  · intro h hp
    rw [hp, clampLevel_reject h, orRaise_raises, raise]

theorem execThresholdOf_entry {s : State} {l : Level} {t : Half}
    (h : s.cfg.trom[l.toNat]? = some t) :
    execThresholdOf l s = .next { s with result := .ticks t } := by
  obtain ⟨hl, rfl⟩ := List.getElem?_eq_some_iff.mp h
  rw [execThresholdOf, threshold_eq _ hl, orRaise_ok, returnValue]

/-- Settles O24, by what a lookup does with a clamped byte. -/
theorem clampReadsHighLevelsAsNine : Obligations.ClampReadsHighLevelsAsNine := by
  intro s v
  obtain ⟨hreturns, hraises⟩ := orRaise_clampLevel s v
  refine ⟨fun h => ?_, fun h hp => ?_, hraises⟩
  · have hv := hreturns (.inl h)
    rwa [Nat.min_eq_left h] at hv
  · have hv := hreturns (.inr hp)
    rwa [Nat.min_eq_right h.le] at hv

/-- Settles O25, from what the configuration check says of the table (00_scope.md R9). -/
theorem thresholdIsATableEntry : Obligations.ThresholdIsATableEntry := by
  intro s hc
  obtain ⟨-, -, -, htrom, -⟩ := hc
  have ⟨hlen, hzero, hnine, _⟩ := htrom
  refine ⟨fun l hl => ?_, fun l hl => ?_, execThresholdOf_entry hzero, execThresholdOf_entry hnine,
    fun l1 l2 t1 t2 hlt h1 h2 => trom_lt htrom hlt h1 h2⟩
  · have hin : l.toNat < s.cfg.trom.length := hlen ▸ Nat.lt_succ_of_le hl
    have hentry := List.getElem?_eq_getElem hin
    exact ⟨_, hentry, execThresholdOf_entry hentry⟩
  · have hout : threshold s.cfg.trom l.toNat = _ := threshold_beyond (hlen ▸ hl)
    show execThresholdOf l s = _
    rw [execThresholdOf, hout, orRaise_refused]

/-- Settles O26: inside the grid a greyscale lookup clamps the byte of its cell. -/
theorem greyImageReadsItsCell : Obligations.GreyImageReadsItsCell := by
  intro s buf x y hb
  constructor
  · intro hx hy
    obtain ⟨v, hv, hlevel⟩ := greyLevel_in (policy := s.cfg.levelPolicy) hb
      (Nat.lt_succ_of_le hx) (Nat.lt_succ_of_le hy)
    have hexec : exec (.greyBrightnessAt buf x y) s =
        orRaise (clampLevel s.cfg.levelPolicy v) s fun l => returnValue (.level l) s := by
      rw [← hlevel]
      rfl
    exact ⟨v, hv, hexec ▸ orRaise_clampLevel s v⟩
  · intro hout
    have hgrid : ¬ (x < IMG_W ∧ y < IMG_H) := by simp only [IMG_W, IMG_H]; omega
    show execGreyBrightnessAt buf x y s = _
    rw [execGreyBrightnessAt, greyLevel_out hgrid, orRaise_refused]

/-- Settles O27: inside the grid a binary lookup reads the bit of its cell. -/
theorem bitImageReadsItsCell : Obligations.BitImageReadsItsCell := by
  intro s buf x y hb
  constructor
  · intro hx hy
    obtain ⟨v, hv, hlevel⟩ := bitLevel_in hb (Nat.lt_succ_of_le hx) (Nat.lt_succ_of_le hy)
    show execBitBrightnessAt buf x y s = _
    rw [execBitBrightnessAt, hlevel, orRaise_ok, returnValue, List.getD_eq_getElem?_getD, hv,
      Option.getD_some]
  · intro hout
    have hgrid : ¬ (x < IMG_W ∧ y < IMG_H) := by simp only [IMG_W, IMG_H]; omega
    show execBitBrightnessAt buf x y s = _
    rw [execBitBrightnessAt, bitLevel_out hgrid, orRaise_refused]

/-! ### The time a schedule gives a column (R134, 41_frame_compiler.md R152 to R156) -/

/-- The events of a compiled row that clear a column: the one of the column's level. -/
theorem event_of_cleared {cfg : Config} (hc : cfg.ok) {img : Image} (hw : img.wf = true) {r : Nat}
    {levels : List Level} (hl : rowLevels cfg img r = .ok levels) {e : Event} {c : Nat}
    (he : e ∈ eventLevels.filterMap (eventFor cfg.trom levels)) (hclr : e.clr.getLsbD c = true) :
    shownLevel cfg img r c ≤ 8 ∧ cfg.trom[shownLevel cfg img r c]? = some e.off := by
  obtain ⟨l, h1, h8, hl'⟩ := mem_scheduleEvents.mp he
  obtain ⟨-, hoff, hset⟩ := eventFor_some.mp hl'
  have hlevel : shownLevel cfg img r c = l :=
    (columnsWhere_shown hc hw hl (p := (· = l)) (by simp) (by omega) c).mp (hset ▸ hclr)
  exact hlevel ▸ ⟨h8, hoff⟩

/-- A column of a level in 1..8 has an event that clears it. -/
theorem exists_event_clearing {cfg : Config} (hc : cfg.ok) {img : Image} (hw : img.wf = true)
    {r : Nat} {levels : List Level} (hl : rowLevels cfg img r = .ok levels) {c : Nat} {t : Half}
    (h1 : 1 ≤ shownLevel cfg img r c) (h8 : shownLevel cfg img r c ≤ 8)
    (ht : cfg.trom[shownLevel cfg img r c]? = some t) :
    ∃ e ∈ eventLevels.filterMap (eventFor cfg.trom levels), e.clr.getLsbD c = true := by
  have hset := (columnsWhere_shown hc hw hl (q := fun v => v.toNat == shownLevel cfg img r c)
    (p := (· = shownLevel cfg img r c)) (by simp) (by omega) c).mpr rfl
  refine ⟨⟨t, _⟩, mem_scheduleEvents.mpr ⟨_, h1, h8, eventFor_some.mpr ⟨?_, ht, rfl⟩⟩, hset⟩
  intro h0
  rw [h0] at hset
  simp at hset

/-- The schedule of a compiled row holds each column high for the threshold of its level (R134). -/
theorem highTicks_compileRow {cfg : Config} (hc : cfg.ok) {img : Image} (hw : img.wf = true)
    {r : Nat} {rs : RowSched} (h : compileRow cfg img r = .ok rs) {c : Nat} {t : Half}
    (ht : cfg.trom[shownLevel cfg img r c]? = some t) : highTicks rs c = t.toNat := by
  obtain ⟨-, levels, hl, hs⟩ := compileRow_ok h
  have ⟨_, _, _, htrom, _⟩ := hc
  have ⟨hlen, hzero, hnine, _⟩ := htrom
  rw [scheduleOf_eq htrom] at hs
  cases hs
  have hinit := columnsWhere_shown hc hw hl (q := fun v => v.toNat != 0) (p := (· ≠ 0)) (by simp)
    (by simp) c
  rw [highTicks]
  by_cases h0 : shownLevel cfg img r c = 0
  · rw [if_neg (by simpa [hinit] using h0)]
    rw [h0, hzero] at ht
    cases ht
    rfl
  rw [if_pos (hinit.mpr h0)]
  split
  next e he =>
    have hcleared := List.find?_some he
    obtain ⟨-, hoff⟩ := event_of_cleared hc hw hl (List.mem_of_find?_eq_some he) hcleared
    rw [ht] at hoff
    cases hoff
    rfl
  next hnone =>
    have hfull : shownLevel cfg img r c = 9 := by
      have hlt := (List.getElem?_eq_some_iff.mp ht).1
      rw [hlen, NLEVELS] at hlt
      by_contra hne
      obtain ⟨e, he, hclr⟩ := exists_event_clearing hc hw hl (by omega) (by omega) ht
      exact List.find?_eq_none.mp hnone e he hclr
    rw [hfull, show cfg.trom[9]? = some 375 from hnine] at ht
    cases ht
    rfl

/-! ### Runs of a machine left to itself, and what is seen of them (00_scope.md R14, R18) -/

/-- `n` steps lead from `s` to `t`; they take `ticks` ticks, in `seen` of which the LED at (r, c) is
lit. -/
structure Plays (r c n : Nat) (s t : State) (ticks seen : Nat) : Prop where
  run : steps n s = .next t
  ticks : tickCount n s = ticks
  seen : litTicks r c n s = seen

theorem Plays.refl (r c : Nat) (s : State) : Plays r c 0 s s 0 0 := ⟨rfl, rfl, rfl⟩

theorem Plays.trans {r c a b : Nat} {s t u : State} {ta tb la lb : Nat}
    (h : Plays r c a s t ta la) (h' : Plays r c b t u tb lb) :
    Plays r c (a + b) s u (ta + tb) (la + lb) where
  run := by rw [steps_add, h.run, andThen_next, h'.run]
  ticks := by rw [tickCount_add h.run, h.ticks, h'.ticks]
  seen := by rw [litTicks_add h.run, h.seen, h'.seen]

/-- The machine runs, with no foreground program and no schedule. -/
structure LeftAlone (s : State) : Prop where
  inited : s.inited = true
  run : s.run = true
  prog : s.prog = []
  sched : s.sched = []

theorem deliverable_of_not_pending {s : State} (h : s.pending = false) : deliverable s = false := by
  simp [deliverable, h]

/-- Without a pending event the step is a tick (43_timer_gpio_adapter.md R204). -/
theorem LeftAlone.plays_tick {s : State} (h : LeftAlone s) (hp : s.pending = false) (r c : Nat) :
    Plays r c 1 s (tickOnce s) 1 (if lit s r c then 1 else 0) := by
  have hd := deliverable_of_not_pending hp
  obtain ⟨hturn, hstep⟩ :=
    step_free_tick hd (by simp [tickEnabled, h.inited, h.run, hd]) h.prog h.sched
  have hnext : ticksNext s = true := by rw [ticksNext, hturn]
  constructor <;> simp [steps, tickCount, litTicks, hstep, hnext]

/-- A deliverable event is handled first, in no time (42_display_engine.md R183). -/
theorem LeftAlone.plays_event {s t : State} (h : LeftAlone s) (hd : deliverable s = true)
    (hx : dispatchPhase { s with pending := false, waited := 0 } = .next t) (r c : Nat) :
    Plays r c 1 s t 0 0 := by
  have hturn : turn s = .engine s := by simp [turn, h.sched, freeTurn, hd]
  have hstep : step s = .next t :=
    (Scope.step_of_engine hturn).trans ((execHandleEvent_eq hd).trans hx)
  have hnext : ticksNext s = false := by rw [ticksNext, hturn]
  constructor <;> simp [steps, tickCount, litTicks, hstep, hnext]

/-- The state `m` ticks later, no compare met. -/
def ticked (m : Nat) (s : State) : State := { s with cnt := s.cnt + BitVec.ofNat 16 m }

theorem waitedAfterTick_ticked {s : State} (hp : s.pending = false) (hw : s.waited = 0) {m : Nat} :
    waitedAfterTick (ticked m s) = s.waited := by
  simp [waitedAfterTick, ticked, deliverable, hp, hw]

/-- A tick short of the compare moves only the counter (R204). -/
theorem tickOnce_ticked {s : State} (hp : s.pending = false) (hw : s.waited = 0) {m : Nat}
    (h : s.cnt + BitVec.ofNat 16 (m + 1) ≠ s.cmp) : tickOnce (ticked m s) = ticked (m + 1) s := by
  have hpend : pendingAfter s.pending (s.cnt + BitVec.ofNat 16 (m + 1)) s.cmp = s.pending := by
    rw [hp, pendingAfter, Bool.false_or, beq_eq_false_iff_ne]
    exact h
  unfold tickOnce
  rw [waitedAfterTick_ticked hp hw]
  simp only [ticked, hpend, cnt_add_one]

/-- The tick that meets the compare sets the flag (R204). -/
theorem tickOnce_ticked_fire {s : State} (hp : s.pending = false) (hw : s.waited = 0) {m : Nat}
    (h : s.cmp = s.cnt + BitVec.ofNat 16 (m + 1)) :
    tickOnce (ticked m s) = { s with cnt := s.cmp, pending := true } := by
  rw [← cnt_add_one] at h
  unfold tickOnce
  rw [waitedAfterTick_ticked hp hw]
  simp [ticked, pendingAfter, h]

theorem LeftAlone.plays_ticked_succ {s : State} (h : LeftAlone s) (hp : s.pending = false)
    {r c m : Nat} (hm : Plays r c m s (ticked m s) m (if lit s r c then m else 0)) :
    Plays r c (m + 1) s (tickOnce (ticked m s)) (m + 1) (if lit s r c then m + 1 else 0) := by
  have halone : LeftAlone (ticked m s) := ⟨h.inited, h.run, h.prog, h.sched⟩
  have htick := halone.plays_tick hp r c
  have hlit : lit (ticked m s) r c = lit s r c := rfl
  rw [hlit] at htick
  have hsum : (if lit s r c then m else 0) + (if lit s r c then 1 else 0) =
      if lit s r c then m + 1 else 0 := by split <;> rfl
  exact hsum ▸ hm.trans htick

/-- Short of the compare, a machine left to itself only counts. -/
theorem LeftAlone.plays_ticked {s : State} (h : LeftAlone s) (hp : s.pending = false)
    (hw : s.waited = 0) {n : Nat} (hn : n ≤ 65535) (hcmp : s.cmp = s.cnt + BitVec.ofNat 16 n)
    (r c : Nat) {m : Nat} (hm : m < n) :
    Plays r c m s (ticked m s) m (if lit s r c then m else 0) := by
  induction m with
  | zero => simpa [ticked] using Plays.refl r c s
  | succ m ih =>
    have hne : s.cnt + BitVec.ofNat 16 (m + 1) ≠ s.cmp := hcmp ▸ cnt_ne hm hn
    exact tickOnce_ticked hp hw hne ▸ h.plays_ticked_succ hp (ih (by omega))

/-- After exactly as many ticks as were asked for the event is pending (R202, R204). -/
theorem LeftAlone.plays_until_fire {s : State} (h : LeftAlone s) (hp : s.pending = false)
    (hw : s.waited = 0) {n : Nat} (h1 : 1 ≤ n) (hn : n ≤ 65535)
    (hcmp : s.cmp = s.cnt + BitVec.ofNat 16 n) (r c : Nat) :
    Plays r c n s { s with cnt := s.cmp, pending := true } n (if lit s r c then n else 0) := by
  obtain ⟨m, rfl⟩ := Nat.exists_eq_add_of_le' h1
  have hticked := h.plays_ticked hp hw hn hcmp r c m.lt_succ_self
  exact tickOnce_ticked_fire hp hw hcmp ▸ h.plays_ticked_succ hp hticked

/-! ### One slot of a well-formed row (42_display_engine.md R184 to R187) -/

/-- The offset at which a list of events first clears a column, or the end of the slot. -/
def clearedAt (evs : List Event) (c : Nat) : Nat :=
  match evs.find? fun e => e.clr.getLsbD c with
  | some e => e.off.toNat
  | none => ROW_TICKS

theorem highTicks_eq (rs : RowSched) (c : Nat) :
    highTicks rs c = if rs.init.getLsbD c then clearedAt rs.evs c else 0 := rfl

theorem clearedAt_cons (e : Event) (es : List Event) (c : Nat) :
    clearedAt (e :: es) c = if e.clr.getLsbD c then e.off.toNat else clearedAt es c := by
  cases h : e.clr.getLsbD c <;> simp [clearedAt, h]

theorem firstFire_drop_le {ncols : Nat} {rs : RowSched} (h : rs.ok ncols) (j : Nat) :
    (firstFire (rs.evs.drop j)).toNat ≤ ROW_TICKS := by
  cases hes : rs.evs.drop j with
  | nil => simp [firstFire, ROW_TICKS]
  | cons e es =>
    obtain ⟨-, -, -, hrange, -⟩ := h
    exact (hrange e (List.mem_of_mem_drop (hes ▸ List.mem_cons_self))).2.le

/-- No column is cleared before the first fire. -/
theorem firstFire_le_clearedAt {ncols : Nat} {rs : RowSched} (h : rs.ok ncols) (j c : Nat) :
    (firstFire (rs.evs.drop j)).toNat ≤ clearedAt (rs.evs.drop j) c := by
  have ⟨_, _, _, _, hsorted⟩ := h
  have hend := firstFire_drop_le h j
  cases hes : rs.evs.drop j with
  | nil => rwa [hes] at hend
  | cons e es =>
    have hsuffix := hsorted.drop (i := j)
    rw [hes, List.pairwise_cons] at hsuffix
    rw [hes] at hend
    rw [clearedAt]
    split
    next e' he' =>
      obtain rfl | hmem := List.mem_cons.mp (List.mem_of_find?_eq_some he')
      · exact le_rfl
      · exact (hsuffix.1 e' hmem).le
    next => exact hend

/-- Inside the slot of row `rs`, left to itself, with the first `j` events played. -/
structure InSlot (rs : RowSched) (j : Nat) (s : State) : Prop where
  alone : LeftAlone s
  irqEn : s.irqEn = true
  pending : s.pending = false
  waited : s.waited = 0
  rowOk : rs.ok s.cfg.ncols
  latched : s.rowbuf = encodeRow rs
  columns : s.colout = s.cols
  phase : s.phase = if j < rs.evs.length then 1 else 2
  cursor : s.k.toNat = if j < rs.evs.length then j else 0
  elapsed : s.elapsed.toNat < (firstFire (rs.evs.drop j)).toNat
  armed : s.cmp = s.cnt + (firstFire (rs.evs.drop j) - s.elapsed)

/-- The wait for the next fire of the slot. -/
theorem InSlot.plays_wait {rs : RowSched} {j : Nat} {s : State} (h : InSlot rs j s) (r c : Nat) :
    let n := (firstFire (rs.evs.drop j)).toNat - s.elapsed.toNat
    Plays r c n s { s with cnt := s.cmp, pending := true } n (if lit s r c then n else 0) := by
  have hlt := h.elapsed
  have hle := firstFire_drop_le h.rowOk j
  have hsub : (firstFire (rs.evs.drop j) - s.elapsed).toNat =
      (firstFire (rs.evs.drop j)).toNat - s.elapsed.toNat :=
    BitVec.toNat_sub_of_le (by rw [BitVec.le_def]; omega)
  rw [ROW_TICKS] at hle
  refine h.alone.plays_until_fire h.pending h.waited (by omega) (by omega) ?_ r c
  rw [h.armed, ← hsub, BitVec.ofNat_toNat, BitVec.setWidth_eq]

/-- The state in the slot after event `e`, played at its fire. -/
def afterEvent (rs : RowSched) (e : Event) (s : State) : State :=
  eventPlayed rs e { s with cnt := s.cmp }

theorem dispatchPhase_event {s : State} (h : s.phase = 1) : dispatchPhase s = rowEvent s := by
  rw [dispatchPhase, h]
  rfl

theorem dispatchPhase_start {s : State} (h : s.phase = 0) : dispatchPhase s = rowStart s := by
  rw [dispatchPhase, h]
  rfl

theorem dispatchPhase_end {s : State} (h : s.phase = 2) :
    dispatchPhase s = rowStart (advanceRow s) := by
  rw [dispatchPhase, h]
  rfl

/-- The event at the cursor is handled once it is pending (R185). -/
theorem InSlot.plays_event {rs : RowSched} {j : Nat} {s : State} (h : InSlot rs j s) {e : Event}
    (he : rs.evs[j]? = some e) (r c : Nat) :
    Plays r c 1 { s with cnt := s.cmp, pending := true } (afterEvent rs e s) 0 0 := by
  have hj : j < rs.evs.length := (List.getElem?_eq_some_iff.mp he).1
  have hk : s.k.toNat = j := by rw [h.cursor, if_pos hj]
  have hphase : s.phase = 1 := by rw [h.phase, if_pos hj]
  have hevent : dispatchPhase { s with cnt := s.cmp } = .next (afterEvent rs e s) :=
    (dispatchPhase_event (s := { s with cnt := s.cmp }) hphase).trans
      (rowEvent_eq (s := { s with cnt := s.cmp }) h.rowOk h.latched (hk ▸ he))
  refine LeftAlone.plays_event (s := { s with cnt := s.cmp, pending := true })
    ⟨h.alone.inited, h.alone.run, h.alone.prog, h.alone.sched⟩
    (deliverable_iff.mpr ⟨h.alone.inited, rfl, h.irqEn⟩) ?_ r c
  rw [← hevent, ← h.pending, ← h.waited]

/-- After an event the slot goes on with the next (R185, R186). -/
theorem InSlot.next {rs : RowSched} {j : Nat} {s : State} (h : InSlot rs j s) {e : Event}
    (he : rs.evs[j]? = some e) : InSlot rs (j + 1) (afterEvent rs e s) := by
  have hj : j < rs.evs.length := (List.getElem?_eq_some_iff.mp he).1
  have hk : s.k.toNat = j := by rw [h.cursor, if_pos hj]
  obtain ⟨-, hlt, -⟩ := fire_after_event h.rowOk he
  exact
    { alone := ⟨h.alone.inited, h.alone.run, h.alone.prog, h.alone.sched⟩
      irqEn := h.irqEn
      pending := h.pending
      waited := h.waited
      rowOk := h.rowOk
      latched := h.latched
      columns := rfl
      phase := by simp only [afterEvent, eventPlayed, hk]
      cursor := by
        simp only [afterEvent, eventPlayed, hk]
        split
        · rw [toNat_cursor_succ h.rowOk (hk ▸ ‹_›), hk]
        · rfl
      elapsed := hlt
      armed := by simp only [afterEvent, eventPlayed, hk] }

/-- Playing an event puts out the LEDs of the columns it clears. -/
theorem lit_afterEvent {rs : RowSched} {e : Event} {s : State} (h : s.colout = s.cols)
    (r c : Nat) : lit (afterEvent rs e s) r c = (lit s r c && !e.clr.getLsbD c) := by
  by_cases hc : c < 14
  · simp [lit, afterEvent, eventPlayed, h, hc, Bool.and_assoc]
  · simp [lit, afterEvent, eventPlayed, h, BitVec.getLsbD_of_ge _ _ (not_lt.mp hc)]

/-- The row boundary that ends a slot: its event is pending, the counter at its compare. Beside the
cursor only `ELAPSED` and the columns have changed. -/
def slotEnded (elapsed : Half) (cols : ColPat) (s : State) : State :=
  { s with
    phase := 2
    k := 0
    elapsed := elapsed
    cols := cols
    colout := cols
    cnt := s.cnt + (BitVec.ofNat 16 ROW_TICKS - s.elapsed)
    cmp := s.cnt + (BitVec.ofNat 16 ROW_TICKS - s.elapsed)
    pending := true }

/-- The wait for the row boundary, after the last event. -/
theorem InSlot.plays_to_boundary {rs : RowSched} {s : State} {j : Nat} (h : InSlot rs j s)
    (hj : rs.evs.drop j = []) (r c : Nat) :
    Plays r c (ROW_TICKS - s.elapsed.toNat) s (slotEnded s.elapsed s.cols s)
      (ROW_TICKS - s.elapsed.toNat) (if lit s r c then ROW_TICKS - s.elapsed.toNat else 0) := by
  have hwait := h.plays_wait r c
  have hlast : ¬ j < rs.evs.length := by simpa using hj
  have hcmp := h.armed
  have hphase := h.phase
  have hk := h.cursor
  rw [hj, firstFire] at hcmp
  rw [if_neg hlast] at hphase hk
  have hk : s.k = 0 := BitVec.eq_of_toNat_eq hk
  have hend : slotEnded s.elapsed s.cols s = { s with cnt := s.cmp, pending := true } := by
    simp only [slotEnded, ← hcmp, ← hphase, ← hk]
    rw [← h.columns]
  rw [hj] at hwait
  exact hend ▸ hwait

theorem slotEnded_afterEvent (elapsed : Half) (cols : ColPat) {rs : RowSched} {e : Event} {s : State}
    (h : s.cmp = s.cnt + (e.off - s.elapsed)) :
    slotEnded elapsed cols (afterEvent rs e s) = slotEnded elapsed cols s := by
  have hcnt : s.cmp + (BitVec.ofNat 16 ROW_TICKS - e.off) =
      s.cnt + (BitVec.ofNat 16 ROW_TICKS - s.elapsed) := by
    rw [h]
    ring
  simp only [slotEnded, afterEvent, eventPlayed, hcnt]

/-- The rest of a slot: its ticks up to 375 and its events, to the row boundary. A lit LED stays lit
until its column is cleared. -/
theorem InSlot.plays_rest {rs : RowSched} (r c : Nat) {es : List Event} : ∀ {j : Nat} {s : State},
    InSlot rs j s → rs.evs.drop j = es →
    ∃ elapsed cols, Plays r c (es.length + (ROW_TICKS - s.elapsed.toNat)) s
      (slotEnded elapsed cols s) (ROW_TICKS - s.elapsed.toNat)
      (if lit s r c then clearedAt es c - s.elapsed.toNat else 0) := by
  induction es with
  | nil =>
    intro j s h hes
    exact ⟨s.elapsed, s.cols, by simpa [clearedAt] using h.plays_to_boundary hes r c⟩
  | cons e es ih =>
    intro j s h hes
    have he : rs.evs[j]? = some e := by
      have hhead := congrArg (·[0]?) hes
      simpa using hhead
    have htail : rs.evs.drop (j + 1) = es := by rw [← List.tail_drop, hes, List.tail_cons]
    have hwait := h.plays_wait r c
    have hlt := h.elapsed
    have hcmp := h.armed
    rw [hes, firstFire] at hwait hlt hcmp
    have hoff : e.off.toNat < ROW_TICKS := (off_range h.rowOk he).2
    obtain ⟨-, hfire, -⟩ := fire_after_event h.rowOk he
    have hclear := firstFire_le_clearedAt h.rowOk (j + 1) c
    rw [htail] at hfire hclear
    obtain ⟨elapsed, cols, hrest⟩ := ih (h.next he) htail
    rw [slotEnded_afterEvent _ _ hcmp, lit_afterEvent h.columns,
      show (afterEvent rs e s).elapsed = e.off from rfl] at hrest
    refine ⟨elapsed, cols, ?_⟩
    convert (hwait.trans (h.plays_event he r c)).trans hrest using 1
    · rw [List.length_cons]
      omega
    · omega
    · rw [clearedAt_cons]
      cases lit s r c <;> cases e.clr.getLsbD c <;> simp
      omega

/-- The machine, left to itself with the interrupt open, is about to start row `r`: it is at a row
boundary with its event pending (42_display_engine.md R184, R187). -/
structure StartsRow (r : Nat) (s : State) : Prop where
  inv : Inv s
  alone : LeftAlone s
  pending : s.pending = true
  irqEn : s.irqEn = true
  boundary : s.phase ≠ 1
  row : r = if s.phase = 0 then s.row.toNat else (s.row.toNat + 1) % 3

/-- The state after the event that starts row `r`. -/
def rowBegun (rs : RowSched) (r : Nat) (s : State) : State :=
  rowStarted rs { s with row := BitVec.ofNat 2 r, pending := false, waited := 0 }

theorem StartsRow.row_le {r : Nat} {s : State} (h : StartsRow r s) : r ≤ 2 := by
  have hrow := h.row
  have hlegal := h.inv.rowLegal
  split at hrow <;> omega

theorem StartsRow.toNat_row {r : Nat} {s : State} (h : StartsRow r s) :
    (BitVec.ofNat 2 r).toNat = r := by
  have hle := h.row_le
  rw [BitVec.toNat_ofNat]
  omega

theorem StartsRow.dispatchPhase_eq {r : Nat} {s : State} (h : StartsRow r s) :
    dispatchPhase { s with pending := false, waited := 0 } =
      rowStart { s with row := BitVec.ofNat 2 r, pending := false, waited := 0 } := by
  have hphase : ∀ p : BitVec 2, p ≠ 1 → p ≠ 3 → p = 0 ∨ p = 2 := by decide
  have hrow := h.row
  obtain h0 | h2 := hphase s.phase h.boundary h.inv.phaseLegal
  · rw [if_pos h0] at hrow
    refine (dispatchPhase_start (s := { s with pending := false, waited := 0 }) h0).trans ?_
    rw [hrow, BitVec.ofNat_toNat, BitVec.setWidth_eq]
  · rw [if_neg (by simp [h2])] at hrow
    refine (dispatchPhase_end (s := { s with pending := false, waited := 0 }) h2).trans ?_
    rw [hrow]
    rfl

/-- The event at the boundary starts the row, in no time (R184, R187). -/
theorem StartsRow.plays_start {r : Nat} {s : State} (h : StartsRow r s) {f : Frame} {rs : RowSched}
    (hf : f.ok s.cfg.ncols) (hs : s.frame = encodeFrame f) (hr : f.rowAt r = some rs) (r' c : Nat) :
    Plays r' c 1 s (rowBegun rs r s) 0 0 := by
  refine h.alone.plays_event (deliverable_iff.mpr ⟨h.alone.inited, h.pending, h.irqEn⟩) ?_ r' c
  rw [h.dispatchPhase_eq]
  exact rowStart_eq hf hs (by rwa [h.toNat_row])

theorem StartsRow.inSlot {r : Nat} {s : State} (h : StartsRow r s) {rs : RowSched}
    (hrs : rs.ok s.cfg.ncols) : InSlot rs 0 (rowBegun rs r s) where
  alone := ⟨h.alone.inited, h.alone.run, h.alone.prog, h.alone.sched⟩
  irqEn := h.irqEn
  pending := rfl
  waited := rfl
  rowOk := hrs
  latched := rfl
  columns := rfl
  phase := by
    cases hevs : rs.evs <;> simp [rowBegun, rowStarted, hevs]
  cursor := by simp [rowBegun, rowStarted]
  elapsed := (firstFire_range hrs).1
  armed := by simp [rowBegun, rowStarted]

/-- In the row that starts, and in no other, the columns of its initial pattern are lit. -/
theorem StartsRow.lit_rowBegun {r : Nat} {s : State} (h : StartsRow r s) (rs : RowSched)
    (r' c : Nat) : lit (rowBegun rs r s) r' c = (decide (r' = r) && rs.init.getLsbD c) := by
  have hline := onehot_getLsbD (BitVec.ofNat 2 r) (h.toNat_row.trans_le h.row_le) r'
  rw [h.toNat_row] at hline
  rw [← hline]
  rfl

/-- One slot, from a row boundary to the next: one row start, the row's events and 375 ticks, in which
an LED of the row is lit for the time the schedule gives its column, and no other LED is lit. -/
theorem StartsRow.plays_slot {r : Nat} {s : State} (h : StartsRow r s) {f : Frame} {rs : RowSched}
    (hf : f.ok s.cfg.ncols) (hs : s.frame = encodeFrame f) (hr : f.rowAt r = some rs) (r' c : Nat) :
    ∃ elapsed cols, Plays r' c (1 + rs.evs.length + ROW_TICKS) s
      (slotEnded elapsed cols (rowBegun rs r s)) ROW_TICKS
      (if r' = r then highTicks rs c else 0) := by
  obtain ⟨-, hrs⟩ := memRead_row hf hr
  obtain ⟨elapsed, cols, hrest⟩ := (h.inSlot hrs).plays_rest r' c (List.drop_zero ..)
  rw [h.lit_rowBegun] at hrest
  refine ⟨elapsed, cols, ?_⟩
  convert (h.plays_start hf hs hr r' c).trans hrest using 1
  · exact Nat.add_assoc ..
  · exact (Nat.zero_add _).symm
  · have helapsed : (rowBegun rs r s).elapsed.toNat = 0 := rfl
    rw [highTicks_eq, helapsed]
    by_cases hline : r' = r <;> simp [hline]

/-- Settles O60: the slot lights an LED for the time the schedule gives its column, and the compiler
gives it the threshold of the level that `LAYOUT` shows there. -/
theorem compiledRowLightsEachLedForItsThreshold :
    Obligations.CompiledRowLightsEachLedForItsThreshold := by
  intro s img f rs r c ticks hi hinit hrun hpend hirq _ hprog hsched hphase hr hw hcompile hframe
    hrow hticks
  have hc := hi.cfgOk
  have hstart : StartsRow r s := ⟨hi, ⟨hinit, hrun, hprog, hsched⟩, hpend, hirq, hphase, hr⟩
  obtain ⟨_, _, hslot⟩ := hstart.plays_slot (compileFrame_wf hc hcompile) hframe hrow r c
  rw [hslot.seen, if_pos rfl]
  exact highTicks_compileRow hc hw (compileRow_rowAt hcompile hrow) hticks

end Sys2Proof.Proofs.Brightness
end

section
/-!
PROOFS of 41_frame_compiler.md. The compiler answers when every cell that a position shows gives a level
(R150, R161). Two facts say, through `shownLevel`, which columns a compiled row starts with and which
events it has (`init_compileRow`, `mem_compileRow_evs`); what is stated of a row's columns follows from
them (R152 to R156, R159, R161). How many events there are follows from the row's list of levels (R158).
-/
namespace Sys2Proof.Proofs.Compiler
open Sys2Proof Sys2Proof.Machine Sys2Proof.Laws

/-! ### When the compiler answers (R150, R157, R161) -/

/-- The lookup of a cell gives a level unless its byte is above 9 under `REJECT`. -/
theorem brightnessAt_of_inRange {policy : LevelPolicy} {img : Image} (hw : img.wf = true) {x y : Nat}
    (hx : x < IMG_W) (hy : y < IMG_H)
    (hin : ∀ buf v, img = .grey buf → buf[5 * y + x]? = some v → v.toNat ≤ 9 ∨ policy = .clamp) :
    ∃ l, brightnessAt policy img x y = .ok l := by
  cases img with
  | grey buf =>
    obtain ⟨v, hv, hlevel⟩ := greyLevel_in (policy := policy) (by simpa [Image.wf] using hw) hx hy
    exact ⟨_, hlevel.trans (Brightness.clampLevel_min (hin buf v rfl hv))⟩
  | bits buf => exact brightnessAt_total hw (.inr ⟨buf, rfl⟩) hx hy

theorem rowLevels_of_cells {cfg : Config} {img : Image} {r : Nat}
    (h : ∀ c x y, layoutAt cfg r c = some (x, y) → ∃ l, brightnessAt cfg.levelPolicy img x y = .ok l) :
    ∃ levels, rowLevels cfg img r = .ok levels := by
  refine readEach_total fun c _ => ?_
  unfold levelAt
  split
  · exact ⟨0, rfl⟩
  · exact h c _ _ ‹_›

theorem compileRow_of_cells {cfg : Config} (hc : cfg.ok) {img : Image} {r : Nat} (hr : r < NROWS)
    (h : ∀ c x y, layoutAt cfg r c = some (x, y) → ∃ l, brightnessAt cfg.levelPolicy img x y = .ok l) :
    ∃ rs, compileRow cfg img r = .ok rs := by
  obtain ⟨-, -, -, htrom, -⟩ := hc
  obtain ⟨levels, hl⟩ := rowLevels_of_cells h
  exact ⟨_, (compileRow_of_levels hr hl).trans (scheduleOf_eq htrom levels)⟩

theorem compileFrame_of_cells {cfg : Config} (hc : cfg.ok) {img : Image}
    (h : ∀ r c x y, layoutAt cfg r c = some (x, y) →
      ∃ l, brightnessAt cfg.levelPolicy img x y = .ok l) :
    ∃ f, compileFrame cfg img = .ok f := by
  obtain ⟨r0, h0⟩ := compileRow_of_cells hc (by decide) (h 0)
  obtain ⟨r1, h1⟩ := compileRow_of_cells hc (by decide) (h 1)
  obtain ⟨r2, h2⟩ := compileRow_of_cells hc (by decide) (h 2)
  exact ⟨⟨r0, r1, r2⟩, by simp [compileFrame, h0, h1, h2]⟩

theorem compileRow_beyond {cfg : Config} {img : Image} {r : Nat} (h : NROWS ≤ r) :
    compileRow cfg img r = .error (.refused (.indexOutOfRange r)) := by
  simp [compileRow, Nat.not_lt.mpr h]

/-- Settles O28: the compiler answers under these policies; rows and frame are those it answers. -/
theorem compileAlwaysAnswersAWellFormedFrame : Obligations.CompileAlwaysAnswersAWellFormedFrame := by
  intro s img hc hw hp
  obtain ⟨f, hf⟩ := compileFrame_total hc hw hp
  refine ⟨f, hf, compileFrame_wf hc hf, Encoding.frameOk_of_compileFrame hc hf, ?_, fun r hr => ?_,
    fun r hr => ?_⟩
  · show execCompile img s = _
    rw [execCompile, hf, orRaise_ok, returnValue]
  · obtain ⟨rs, hrow⟩ := rowAt_total f (Nat.le_of_lt_succ hr)
    have hrs := compileRow_rowAt hf hrow
    refine ⟨rs, hrs, hrow, ?_⟩
    show execCompileRow img r s = _
    rw [execCompileRow, hrs, orRaise_ok, returnValue]
  · show execCompileRow img r s = _
    rw [execCompileRow, compileRow_beyond hr, orRaise_refused]

/-! ### What a compiled row holds (R151 to R156) -/

/-- A compiled row is the schedule of its levels, in closed form. -/
theorem compileRow_eq_schedule {cfg : Config} (hc : cfg.ok) {img : Image} {r : Nat} {rs : RowSched}
    (h : compileRow cfg img r = .ok rs) :
    ∃ levels, rowLevels cfg img r = .ok levels ∧
      rs = ⟨columnsWhere (fun v => v.toNat != 0) levels,
        eventLevels.filterMap (eventFor cfg.trom levels)⟩ := by
  obtain ⟨-, -, -, htrom, -⟩ := hc
  obtain ⟨-, levels, hl, hs⟩ := compileRow_ok h
  rw [scheduleOf_eq htrom] at hs
  exact ⟨levels, hl, (Except.ok.inj hs).symm⟩

theorem getLsbD_columnsOfLevel {cfg : Config} (hc : cfg.ok) {img : Image} (hw : img.wf = true)
    {r : Nat} {levels : List Level} (hl : rowLevels cfg img r = .ok levels) {l : Nat} (h1 : 1 ≤ l)
    (c : Nat) :
    (columnsWhere (fun v => v.toNat == l) levels).getLsbD c = true ↔ shownLevel cfg img r c = l :=
  columnsWhere_shown hc hw hl (p := (· = l)) (by simp) (by omega) c

theorem columnPattern_ne_zero_iff {p : ColPat} : p ≠ 0 ↔ ∃ c, p.getLsbD c = true := by
  constructor
  · intro h
    by_contra hnone
    exact h (BitVec.eq_of_getLsbD_eq fun c _ => by simpa using not_exists.mp hnone c)
  · rintro ⟨c, hset⟩ rfl
    simp at hset

section
variable {cfg : Config} {img : Image} {r : Nat} {rs : RowSched}
  (hc : cfg.ok) (hw : img.wf = true) (h : compileRow cfg img r = .ok rs)
include hc hw h

/-- The initial pattern: the columns of a level other than 0 (R152). -/
theorem init_compileRow (c : Nat) : rs.init.getLsbD c = true ↔ shownLevel cfg img r c ≠ 0 := by
  obtain ⟨levels, hl, rfl⟩ := compileRow_eq_schedule hc h
  exact columnsWhere_shown hc hw hl (p := (· ≠ 0)) (by simp) (by simp) c

/-- The events: one for each level of 1..8 that some column has (R153, R154, R156). -/
theorem mem_compileRow_evs (e : Event) :
    e ∈ rs.evs ↔ ∃ l : Nat, 1 ≤ l ∧ l ≤ 8 ∧ (∃ c, shownLevel cfg img r c = l) ∧
      cfg.trom[l]? = some e.off ∧ ∀ c, e.clr.getLsbD c = true ↔ shownLevel cfg img r c = l := by
  obtain ⟨levels, hl, rfl⟩ := compileRow_eq_schedule hc h
  refine mem_scheduleEvents.trans (exists_congr fun l => and_congr_right fun h1 =>
    and_congr_right fun _ => eventFor_some.trans ?_)
  have hcols := getLsbD_columnsOfLevel hc hw hl h1
  refine and_congr (columnPattern_ne_zero_iff.trans (exists_congr hcols)) (and_congr_right fun _ => ?_)
  constructor
  · intro hclr c
    rw [hclr, hcols]
  · exact fun hclr => BitVec.eq_of_getLsbD_eq fun c _ =>
      Bool.eq_iff_iff.mpr ((hclr c).trans (hcols c).symm)

theorem exists_event_of_shown {c : Nat} (h1 : 1 ≤ shownLevel cfg img r c)
    (h8 : shownLevel cfg img r c ≤ 8) : ∃ e ∈ rs.evs, e.clr.getLsbD c = true := by
  have ⟨_, _, _, ⟨hlen, _⟩, _⟩ := hc
  obtain ⟨levels, hl, rfl⟩ := compileRow_eq_schedule hc h
  refine Brightness.exists_event_clearing hc hw hl h1 h8 (List.getElem?_eq_getElem ?_)
  rw [hlen, NLEVELS]
  omega

end

theorem evs_sorted_of_ok {ncols : Nat} {rs : RowSched} (h : rs.ok ncols) :
    rs.evs.Pairwise fun a b => a.off.toNat < b.off.toNat := by
  obtain ⟨-, -, -, -, hsorted⟩ := h
  exact hsorted

/-- Settles O29, by the two facts on what a compiled row holds; the order of its events is part of the
row's well-formedness (R159). -/
theorem compiledRowGroupsColumnsByLevel : Obligations.CompiledRowGroupsColumnsByLevel := by
  intro cfg img r levels hc hw hr hl
  have ⟨_, _, hlayout, htrom, _⟩ := hc
  have hrs := (compileRow_of_levels hr hl).trans (scheduleOf_eq htrom levels)
  exact ⟨(rowLevels_ok hl).1, fun c hlt => rowLevels_shown hlayout hw hl hlt, _, hrs,
    init_compileRow hc hw hrs, evs_sorted_of_ok (compileRow_wf hc hrs), mem_compileRow_evs hc hw hrs⟩

/-! ### How many events (R158) -/

theorem level_mem_of_eventFor_isSome {trom : List Half} {levels : List Level} (hlen : levels.length ≤ 14)
    {l : Nat} (h : (eventFor trom levels l).isSome = true) : l ∈ levels.map BitVec.toNat := by
  obtain ⟨e, he⟩ := Option.isSome_iff_exists.mp h
  obtain ⟨hne, -⟩ := eventFor_some.mp he
  rw [ne_eq, columnsWhere_eq_zero hlen] at hne
  simpa using hne

/-- Settles O30: the levels that make an event are among 1..8 and among the row's levels. -/
theorem compiledRowEventBound : Obligations.CompiledRowEventBound := by
  intro cfg img r rs hc h
  have ⟨_, hcols, _⟩ := hc
  obtain ⟨levels, hl, rfl⟩ := compileRow_eq_schedule hc h
  obtain ⟨hlen, -⟩ := rowLevels_ok hl
  refine Nat.le_min.mpr ⟨List.length_filterMap_le .., ?_⟩
  rw [List.length_filterMap_eq_countP, List.countP_eq_length_filter, ← hlen,
    ← List.length_map BitVec.toNat]
  have hnodup : (eventLevels.filter fun l => (eventFor cfg.trom levels l).isSome).Nodup :=
    List.Nodup.filter _ (by decide)
  refine (hnodup.subperm fun l hmem => ?_).length_le
  exact level_mem_of_eventFor_isSome (hlen ▸ hcols) (List.mem_filter.mp hmem).2

/-! ### How the events part the columns (R159) -/

theorem shownLevel_le_nine (cfg : Config) (img : Image) (r c : Nat) : shownLevel cfg img r c ≤ 9 := by
  have hcell (x y : Nat) : cellLevel img x y ≤ 9 := by
    cases img with
    | grey buf => exact Nat.min_le_right ..
    | bits buf =>
      simp only [cellLevel]
      split <;> decide
  unfold shownLevel
  split
  · exact Nat.zero_le _
  · exact hcell ..

theorem columnPattern_and_eq_zero_iff {p q : ColPat} :
    p &&& q = 0 ↔ ∀ c, p.getLsbD c = true → q.getLsbD c = false := by
  constructor
  · intro h c hp
    have hbit := congrArg (BitVec.getLsbD · c) h
    simpa [hp] using hbit
  · intro h
    refine BitVec.eq_of_getLsbD_eq fun c _ => ?_
    cases hp : p.getLsbD c with
    | false => simp [hp]
    | true => simp [h c hp]

/-- Settles O31: an event clears the columns of one level of 1..8, and two events are of two levels. -/
theorem compiledRowEventsPartitionItsColumns : Obligations.CompiledRowEventsPartitionItsColumns := by
  intro cfg img r rs hc hw h
  have hinit := init_compileRow hc hw h
  have hevs := mem_compileRow_evs hc hw h
  refine ⟨fun e he => ?_, ?_, fun c => ?_⟩
  · obtain ⟨l, h1, -, ⟨c, hc⟩, -, hclr⟩ := (hevs e).mp he
    refine ⟨columnPattern_ne_zero_iff.mpr ⟨c, (hclr c).mpr hc⟩, ?_⟩
    refine columnPattern_and_eq_zero_iff.mpr fun c hset => ?_
    have hin := (hinit c).mpr (by rw [(hclr c).mp hset]; omega)
    simp [hin]
  · refine (evs_sorted_of_ok (compileRow_wf hc h)).imp_of_mem fun {a b} ha hb hlt => ?_
    obtain ⟨i, -, -, -, hoffa, hclra⟩ := (hevs a).mp ha
    obtain ⟨j, -, -, -, hoffb, hclrb⟩ := (hevs b).mp hb
    refine columnPattern_and_eq_zero_iff.mpr fun c hset => Bool.eq_false_iff.mpr fun hset' => ?_
    have hij : i = j := ((hclra c).mp hset).symm.trans ((hclrb c).mp hset')
    rw [← hij, hoffa] at hoffb
    exact hlt.ne (congrArg BitVec.toNat (Option.some.inj hoffb))
  · constructor
    · rintro ⟨hset, hkept⟩
      have h0 := (hinit c).mp hset
      have h9 := shownLevel_le_nine cfg img r c
      by_contra hne
      obtain ⟨e, he, hclr⟩ := exists_event_of_shown hc hw h (c := c) (by omega) (by omega)
      exact absurd hclr (by simp [hkept e he])
    · intro h9
      refine ⟨(hinit c).mpr (by omega), fun e he => Bool.eq_false_iff.mpr fun hset => ?_⟩
      obtain ⟨l, -, h8, -, -, hclr⟩ := (hevs e).mp he
      have := (hclr c).mp hset
      omega

/-! ### Uniform images (R161, R193) -/

/-- A byte whose cell shows less than 9 is at most 9, so no policy rejects it. -/
theorem le_nine_of_cellLevel_lt {buf : List Byte} {x y : Nat} {v : Byte}
    (hv : buf[5 * y + x]? = some v) (h : cellLevel (.grey buf) x y < 9) : v.toNat ≤ 9 := by
  simp only [cellLevel, List.getD_eq_getElem?_getD, hv, Option.getD_some, MAX_LEVEL] at h
  omega

theorem shownLevel_of_uniform {cfg : Config} {img : Image} {l : Nat}
    (h : ∀ r c x y, layoutAt cfg r c = some (x, y) → cellLevel img x y = l) (r c : Nat) :
    shownLevel cfg img r c = if (layoutAt cfg r c).isSome then l else 0 := by
  unfold shownLevel
  split
  · simp [*]
  · simp [h r c _ _ ‹_›, *]

theorem evs_eq_nil_of_no_middle_level {cfg : Config} {img : Image} {r : Nat} {rs : RowSched}
    (hc : cfg.ok) (hw : img.wf = true) (h : compileRow cfg img r = .ok rs)
    (hshown : ∀ c, shownLevel cfg img r c = 0 ∨ shownLevel cfg img r c = 9) : rs.evs = [] := by
  refine List.eq_nil_iff_forall_not_mem.mpr fun e he => ?_
  obtain ⟨l, h1, h8, ⟨c, hl⟩, -⟩ := (mem_compileRow_evs hc hw h e).mp he
  have := hshown c
  omega

theorem compileRow_of_dark {cfg : Config} {img : Image} {r : Nat} {rs : RowSched}
    (hc : cfg.ok) (hw : img.wf = true) (h : compileRow cfg img r = .ok rs)
    (hdark : ∀ c, shownLevel cfg img r c = 0) : rs = allOffRow := by
  have hevs := evs_eq_nil_of_no_middle_level hc hw h fun c => .inl (hdark c)
  have hinit : rs.init = 0 := by
    by_contra hne
    obtain ⟨c, hset⟩ := columnPattern_ne_zero_iff.mp hne
    exact (init_compileRow hc hw h c).mp hset (hdark c)
  cases rs
  cases hevs
  cases hinit
  rfl

/-- Settles O32: the compiler answers as no shown byte is rejected, and no column has a level of 1..8. -/
theorem uniformImagesCompileWithoutEvents : Obligations.UniformImagesCompileWithoutEvents := by
  intro cfg img hc hw
  have ⟨_, _, hlayout, _⟩ := hc
  constructor
  · intro hdark
    obtain ⟨f, hf⟩ : ∃ f, compileFrame cfg img = .ok f := by
      refine compileFrame_of_cells hc fun r c x y hxy => ?_
      obtain ⟨hx, hy⟩ := cell_in_grid hlayout hxy
      refine brightnessAt_of_inRange hw hx hy ?_
      rintro buf v rfl hv
      exact .inl (le_nine_of_cellLevel_lt hv (by simp [hdark r c x y hxy]))
    have hshown (r c : Nat) : shownLevel cfg img r c = 0 := by
      simp [shownLevel_of_uniform hdark]
    obtain ⟨h0, h1, h2⟩ := compileFrame_ok hf
    have h0 := compileRow_of_dark hc hw h0 (hshown 0)
    have h1 := compileRow_of_dark hc hw h1 (hshown 1)
    have h2 := compileRow_of_dark hc hw h2 (hshown 2)
    rw [hf, show f = allOff from congr (congr (congrArg Frame.mk h0) h1) h2]
  · intro hfull hreject
    obtain ⟨f, hf⟩ : ∃ f, compileFrame cfg img = .ok f := by
      refine compileFrame_of_cells hc fun r c x y hxy => ?_
      obtain ⟨hx, hy⟩ := cell_in_grid hlayout hxy
      refine brightnessAt_of_inRange hw hx hy fun buf v himg hv => ?_
      cases hpolicy : cfg.levelPolicy with
      | clamp => exact .inr rfl
      | reject => exact .inl (hreject hpolicy buf himg v (List.mem_of_getElem? hv))
    refine ⟨f, hf, fun r rs hrow => ?_⟩
    have hrs := compileRow_rowAt hf hrow
    have hshown := shownLevel_of_uniform hfull r
    refine ⟨evs_eq_nil_of_no_middle_level hc hw hrs fun c => ?_, fun c => ?_⟩
    · rw [hshown]
      split
      · exact .inr rfl
      · exact .inl rfl
    · rw [init_compileRow hc hw hrs, hshown, ne_eq, ite_eq_right_iff, Classical.not_imp]
      exact and_iff_left (by decide)

end Sys2Proof.Proofs.Compiler
end

section
/-!
PROOFS of 42_display_engine.md: the handler's dispatch (R183) and its three transitions (R184 to R188) as
instructions, the frame words on any row, what an event does not read (R180), that the handler always
completes and rearms the timer (R208), the row slot (R191), the refresh cycle (R192, R193), the dark
display (R181, R193) and the masked one (R194).
-/
namespace Sys2Proof.Proofs.DisplayEngine
open Sys2Proof Sys2Proof.Machine Sys2Proof.Laws Sys2Proof.Proofs.Legality Sys2Proof.Proofs.Brightness

/-! ### The dispatch on `PHASE` (R183) -/

/-- The handler's dispatch is the decoder's reading of `PHASE` (30_encoding.md R105). -/
theorem dispatchPhase_eq_exec (s : State) : dispatchPhase s = exec (decodePhase s.phase) s := by
  have hcodes : ∀ p : BitVec 2, p = 0 ∨ p = 1 ∨ p = 2 ∨ p = 3 := by decide
  unfold dispatchPhase
  obtain h | h | h | h := hcodes s.phase <;> rw [h] <;> rfl

/-- At a row boundary the transition is the start of a row (R184, R187). -/
theorem dispatchPhase_boundary {s : State} (hrow : s.row.toNat ≤ 2) (h1 : s.phase ≠ 1)
    (h3 : s.phase ≠ 3) :
    ∃ r : BitVec 2, r.toNat ≤ 2 ∧ dispatchPhase s = rowStart { s with row := r } := by
  have hphase : ∀ p : BitVec 2, p ≠ 1 → p ≠ 3 → p = 0 ∨ p = 2 := by decide
  obtain h0 | h2 := hphase s.phase h1 h3
  · exact ⟨s.row, hrow, dispatchPhase_start h0⟩
  · exact ⟨(advanceRow s).row, advanceRow_row_le s, dispatchPhase_end h2⟩

/-- While an event is awaited the transition plays the event at the cursor of the latched row (R185). -/
theorem dispatchPhase_awaiting {s : State} (hi : Inv { s with pending := true }) (h1 : s.phase = 1) :
    ∃ rs e, RowSched.ok s.cfg.ncols rs ∧ s.rowbuf = encodeRow rs ∧ rs.evs[s.k.toNat]? = some e ∧
      dispatchPhase s = .next (eventPlayed rs e s) := by
  obtain ⟨-, rs, -, -, hrs, hb, hk⟩ := inv_rows hi
  have he := List.getElem?_eq_getElem (hk h1)
  exact ⟨rs, _, hrs, hb, he, (dispatchPhase_event h1).trans (rowEvent_eq hrs hb he)⟩

/-- The next fire lies 1 to `ROW_TICKS` ticks ahead (42_display_engine.md R186, R208). -/
def Rearmed (s t : State) : Prop := ∃ n, 1 ≤ n ∧ n ≤ ROW_TICKS ∧ t.cmp = s.cnt + BitVec.ofNat 16 n

theorem rearmed_of_cmp {s t : State} {x : Half} (h : t.cmp = s.cnt + x) (h1 : 1 ≤ x.toNat)
    (h2 : x.toNat ≤ ROW_TICKS) : Rearmed s t :=
  ⟨x.toNat, h1, h2, by rw [h, BitVec.ofNat_toNat, BitVec.setWidth_eq]⟩

/-- In a legal state the transition completes and asks for one next fire (R208). -/
theorem dispatchPhase_completes {s : State} (hi : Inv { s with pending := true }) :
    ∃ t, dispatchPhase s = .next t ∧ Rearmed s t := by
  by_cases h1 : s.phase = 1
  · obtain ⟨rs, e, hrs, -, he, hplay⟩ := dispatchPhase_awaiting hi h1
    obtain ⟨hsub, hlt, hle⟩ := fire_after_event hrs he
    exact ⟨_, hplay, rearmed_of_cmp rfl (by omega) (by omega)⟩
  · obtain ⟨r, hr, hstart⟩ := dispatchPhase_boundary (s := s) hi.rowLegal h1 hi.phaseLegal
    obtain ⟨f, -, hf, hs, -⟩ := inv_rows hi
    obtain ⟨rs, hrow⟩ := rowAt_total f hr
    obtain ⟨hlo, hhi⟩ := firstFire_range (memRead_row hf hrow).2
    exact ⟨_, hstart.trans (rowStart_eq hf hs hrow), rearmed_of_cmp rfl hlo hhi⟩

/-! ### An event does not read `ACTIVE` (R180) -/

/-- The outcome with another frame in `ACTIVE`. -/
def withActive (f : List Word) (o : Res) : Res := andThen o fun t => .next { t with frame := f }

theorem scheduleNext_withActive (n : Nat) (f : List Word) (s : State) :
    scheduleNext n { s with frame := f } = withActive f (scheduleNext n s) := by
  unfold scheduleNext
  split <;> rfl

theorem awaitNext_withActive (p : BitVec 2) (k : BitVec 4) (n : Nat) (f : List Word) (s : State) :
    awaitNext p k n { s with frame := f } = withActive f (awaitNext p k n s) :=
  scheduleNext_withActive n f { s with phase := p, k := k }

theorem execEvt_withActive (clr : ColPat) (off : Half) (f : List Word) (s : State) :
    execEvt clr off { s with frame := f } = withActive f (execEvt clr off s) := by
  unfold execEvt
  cases headerOf s.cfg.ncols s.rowbuf with
  | error => rfl
  | ok h =>
    simp only [withValue_ok]
    split
    · cases eventOf s.cfg.ncols s.rowbuf (s.k.toNat + 1) with
      | error => rfl
      | ok e =>
        exact awaitNext_withActive _ _ _ f { writeCols (s.cols &&& ~~~clr) s with elapsed := off }
    · exact awaitNext_withActive _ _ _ f { writeCols (s.cols &&& ~~~clr) s with elapsed := off }

theorem playEventWord_withActive (i : Instr) (f : List Word) (s : State) :
    playEventWord i { s with frame := f } = withActive f (playEventWord i s) := by
  cases i with
  | evt clr off => exact execEvt_withActive clr off f s
  | _ => rfl

theorem rowEvent_withActive (f : List Word) (s : State) :
    rowEvent { s with frame := f } = withActive f (rowEvent s) := by
  unfold rowEvent wordAtCursor
  cases headerOf s.cfg.ncols s.rowbuf with
  | error => rfl
  | ok h =>
    simp only [withValue_ok]
    split
    · cases s.rowbuf[1 + s.k.toNat]? with
      | none => rfl
      | some w =>
        cases hw : decodeFrameWord s.cfg.ncols w with
        | error => simp only [hw]; rfl
        | ok i => simp only [hw, playEventWord_withActive]
    · rfl

/-! ### Frame words on any row (log entry 13) -/

theorem awaitNext_toNat (p : BitVec 2) (k : BitVec 4) (x : Half) (s : State) :
    awaitNext p k x.toNat s =
      if x = 0 then .refused (.delayOutOfRange 0)
      else .next { s with phase := p, k := k, cmp := s.cnt + x } :=
  scheduleNext_toNat x _

/-- Where no event stands, the read stops by one name. -/
theorem eventOf_error {ncols j : Nat} {ws : List Word} (h : ∀ e, eventOf ncols ws j ≠ .ok e) :
    eventOf ncols ws j = .error .notAnEvent := by
  unfold eventOf at h ⊢
  cases hw : ws[1 + j]? with
  | none => rfl
  | some w =>
    cases he : decodeEvt ncols w with
    | none => simp only [he]
    | some e => exact absurd (by simp only [hw, he]) (h e)

/-- Where no header stands, the read stops by one name. -/
theorem headerOf_error {ncols : Nat} {ws : List Word} (h : ∀ a, headerOf ncols ws ≠ .ok a) :
    headerOf ncols ws = .error .notARowHeader := by
  unfold headerOf at h ⊢
  split
  · rfl
  · split
    · rename_i init n hd
      exact absurd (by simp only [hd]) (h (init, n))
    · rfl

section FrameWords
variable (s : State)

/-- A header with events waits for the event read at index 0. -/
theorem execRowhdr_events (pat : ColPat) {n : BitVec 4} (hn : n ≠ 0) :
    execRowhdr pat n s = withValue (eventOf s.cfg.ncols s.rowbuf 0) fun e =>
      awaitNext 1 0 e.off.toNat { writeCols pat (setRows (onehot s.row) s) with elapsed := 0 } := by
  unfold execRowhdr
  rw [if_pos (Nat.pos_of_ne_zero fun h => hn (BitVec.eq_of_toNat_eq h))]

/-- At the last index an event waits for the boundary. -/
theorem execEvt_last (clr : ColPat) (off : Half) {pat : ColPat} {n : BitVec 4}
    (hh : headerOf s.cfg.ncols s.rowbuf = .ok (pat, n)) (hn : n.toNat ≤ s.k.toNat + 1) :
    execEvt clr off s = awaitNext 2 0 (BitVec.ofNat 16 ROW_TICKS - off).toNat
      { writeCols (s.cols &&& ~~~clr) s with elapsed := off } := by
  unfold execEvt
  rw [hh, withValue_ok, if_neg (by simpa using hn)]

/-- Below the last index an event waits for the event read at the next. -/
theorem execEvt_inner (clr : ColPat) (off : Half) {pat : ColPat} {n : BitVec 4}
    (hh : headerOf s.cfg.ncols s.rowbuf = .ok (pat, n)) (hn : s.k.toNat + 1 < n.toNat) :
    execEvt clr off s = withValue (eventOf s.cfg.ncols s.rowbuf (s.k.toNat + 1)) fun e =>
      awaitNext 1 (s.k + 1) (e.off - off).toNat
        { writeCols (s.cols &&& ~~~clr) s with elapsed := off } := by
  unfold execEvt
  rw [hh, withValue_ok, if_pos hn]

theorem execEvt_no_header (clr : ColPat) (off : Half)
    (h : ∀ a, headerOf s.cfg.ncols s.rowbuf ≠ .ok a) :
    execEvt clr off s = .refused .notARowHeader := by
  rw [execEvt, headerOf_error h, withValue_error]

end FrameWords

/-! ### Runs (R191 to R193) -/

/-- What steps keep, runs keep: a machine stays legal (10_state.md R41). -/
theorem legal_steps {n : Nat} {s t : State} (hl : Legal s) (h : steps n s = .next t) : Legal t := by
  induction n generalizing s with
  | zero =>
    cases h
    exact hl
  | succ n ih =>
    obtain ⟨u, hu, h⟩ := andThen_eq_next.mp h
    exact ih (stepKeepsTheMachineLegal s u hl hu) h

/-- At the boundary that ends row `r` the row after it is about to start (R187). -/
theorem startsRow_of_boundary {r : Nat} {s : State} (hi : Inv s) (ha : LeftAlone s)
    (hp : s.pending = true) (hq : s.irqEn = true) (h2 : s.phase = 2) (hr : s.row.toNat = r) :
    StartsRow ((r + 1) % 3) s :=
  ⟨hi, ha, hp, hq, by simp [h2], by simp [h2, hr]⟩

/-- `t` is the row boundary that follows row `r` of the frame shown in `s`, one slot later. -/
structure NextBoundary (r : Nat) (s t : State) : Prop where
  starts : StartsRow ((r + 1) % 3) t
  row : t.row.toNat = r
  phase : t.phase = 2
  cnt : t.cnt = s.cnt + BitVec.ofNat 16 ROW_TICKS
  frame : t.frame = s.frame
  cfg : t.cfg = s.cfg

theorem deliverable_of_startsRow {r : Nat} {s : State} (h : StartsRow r s) : deliverable s = true :=
  deliverable_iff.mpr ⟨h.alone.inited, h.pending, h.irqEn⟩

/-- One slot leads from a row boundary to the next. -/
theorem plays_to_nextBoundary {r : Nat} {s : State} (h : StartsRow r s) {f : Frame} {rs : RowSched}
    (hf : f.ok s.cfg.ncols) (hs : s.frame = encodeFrame f) (hr : f.rowAt r = some rs) (r' c : Nat) :
    ∃ t, Plays r' c (1 + rs.evs.length + ROW_TICKS) s t ROW_TICKS
        (if r' = r then highTicks rs c else 0) ∧ NextBoundary r s t := by
  obtain ⟨elapsed, cols, hplay⟩ := h.plays_slot hf hs hr r' c
  have halone : LeftAlone (slotEnded elapsed cols (rowBegun rs r s)) :=
    ⟨h.alone.inited, h.alone.run, h.alone.prog, h.alone.sched⟩
  have hlegal := legal_steps ⟨h.inv.cfgOk, fun _ => h.inv⟩ hplay.run
  refine ⟨_, hplay, ?_⟩
  exact
    { starts := startsRow_of_boundary (hlegal.inv halone.inited) halone rfl h.irqEn rfl h.toNat_row
      row := h.toNat_row
      phase := rfl
      cnt := by simp [slotEnded, rowBegun, rowStarted]
      frame := rfl
      cfg := rfl }

/-- Three slots lead from the start of row 0 to the next start of row 0. -/
theorem plays_cycle {s : State} (h : StartsRow 0 s) {f : Frame}
    (hf : f.ok s.cfg.ncols) (hs : s.frame = encodeFrame f) (r c : Nat) :
    ∃ t, Plays r c
        ((1 + f.row0.evs.length + ROW_TICKS) + (1 + f.row1.evs.length + ROW_TICKS) +
          (1 + f.row2.evs.length + ROW_TICKS)) s t (ROW_TICKS + ROW_TICKS + ROW_TICKS)
        ((if r = 0 then highTicks f.row0 c else 0) + (if r = 1 then highTicks f.row1 c else 0) +
          (if r = 2 then highTicks f.row2 c else 0)) ∧
      StartsRow 0 t ∧ t.row = 2 ∧ t.phase = 2 ∧ t.frame = s.frame := by
  obtain ⟨t0, p0, b0⟩ := plays_to_nextBoundary h hf hs rfl r c
  have hf1 : f.ok t0.cfg.ncols := by rwa [b0.cfg]
  have hs1 := b0.frame.trans hs
  obtain ⟨t1, p1, b1⟩ := plays_to_nextBoundary b0.starts hf1 hs1 rfl r c
  have hf2 : f.ok t1.cfg.ncols := by rwa [b1.cfg]
  have hs2 := b1.frame.trans hs1
  obtain ⟨t2, p2, b2⟩ := plays_to_nextBoundary b1.starts hf2 hs2 rfl r c
  exact ⟨t2, (p0.trans p1).trans p2, b2.starts, BitVec.eq_of_toNat_eq b2.row, b2.phase,
    b2.frame.trans (hs2.trans hs.symm)⟩

/-! ### The dark display (R181, R193) -/

/-- `ALL_OFF` is active and latched, no column line is high, and no foreground program is left. -/
structure Dark (s : State) : Prop where
  inv : Inv s
  inited : s.inited = true
  frame : s.frame = encodeFrame allOff
  latched : s.rowbuf = encodeRow allOffRow
  colout : s.colout = 0
  prog : s.prog = []

theorem allOffRow_ok (ncols : Nat) : allOffRow.ok ncols := (Encoding.allOff_ok ncols).1

theorem allOff_rowAt {r : Nat} (h : r ≤ 2) : allOff.rowAt r = some allOffRow := by
  match r, h with
  | 0, _ => rfl
  | 1, _ => rfl
  | 2, _ => rfl

/-- With `ALL_OFF` active and latched, the only transition starts a row without columns. -/
theorem dispatchPhase_allOff {s t : State} (hi : Inv { s with pending := true })
    (hf : s.frame = encodeFrame allOff) (hb : s.rowbuf = encodeRow allOffRow)
    (h : dispatchPhase s = .next t) : t.rowbuf = encodeRow allOffRow ∧ t.colout = 0 := by
  by_cases h1 : s.phase = 1
  · obtain ⟨rs, e, hrs, hlatched, he, -⟩ := dispatchPhase_awaiting hi h1
    have hrow : rs = allOffRow := encodeRow_inj hrs (allOffRow_ok _) (hlatched.symm.trans hb)
    rw [hrow] at he
    cases he
  · obtain ⟨r, hr, hstart⟩ := dispatchPhase_boundary (s := s) hi.rowLegal h1 hi.phaseLegal
    have hplay := rowStart_eq (s := { s with row := r }) (Encoding.allOff_ok _) hf (allOff_rowAt hr)
    rw [hstart, hplay] at h
    cases h
    exact ⟨rfl, rfl⟩

/-- Every step of a dark display leaves it dark. -/
theorem Dark.of_step {s t : State} (h : Dark s) (hx : step s = .next t) : Dark t := by
  have hlegal := stepKeepsTheMachineLegal s t ⟨h.inv.cfgOk, fun _ => h.inv⟩ hx
  obtain ⟨l, -, hd, hx⟩ | ⟨p, l, -, -, hp, rfl⟩ | ⟨o, i, p, l, -, hp, -⟩ | ⟨p, l, -, hp, rfl⟩ :=
    step_next hx
  · obtain ⟨-, hpend, -⟩ := deliverable_iff.mp hd
    obtain ⟨hrow, hcol⟩ :=
      dispatchPhase_allOff (s := { s with sched := l, pending := false, waited := 0 })
        (inv_of_pending h.inv hpend l 0) h.frame h.latched hx
    have hside := dispatchPhase_engineOnly hx
    have hinit := hside.inited.trans h.inited
    exact ⟨hlegal.inv hinit, hinit, hside.frame.trans h.frame, hrow, hcol, hside.prog.trans h.prog⟩
  · exact ⟨hlegal.inv h.inited, h.inited, h.frame, h.latched, h.colout, hp h.prog⟩
  · rw [h.prog] at hp
    cases hp
  · exact ⟨hlegal.inv h.inited, h.inited, h.frame, h.latched, h.colout, hp h.prog⟩

theorem Dark.of_steps {n : Nat} {s t : State} (h : Dark s) (hx : steps n s = .next t) : Dark t := by
  induction n generalizing s with
  | zero =>
    cases hx
    exact h
  | succ n ih =>
    obtain ⟨u, hu, hx⟩ := andThen_eq_next.mp hx
    exact ih (h.of_step hu) hx

/-! ### The masked display (R194) -/

/-- A scheduled tick of a masked machine is taken, whatever its program. -/
theorem step_masked_tick {s : State} (hi : s.inited = true) (hr : s.run = true)
    (hm : s.irqEn = false) {l : List Move} (hs : s.sched = .timer :: l) :
    step s = .next (tickOnce { s with sched := l }) := by
  have hd : deliverable s = false := by simp [deliverable, hm]
  exact (step_scheduled_tick hd (by simp [tickEnabled, hi, hr, hd]) hs).2

/-- One of the next `n + 1` counts meets the compare: the first, or one of the `n` after it. -/
theorem meets_succ_iff {cnt cmp : Half} {n : Nat} :
    (∃ m, 1 ≤ m ∧ m ≤ n + 1 ∧ cnt + BitVec.ofNat 16 m = cmp) ↔
      cnt + 1 = cmp ∨ ∃ m, 1 ≤ m ∧ m ≤ n ∧ cnt + 1 + BitVec.ofNat 16 m = cmp := by
  have hshift (m : Nat) : cnt + 1 + BitVec.ofNat 16 m = cnt + BitVec.ofNat 16 (m + 1) := by
    rw [← cnt_add_one, add_right_comm]
  simp only [hshift]
  constructor
  · rintro ⟨m, h1, hn, hm⟩
    obtain ⟨k, rfl⟩ := Nat.exists_eq_add_of_le' h1
    cases k with
    | zero => exact .inl hm
    | succ k => exact .inr ⟨k + 1, by omega, by omega, hm⟩
  · rintro (hm | ⟨m, h1, hn, hm⟩)
    · exact ⟨1, le_rfl, by omega, hm⟩
    · exact ⟨m + 1, by omega, by omega, hm⟩

theorem tickOnce_pending_iff {s : State} :
    (tickOnce s).pending = true ↔ s.pending = true ∨ s.cnt + 1 = s.cmp := by
  simp [tickOnce, pendingAfter]

/-! ### The statements -/

/-- Settles O57: a dark display stays dark along any run, by what each step keeps. -/
theorem allOffStaysDark : Obligations.AllOffStaysDark := by
  intro n s t hi hinit hframe hlatched hcol hprog h
  have hdark := Dark.of_steps ⟨hi, hinit, hframe, hlatched, hcol, hprog⟩ h
  exact ⟨hdark.colout, hdark.frame⟩

/-- Settles O58: the slot of the row that starts, seen at an LED of the row and at one of another. -/
theorem rowSlotLastsRowTicks : Obligations.RowSlotLastsRowTicks := by
  intro s r c f rs hi hinit hrun hpend hirq _ hprog hsched hphase hr hf hframe hrow n
  have hstart : StartsRow r s := ⟨hi, ⟨hinit, hrun, hprog, hsched⟩, hpend, hirq, hphase, hr⟩
  have hslot := plays_to_nextBoundary hstart hf hframe hrow
  obtain ⟨t, hplay, hend⟩ := hslot r c
  refine ⟨⟨t, hplay.run, hend.row, hend.phase, deliverable_of_startsRow hend.starts, hend.cnt,
    hend.frame⟩, hplay.ticks, ?_, fun r' hne => ?_⟩
  · rw [hplay.seen, if_pos rfl]
  · obtain ⟨_, hother, -⟩ := hslot r' c
    rw [hother.seen, if_neg hne]

/-- Settles O59: three slots in turn; an LED is lit only in the slot of its row. -/
theorem refreshCycleLastsThreeSlots : Obligations.RefreshCycleLastsThreeSlots := by
  intro s f hi hinit hrun hpend hirq _ hprog hsched hbegin hf hframe n
  have hstart : StartsRow 0 s := by
    refine ⟨hi, ⟨hinit, hrun, hprog, hsched⟩, hpend, hirq, ?_, ?_⟩ <;>
      obtain ⟨hphase, hrow⟩ | ⟨hphase, hrow⟩ := hbegin <;> simp [hphase, hrow]
  have hcycle := plays_cycle hstart hf hframe
  have hn : n = (1 + f.row0.evs.length + ROW_TICKS) + (1 + f.row1.evs.length + ROW_TICKS) +
      (1 + f.row2.evs.length + ROW_TICKS) := by
    simp only [n, CYCLE_TICKS, ROW_TICKS]
    omega
  rw [hn]
  obtain ⟨t, hplay, hnext, hrow, hphase, hkept⟩ := hcycle 0 0
  refine ⟨⟨t, hplay.run, hrow, hphase, deliverable_of_startsRow hnext, hkept⟩, hplay.ticks, ?_⟩
  intro r rs hr c
  obtain ⟨_, hseen, -⟩ := hcycle r c
  rw [hseen.seen]
  match r with
  | 0 => cases hr; rfl
  | 1 => cases hr; exact Nat.zero_add _
  | 2 => cases hr; exact Nat.zero_add _
  | r + 3 => cases hr

/-- Settles O34: taking the interrupt clears the flag, and the dispatch reads `PHASE` as the decoder
does. -/
theorem handlerClearsThenDispatchesOnPhase : Obligations.HandlerClearsThenDispatchesOnPhase := by
  intro s
  constructor
  · intro hinit hpend hirq
    exact (execHandleEvent_eq (deliverable_iff.mpr ⟨hinit, hpend, hirq⟩)).trans
      (dispatchPhase_eq_exec _)
  · intro hno
    exact execHandleEvent_of_not_deliverable (by rwa [← Bool.not_eq_true, deliverable_iff])

/-- Settles O35 by the engine's law of a row start. -/
theorem rowStartPlaysTheLatchedRow : Obligations.RowStartPlaysTheLatchedRow :=
  fun _ _ _ hf hs hr => rowStart_eq hf hs hr

/-- Settles O36 by the engine's law of an event. -/
theorem eventClearsItsColumns : Obligations.EventClearsItsColumns :=
  fun _ _ _ hrs hb he => rowEvent_eq hrs hb he

/-- Settles O37: the row start, from the state with `ROW` advanced. -/
theorem rowEndStartsTheNextRow : Obligations.RowEndStartsTheNextRow := by
  intro s f rs hf hs hr
  have hrow : (advanceRow s).row.toNat = (s.row.toNat + 1) % 3 := by
    simp [advanceRow, NROWS]
    omega
  exact rowStart_eq (s := advanceRow s) hf hs (hrow ▸ hr)

/-- Settles O39: a played word goes on with what it reads of `RBUF`, and asks for the next fire unless
the distance is 0. -/
theorem frameWordsPlayOnAnyRow : Obligations.FrameWordsPlayOnAnyRow := by
  intro s rowSet cleared
  refine ⟨fun pat => rfl, ?_, ?_, ?_, ?_, ?_, ?_⟩
  · intro pat n e hn he
    refine (execRowhdr_events s pat hn).trans ?_
    rw [he]
    exact awaitNext_toNat ..
  · intro pat n hn he
    refine (execRowhdr_events s pat hn).trans ?_
    rw [eventOf_error he, withValue_error]
  · intro clr off pat n hh hn
    refine ((execEvt_last s clr off hh hn).trans (awaitNext_toNat ..)).trans ?_
    simp only [sub_eq_zero, eq_comm (a := BitVec.ofNat 16 ROW_TICKS)]
    rfl
  · intro clr off pat n e hh hn he
    refine (execEvt_inner s clr off hh hn).trans ?_
    rw [he]
    refine (awaitNext_toNat ..).trans ?_
    simp only [sub_eq_zero]
    rfl
  · intro clr off pat n hh hn he
    refine (execEvt_inner s clr off hh hn).trans ?_
    rw [eventOf_error he, withValue_error]
  · intro clr off hno
    exact execEvt_no_header s clr off hno

/-- Settles O40: the outcome with another `ACTIVE` is the outcome with that frame put in, both ways. -/
theorem eventsDoNotSeeASwappedFrame : Obligations.EventsDoNotSeeASwappedFrame := by
  intro s t f
  have hswap {s t : State} (f : List Word) (h : rowEvent s = .next t) :
      rowEvent { s with frame := f } = .next { t with frame := f } := by
    rw [rowEvent_withActive, h]
    rfl
  constructor
  · intro h
    exact ⟨hswap f h, (rowEvent_engineOnly h).frame⟩
  · rintro ⟨h, hframe⟩
    have ht : { t with frame := s.frame } = t := by rw [← hframe]
    exact (hswap s.frame h).trans (congrArg _ ht)

/-- Settles O41: in a legal state the transition completes and rearms the timer; it writes the engine's
registers only. -/
theorem handlerCompletesAndRearmsTheTimer : Obligations.HandlerCompletesAndRearmsTheTimer := by
  intro s hi hinit hpend hirq
  obtain ⟨t, ht, harmed⟩ := dispatchPhase_completes
    (s := { s with pending := false, waited := 0 }) (inv_of_pending hi hpend s.sched 0)
  have hside := dispatchPhase_engineOnly ht
  refine ⟨t, ?_, hside.frame, hside.cnt, hside.run, hside.irqEn, hside.tcfg, hside.inited, hside.cfg,
    hside.prog, hside.sched, hside.result, hside.pending, harmed⟩
  exact (execHandleEvent_eq (deliverable_iff.mpr ⟨hinit, hpend, hirq⟩)).trans ht

/-- Settles O55, by induction on the number of ticks: each is taken, as no event is deliverable. -/
theorem maskedTicksHoldTheEvent : Obligations.MaskedTicksHoldTheEvent := by
  intro n
  induction n with
  | zero =>
    intro s _ _ _ hs
    have hs : s.sched = [] := hs
    refine ⟨s, rfl, ⟨.inl, ?_⟩, by simp [← hs]⟩
    rintro (h | ⟨m, h1, h0, -⟩)
    · exact h
    · omega
  | succ n ih =>
    intro s hi hr hm hs
    have hstep := step_masked_tick hi hr hm (l := List.replicate n .timer) hs
    obtain ⟨t, hrun, hpend, ht⟩ :=
      ih (tickOnce { s with sched := List.replicate n .timer }) hi hr hm rfl
    refine ⟨t, ?_, ?_, ?_⟩
    · rw [steps, hstep, andThen_next, hrun]
    · rw [hpend, tickOnce_pending_iff, meets_succ_iff, or_assoc]
      rfl
    · have hcnt : s.cnt + 1 + BitVec.ofNat 16 n = s.cnt + BitVec.ofNat 16 (n + 1) := by
        rw [← cnt_add_one, add_right_comm]
      rw [ht, tickOnce_cnt, ← hcnt]
      rfl

end Sys2Proof.Proofs.DisplayEngine
end

section
/-!
PROOFS of 43_timer_gpio_adapter.md: the capabilities of the adapter as instructions (R201 to R203, R205,
R206), the tick (R204), and the time an armed timer takes to fire (R202, R204, R208). The model adds in
16 bits; the rules add numbers and reduce them modulo 65536 (`wrapped_add`).
-/
namespace Sys2Proof.Proofs.TimerAdapter
open Sys2Proof Sys2Proof.Machine Sys2Proof.Laws
open Sys2Proof.Proofs.Legality Sys2Proof.Proofs.Brightness

/-! ### The counter (R202, R204) -/

/-- The sum modulo 65536 is the 16-bit sum. -/
theorem wrapped_add (c : Half) (n : Nat) :
    BitVec.ofNat 16 ((c.toNat + n) % 65536) = c + BitVec.ofNat 16 n := by
  apply BitVec.eq_of_toNat_eq
  simp

/-- A delay outside 1..65535 is refused (R202). -/
theorem scheduleNext_out_of_range {n : Nat} (h : n = 0 ∨ 65535 < n) (s : State) :
    scheduleNext n s = .refused (.delayOutOfRange n) :=
  if_neg (by omega)

/-! ### The tick (R204) -/

theorem tickEnabled_iff {s : State} :
    tickEnabled s = true ↔
      s.inited = true ∧ s.run = true ∧ (deliverable s = true → s.waited < s.cfg.latencyMax) := by
  cases hd : deliverable s <;> simp [tickEnabled, hd, and_assoc]

theorem execTick_of_enabled {s : State} (h : tickEnabled s = true) :
    execTick s = .next (tickOnce s) :=
  if_pos h

/-- Once the block is initialised, the mask and the flag alone say whether an event is deliverable. -/
theorem deliverable_eq_false_iff {s : State} (hi : s.inited = true) :
    deliverable s = false ↔ ¬ (s.pending = true ∧ s.irqEn = true) := by
  rw [← Bool.not_eq_true, deliverable_iff, and_iff_right hi]

/-- One tick in the rule's words, while no event is deliverable (R204). -/
theorem tickOnce_of_not_deliverable {s : State} (h : deliverable s = false) :
    tickOnce s =
      { s with
        cnt := BitVec.ofNat 16 ((s.cnt.toNat + 1) % 65536)
        pending := s.pending || BitVec.ofNat 16 ((s.cnt.toNat + 1) % 65536) == s.cmp
        waited := 0 } := by
  have hwaited : waitedAfterTick s = 0 := by simp [waitedAfterTick, h]
  rw [wrapped_add, tickOnce, hwaited]
  rfl

/-- With no latency allowed, a tick is enabled only while no event is deliverable. -/
theorem deliverable_of_tickEnabled {s : State} (h0 : s.cfg.latencyMax = 0)
    (h : tickEnabled s = true) : deliverable s = false := by
  obtain ⟨-, -, hwait⟩ := tickEnabled_iff.mp h
  rw [← Bool.not_eq_true]
  intro hd
  have hlt := hwait hd
  omega

/-! ### The outputs (R205, R206) -/

theorem execSetCols_of_below {s : State} {p : ColPat} (h : belowCols s.cfg.ncols p) :
    execSetCols p s = .next (setCols p s) :=
  if_pos h

theorem execSetCols_of_beyond {s : State} {p : ColPat} (h : ¬ belowCols s.cfg.ncols p) :
    execSetCols p s = .refused (.patternBeyondColumns p) :=
  if_neg h

/-! ### The statements -/

/-- Settles O54: a machine left to itself counts up to the compare, and the tick that meets it sets
`PENDING` (`LeftAlone.plays_ticked`, `LeftAlone.plays_until_fire`). Those runs also count the ticks in
which an LED is lit; any LED does. -/
theorem timerFiresAfterExactlyTheRequestedTicks :
    Obligations.TimerFiresAfterExactlyTheRequestedTicks := by
  intro s n hinit hrun hpend hprog hsched hwait h1 hn hcmp
  have halone : LeftAlone s := ⟨hinit, hrun, hprog, hsched⟩
  constructor
  · intro m hm
    exact (halone.plays_ticked hpend hwait hn hcmp 0 0 hm).run
  · exact (halone.plays_until_fire hpend hwait h1 hn hcmp 0 0).run

/-- Settles O18: without a deliverable event the running timer ticks, and with no latency allowed it
ticks in no other case. -/
theorem tickCountsAndMatches : Obligations.TickCountsAndMatches := by
  intro s
  constructor
  · intro hi hr hno
    have hd := (deliverable_eq_false_iff hi).mpr hno
    have hen : tickEnabled s = true := tickEnabled_iff.mpr ⟨hi, hr, by simp [hd]⟩
    rw [← tickOnce_of_not_deliverable hd]
    exact execTick_of_enabled hen
  · intro h0 hno
    refine execTick_of_not_enabled (Bool.eq_false_iff.mpr fun hen => hno ?_)
    obtain ⟨hi, hr, -⟩ := tickEnabled_iff.mp hen
    exact ⟨hi, hr, (deliverable_eq_false_iff hi).mp (deliverable_of_tickEnabled h0 hen)⟩

/-- Settles O20 by the law of the shared operation: the 16-bit sum, or the refusal. -/
theorem scheduleNextCountsFromTheCall : Obligations.ScheduleNextCountsFromTheCall := by
  intro s n
  constructor
  · intro h1 hn
    rw [wrapped_add]
    exact scheduleNext_eq h1 hn s
  · intro hout
    exact scheduleNext_out_of_range hout s

/-- Settles O21: the state `PROGRAM_PERIOD` answers is the one its shared operation writes. -/
theorem programPeriodConfiguresTheTimer : Obligations.ProgramPeriodConfiguresTheTimer :=
  fun _ _ _ => rfl

/-- Settles O22: `CLEAR_EVENT` returns the flag as it was before the write. -/
theorem clearEventReadsAndClears : Obligations.ClearEventReadsAndClears :=
  fun _ => rfl

/-- Settles O23: each output is written whole, so the second write finds the pattern there; the columns
only with a pattern that has no bit beyond them. -/
theorem outputWritesAreWholeAndIdempotent : Obligations.OutputWritesAreWholeAndIdempotent := by
  intro s
  refine ⟨fun p => ⟨rfl, rfl⟩, fun p => ⟨fun hbelow => ?_, fun hbeyond => ?_⟩⟩
  · exact ⟨execSetCols_of_below hbelow, execSetCols_of_below (s := setCols p s) hbelow⟩
  · exact execSetCols_of_beyond hbeyond

end Sys2Proof.Proofs.TimerAdapter
end

section
/-!
PROOFS of 44_foreground_commands.md: what each command does once the block is initialised and before
(R233, R236, R238 to R241), the reserved codes (R234), the stopped display (R239,
70_reset_and_hazards.md R310), the critical section (R242), and that a foreground which keeps its
duties never sees the machine stop (R244, 60_exceptions.md R250, R251).
-/
namespace Sys2Proof.Proofs.Foreground
open Sys2Proof Sys2Proof.Machine Sys2Proof.Laws
open Sys2Proof.Proofs.Legality Sys2Proof.Proofs.Brightness Sys2Proof.Proofs.TimerAdapter
open Sys2Proof.Proofs.DisplayEngine Sys2Proof.Proofs.Encoding

/-! ### What `COMPILE` raises (60_exceptions.md R251) -/

/-- What a read of levels gives instead of a value: `LevelRange` of a byte above 9, under `REJECT`. -/
def LevelTooHigh (policy : LevelPolicy) (x : NoValue) : Prop :=
  policy = .reject ∧ ∃ v : Byte, 9 < v.toNat ∧ x = .raises (.levelRange v)

theorem clampLevel_error {policy : LevelPolicy} {v : Byte} {x : NoValue}
    (h : clampLevel policy v = .error x) : LevelTooHigh policy x := by
  by_cases hv : v.toNat ≤ 9
  · rw [clampLevel_le hv] at h
    cases h
  · cases policy with
    | clamp =>
      rw [clampLevel_clamp] at h
      cases h
    | reject =>
      rw [clampLevel_reject (by omega)] at h
      cases h
      exact ⟨rfl, v, by omega, rfl⟩

/-- Inside the grid only a greyscale lookup can fail, at the clamp of its byte. -/
theorem brightnessAt_error {policy : LevelPolicy} {img : Image} (hw : img.wf = true) {x y : Nat}
    (hx : x < IMG_W) (hy : y < IMG_H) {e : NoValue} (h : brightnessAt policy img x y = .error e) :
    LevelTooHigh policy e := by
  cases img with
  | grey buf =>
    obtain ⟨v, -, hlevel⟩ := greyLevel_in (policy := policy) (by simpa [Image.wf] using hw) hx hy
    exact clampLevel_error (hlevel.symm.trans h)
  | bits buf =>
    obtain ⟨l, hl⟩ := brightnessAt_total (policy := policy) hw (.inr ⟨buf, rfl⟩) hx hy
    rw [hl] at h
    cases h

theorem levelAt_error {cfg : Config} (hc : cfg.layoutOk) {img : Image} (hw : img.wf = true)
    {r c : Nat} {e : NoValue} (h : levelAt cfg img r c = .error e) :
    LevelTooHigh cfg.levelPolicy e := by
  unfold levelAt at h
  split at h
  · cases h
  · obtain ⟨hx, hy⟩ := cell_in_grid hc ‹_›
    exact brightnessAt_error hw hx hy h

/-- A list read stops with what one of its reads stops with. -/
theorem readEach_error {α β : Type} {f : α → Except NoValue β} {as : List α} {e : NoValue}
    (h : readEach f as = .error e) : ∃ a, f a = .error e := by
  induction as with
  | nil => cases h
  | cons a as ih =>
    rw [readEach] at h
    cases ha : f a with
    | error x =>
      rw [ha] at h
      cases h
      exact ⟨a, ha⟩
    | ok b =>
      cases hbs : readEach f as with
      | error x =>
        rw [ha, hbs] at h
        cases h
        exact ih hbs
      | ok bs =>
        rw [ha, hbs] at h
        cases h

/-- A row whose levels can be read is compiled: the table has an entry for every level (R9). -/
theorem compileRow_error {cfg : Config} (hc : cfg.ok) {img : Image} (hw : img.wf = true) {r : Nat}
    (hr : r < NROWS) {e : NoValue} (h : compileRow cfg img r = .error e) :
    LevelTooHigh cfg.levelPolicy e := by
  have ⟨_, _, hlayout, htrom, _⟩ := hc
  cases hlevels : rowLevels cfg img r with
  | ok levels =>
    rw [compileRow_of_levels hr hlevels, scheduleOf_eq htrom] at h
    cases h
  | error x =>
    rw [compileRow, if_pos hr, hlevels] at h
    cases h
    obtain ⟨c, hcell⟩ := readEach_error hlevels
    exact levelAt_error hlayout hw hcell

/-- A frame whose rows are all compiled is compiled. -/
theorem compileFrame_error {cfg : Config} {img : Image} {e : NoValue}
    (h : compileFrame cfg img = .error e) : ∃ r, r < NROWS ∧ compileRow cfg img r = .error e := by
  unfold compileFrame at h
  split at h
  next h0 => cases h; exact ⟨0, by decide, h0⟩
  split at h
  next h1 => cases h; exact ⟨1, by decide, h1⟩
  split at h
  next h2 => cases h; exact ⟨2, by decide, h2⟩
  next => cases h

/-- The compiler answers a frame, or `LevelRange` under `REJECT`; it is never refused (R237). -/
theorem compileFrame_cases {cfg : Config} (hc : cfg.ok) {img : Image} (hw : img.wf = true) :
    (∃ f, compileFrame cfg img = .ok f) ∨
      cfg.levelPolicy = .reject ∧ ∃ v : Byte, 9 < v.toNat ∧
        compileFrame cfg img = .error (.raises (.levelRange v)) := by
  cases h : compileFrame cfg img with
  | ok f => exact .inl ⟨f, rfl⟩
  | error e =>
    obtain ⟨r, hr, hrow⟩ := compileFrame_error h
    obtain ⟨hp, v, hv, rfl⟩ := compileRow_error hc hw hr hrow
    exact .inr ⟨hp, v, hv, rfl⟩

theorem execCompile_of_error {s : State} {img : Image} {x : Fault}
    (h : compileFrame s.cfg img = .error (.raises x)) :
    execCompile img s = .next { s with prog := [], result := .raised x } := by
  rw [execCompile, h, orRaise_raises, raise]

theorem execCompile_of_ok {s : State} {img : Image} {f : Frame}
    (h : compileFrame s.cfg img = .ok f) :
    execCompile img s = .next { s with result := .frame (encodeFrame f) } := by
  rw [execCompile, h, orRaise_ok, returnValue]

theorem execShowImage_of_error {s : State} {img : Image} {x : Fault}
    (h : compileFrame s.cfg img = .error (.raises x)) :
    execShowImage img s = .next { s with prog := [], result := .raised x } := by
  rw [execShowImage, h, orRaise_raises, raise]

/-! ### Commands before `INIT` and after it (R233) -/

theorem onceInitialised_of_inited {s : State} (h : s.inited = true) (o : Res) :
    onceInitialised s o = o := by
  simp [onceInitialised, h]

theorem onceInitialised_of_not_inited {s : State} (h : s.inited = false) (o : Res) :
    onceInitialised s o = .refused .notInitialised := by
  simp [onceInitialised, h]

/-- Settles O10: the commands that need an initialised block are refused by `onceInitialised`, and
`COMPILE` does what the compiler answers. -/
theorem commandsBeforeInitAreRefused : Obligations.CommandsBeforeInitAreRefused := by
  intro s
  refine ⟨fun hi => ?_, rfl, fun img hc hw => ?_⟩
  · have hrefused := onceInitialised_of_not_inited hi
    exact ⟨fun f => hrefused _, hrefused _, hrefused _, hrefused _, rfl⟩
  · obtain ⟨f, hf⟩ | ⟨hp, v, hv, hraised⟩ := compileFrame_cases hc hw
    · exact .inl ⟨_, execCompile_of_ok hf⟩
    · exact .inr ⟨hp, v, hv, execCompile_of_error hraised⟩

/-- Settles O8: the registers as `INIT` writes them, with the compare at `INIT_DELAY`; a second `INIT`
is refused before it writes anything. -/
theorem initEstablishesTheResetState : Obligations.InitEstablishesTheResetState :=
  fun _ => ⟨execInit_eq, fun hi => if_pos hi⟩

/-- Settles O12: `NOP` answers the state it is given. -/
theorem nopLeavesEverythingUnchanged : Obligations.NopLeavesEverythingUnchanged :=
  fun _ => rfl

/-- Settles O13, by the branches of `SET_FRAME`. -/
theorem setFrameReplacesActiveOnly : Obligations.SetFrameReplacesActiveOnly := by
  intro s f
  refine ⟨execSetFrame_eq, fun hi hf => ?_, fun hi => onceInitialised_of_not_inited hi _⟩
  refine (onceInitialised_of_inited hi _).trans (if_neg ?_)
  simp [hf]

/-- Settles O17: the three stops have no other branch. -/
theorem reservedCodesAndPadAreRefused : Obligations.ReservedCodesAndPadAreRefused :=
  fun _ => ⟨rfl, rfl, rfl⟩

/-! ### The mask (R240, R241) -/

theorem deliverable_of_masked {s : State} (h : s.irqEn = false) : deliverable s = false := by
  simp [deliverable, h]

/-- Settles O15: a masked event is not deliverable, so the handler is refused, the running timer is
not held up, and no waiting is counted. -/
theorem irqDisableMasksTheHandler : Obligations.IrqDisableMasksTheHandler := by
  intro s
  refine ⟨fun hi => onceInitialised_of_not_inited hi _, fun hi => ?_⟩
  have hd : deliverable { s with irqEn := false } = false := deliverable_of_masked rfl
  refine ⟨onceInitialised_of_inited hi _, onceInitialised_of_inited hi _,
    execHandleEvent_of_not_deliverable hd, fun hr => ?_⟩
  have hwaited : waitedAfterTick { s with irqEn := false } = 0 := by simp [waitedAfterTick, hd]
  have hen : tickEnabled { s with irqEn := false } = true :=
    tickEnabled_iff.mpr ⟨hi, hr, by simp [hd]⟩
  refine (execTick_of_enabled hen).trans ?_
  rw [tickOnce, hwaited]
  rfl

/-- A deliverable event with no latency left is handled in the next step; a scheduled engine move is
that step (60_exceptions.md R258). -/
theorem step_of_deliverable {s : State} (hd : deliverable s = true) (hl : s.cfg.latencyMax = 0) :
    ∃ l, (l = s.sched ∨ s.sched = .engine :: l) ∧
      step s = exec .handleEvent { s with sched := l } := by
  by_cases hs : ∃ rest, s.sched = .engine :: rest
  · obtain ⟨rest, hs⟩ := hs
    refine ⟨rest, .inr hs, Scope.step_of_engine ?_⟩
    simp [turn, hs, hd, hl, preempted]
  · exact ⟨s.sched, .inl rfl,
      Scope.step_of_engine (turn_of_deliverable hd hl fun rest h => hs ⟨rest, h⟩)⟩

/-- Settles O16: with the mask open the held event is deliverable, and goes first. -/
theorem irqEnableDeliversAHeldEvent : Obligations.IrqEnableDeliversAHeldEvent := by
  intro s
  refine ⟨fun hi => onceInitialised_of_not_inited hi _, fun hi => ?_⟩
  refine ⟨onceInitialised_of_inited hi _, fun hp hl => ?_⟩
  exact step_of_deliverable (s := { s with irqEn := true }) (deliverable_iff.mpr ⟨hi, hp, rfl⟩) hl

/-! ### The stopped display (R239, 70_reset_and_hazards.md R310) -/

/-- The interrupt-side state, which a foreground operation does not write (60_exceptions.md R270), is
the same in both states. -/
structure SameInterruptSide (s t : State) : Prop where
  row : t.row = s.row
  phase : t.phase = s.phase
  k : t.k = s.k
  elapsed : t.elapsed = s.elapsed
  cols : t.cols = s.cols
  rowbuf : t.rowbuf = s.rowbuf
  rowout : t.rowout = s.rowout
  colout : t.colout = s.colout
  cnt : t.cnt = s.cnt
  cmp : t.cmp = s.cmp
  pending : t.pending = s.pending
  tcfg : t.tcfg = s.tcfg
  inited : t.inited = s.inited

theorem SameInterruptSide.refl (s : State) : SameInterruptSide s s := by
  constructor <;> rfl

theorem SameInterruptSide.trans {s t u : State} (h : SameInterruptSide s t)
    (h' : SameInterruptSide t u) : SameInterruptSide s u where
  row := h'.row.trans h.row
  phase := h'.phase.trans h.phase
  k := h'.k.trans h.k
  elapsed := h'.elapsed.trans h.elapsed
  cols := h'.cols.trans h.cols
  rowbuf := h'.rowbuf.trans h.rowbuf
  rowout := h'.rowout.trans h.rowout
  colout := h'.colout.trans h.colout
  cnt := h'.cnt.trans h.cnt
  cmp := h'.cmp.trans h.cmp
  pending := h'.pending.trans h.pending
  tcfg := h'.tcfg.trans h.tcfg
  inited := h'.inited.trans h.inited

/-- What the foreground and the environment write: everything that is not of the interrupt side. -/
theorem sameInterruptSide_foreground_side (s : State) (f : List Word) (run irqEn : Bool)
    (p : List ScriptLine) (l : List Move) (w : Nat) (r : Result) :
    SameInterruptSide s { s with
      frame := f, run := run, irqEn := irqEn, prog := p, sched := l, waited := w, result := r } := by
  constructor <;> rfl

/-- Once initialised, a foreground operation leaves the interrupt side and the schedule as they are,
and does not set `RUN` (60_exceptions.md R270). -/
theorem foreground_keeps {o : ForegroundOp} {i : Instr} {s t : State} (hi : s.inited = true)
    (ho : decodeForeground o = .ok i) (hx : exec i s = .next t) :
    SameInterruptSide s t ∧ t.sched = s.sched ∧ (t.run = true → s.run = true) := by
  have hside := sameInterruptSide_foreground_side s
  obtain rfl | ⟨hn, -⟩ | ⟨p, r, rfl⟩ | ⟨f, -, -, rfl⟩ | ⟨-, rfl⟩ | ⟨b, p, -, rfl⟩ :=
    foreground_next ho hx
  · exact ⟨.refl _, rfl, id⟩
  · rw [hi] at hn
    cases hn
  · exact ⟨hside s.frame s.run s.irqEn p s.sched s.waited r, rfl, id⟩
  · exact ⟨hside f s.run s.irqEn s.prog s.sched s.waited s.result, rfl, id⟩
  · exact ⟨hside s.frame false s.irqEn s.prog s.sched s.waited s.result, rfl, nofun⟩
  · exact ⟨hside s.frame s.run b p s.sched s.waited s.result, rfl, id⟩

/-- Everything a step of a stopped machine can do: handle an event that is pending, which clears the
flag, or leave the interrupt side as it is. It stays stopped. -/
theorem stopped_step_cases {s t : State} (hi : s.inited = true) (hr : s.run = false)
    (h : step s = .next t) :
    t.run = false ∧
      (deliverable s = true ∧ t.pending = false ∧ t.inited = true ∨ SameInterruptSide s t) := by
  have hside := sameInterruptSide_foreground_side s s.frame s.run s.irqEn
  obtain ⟨l, -, hd, hx⟩ | ⟨p, l, -, hen, -⟩ | ⟨o, i, p, l, -, -, ho, hx⟩ | ⟨p, l, -, -, rfl⟩ :=
    step_next h
  · have hengine := dispatchPhase_engineOnly hx
    exact ⟨hengine.run.trans hr, .inl ⟨hd, hengine.pending, hengine.inited.trans hi⟩⟩
  · obtain ⟨-, hrun, -⟩ := tickEnabled_iff.mp hen
    rw [hr] at hrun
    cases hrun
  · obtain ⟨hsame, -, hrun⟩ := foreground_keeps (s := { s with prog := p, sched := l }) hi ho hx
    refine ⟨Bool.eq_false_iff.mpr fun ht => ?_, .inr ((hside p l s.waited s.result).trans hsame)⟩
    exact Bool.false_ne_true (hr.symm.trans (hrun ht))
  · exact ⟨hr, .inr (hside p l s.waited s.result)⟩

theorem stopped_steps {n : Nat} {s t : State} (hi : s.inited = true) (hr : s.run = false)
    (hp : s.pending = false) (h : steps n s = .next t) : t.run = false ∧ SameInterruptSide s t := by
  induction n generalizing s with
  | zero =>
    cases h
    exact ⟨hr, .refl _⟩
  | succ n ih =>
    obtain ⟨u, hu, h⟩ := andThen_eq_next.mp h
    obtain ⟨hrun, ⟨hd, -⟩ | hsame⟩ := stopped_step_cases hi hr hu
    · rw [deliverable_of_not_pending hp] at hd
      cases hd
    · obtain ⟨hrun', hsame'⟩ := ih (hsame.inited.trans hi) hrun (hsame.pending.trans hp) h
      exact ⟨hrun', hsame.trans hsame'⟩

/-- Settles O56: with no event pending no step of a stopped machine writes the interrupt side. -/
theorem stoppedDisplayIsFrozen : Obligations.StoppedDisplayIsFrozen := by
  intro n s t hi hr hp h
  obtain ⟨hrun, hs⟩ := stopped_steps hi hr hp h
  exact ⟨hrun, hs.pending.trans hp, hs.inited.trans hi, hs.rowout, hs.colout, hs.row, hs.phase, hs.k,
    hs.elapsed, hs.cols, hs.rowbuf, hs.cnt, hs.cmp, hs.tcfg⟩

/-! ### The handler does not read `RUN` (R239) -/

theorem awaitNext_with_run {p : BitVec 2} {k : BitVec 4} {n : Nat} {s t : State} (b : Bool)
    (h : awaitNext p k n s = .next t) :
    awaitNext p k n { s with run := b } = .next { t with run := b } := by
  obtain ⟨h1, hn, rfl⟩ := scheduleNext_next h
  exact scheduleNext_eq h1 hn _

theorem execRowhdr_with_run {p : ColPat} {n : BitVec 4} {s t : State} (b : Bool)
    (h : execRowhdr p n s = .next t) :
    execRowhdr p n { s with run := b } = .next { t with run := b } := by
  unfold execRowhdr at h ⊢
  dsimp only at h ⊢
  split at h
  next hn =>
    obtain ⟨e, he, h⟩ := withValue_eq_next.mp h
    rw [if_pos hn]
    exact withValue_eq_next.mpr ⟨e, he, awaitNext_with_run b h⟩
  next hn =>
    rw [if_neg hn]
    exact awaitNext_with_run b h

theorem execEvt_with_run {p : ColPat} {off : Half} {s t : State} (b : Bool)
    (h : execEvt p off s = .next t) :
    execEvt p off { s with run := b } = .next { t with run := b } := by
  unfold execEvt at h ⊢
  obtain ⟨hd, hh, h⟩ := withValue_eq_next.mp h
  refine withValue_eq_next.mpr ⟨hd, hh, ?_⟩
  dsimp only at h ⊢
  split at h
  next hk =>
    obtain ⟨e, he, h⟩ := withValue_eq_next.mp h
    rw [if_pos hk]
    exact withValue_eq_next.mpr ⟨e, he, awaitNext_with_run b h⟩
  next hk =>
    rw [if_neg hk]
    exact awaitNext_with_run b h

theorem rowStart_with_run {s t : State} (b : Bool) (h : rowStart s = .next t) :
    rowStart { s with run := b } = .next { t with run := b } := by
  obtain ⟨u, hu, h⟩ := andThen_eq_next.mp h
  obtain ⟨ws, hread, rfl⟩ := latchRow_next hu
  obtain ⟨hd, hh, h⟩ := withValue_eq_next.mp h
  have hlatch : latchRow { s with run := b } = .next { s with run := b, rowbuf := ws } :=
    withValue_eq_next.mpr ⟨ws, hread, rfl⟩
  exact (Scope.rowStart_of_header hlatch hh).trans (execRowhdr_with_run b h)

/-- An event is played only below the row's count (R185). -/
theorem rowEvent_next_header {s t : State} (h : rowEvent s = .next t) :
    ∃ pat n, headerOf s.cfg.ncols s.rowbuf = .ok (pat, n) ∧ s.k.toNat < n.toNat := by
  obtain ⟨⟨pat, n⟩, hh, h⟩ := withValue_eq_next.mp h
  refine ⟨pat, n, hh, ?_⟩
  by_contra hk
  rw [if_neg hk] at h
  cases h

theorem rowEvent_with_run {s t : State} (b : Bool) (h : rowEvent s = .next t) :
    rowEvent { s with run := b } = .next { t with run := b } := by
  obtain ⟨pat, n, hh, hk⟩ := rowEvent_next_header h
  obtain ⟨w, clr, off, hw, he, h⟩ := rowEvent_next h
  exact (Scope.rowEvent_of_evt (s := { s with run := b }) hh hk hw he).trans (execEvt_with_run b h)

theorem dispatchPhase_with_run {s t : State} (b : Bool) (h : dispatchPhase s = .next t) :
    dispatchPhase { s with run := b } = .next { t with run := b } := by
  unfold dispatchPhase at h ⊢
  split at h
  next hp =>
    simp only [hp]
    exact rowStart_with_run b h
  next hp =>
    simp only [hp]
    exact rowEvent_with_run b h
  next hp =>
    simp only [hp]
    exact rowStart_with_run b h
  next => cases h

/-- The handler does the same in a stopped machine, and leaves no event pending. -/
theorem execHandleEvent_with_run {s t : State} (b : Bool) (h : execHandleEvent s = .next t) :
    execHandleEvent { s with run := b } = .next { t with run := b } ∧ t.pending = false := by
  obtain ⟨hd, hx⟩ := execHandleEvent_next h
  exact ⟨(execHandleEvent_eq (s := { s with run := b }) hd).trans (dispatchPhase_with_run b hx),
    (dispatchPhase_engineOnly hx).pending⟩

/-- Settles O14, by what the handler and the steps of a stopped machine can do. -/
theorem stopClearsRunOnly : Obligations.StopClearsRunOnly := by
  intro s
  refine ⟨fun hi => onceInitialised_of_not_inited hi _, fun hi => ?_⟩
  have hno (h : s.pending = false ∨ s.irqEn = false) :
      deliverable { s with run := false } = false := by
    obtain hp | hm := h
    · exact deliverable_of_not_pending hp
    · exact deliverable_of_masked hm
  have hen : tickEnabled { s with run := false } = false := by simp [tickEnabled]
  refine ⟨onceInitialised_of_inited hi _, execTick_of_not_enabled hen,
    fun t ht => execHandleEvent_with_run false ht,
    fun h => execHandleEvent_of_not_deliverable (hno h), fun t ht => ?_⟩
  obtain ⟨hrun, ⟨hd, hp, hinit⟩ | hs⟩ := stopped_step_cases (s := { s with run := false }) hi rfl ht
  · refine ⟨hrun, hinit, fun hset => ?_, fun h => ?_⟩
    · rw [hp] at hset
      cases hset
    · rw [hno h] at hd
      cases hd
  · exact ⟨hrun, hs.inited.trans hi, fun hset => hs.pending.symm.trans hset, fun _ =>
      ⟨hs.pending, hs.rowout, hs.colout, hs.row, hs.phase, hs.k, hs.elapsed, hs.cols, hs.rowbuf,
        hs.cnt, hs.cmp, hs.tcfg⟩⟩

/-! ### The critical section (R242) -/

/-- `n` ticks move the counter; what else they write is `PENDING` and the model's own count (R204). -/
theorem tickOnce_iterate (n : Nat) (s : State) :
    tickOnce^[n] s = { s with
      cnt := s.cnt + BitVec.ofNat 16 n
      pending := (tickOnce^[n] s).pending
      waited := (tickOnce^[n] s).waited } := by
  induction n with
  | zero => simp
  | succ n ih =>
    rw [Function.iterate_succ_apply', ← cnt_add_one]
    generalize tickOnce^[n] s = u at ih ⊢
    rw [ih]
    rfl

/-- A fire falls into `n` ticks when one of the next `n` counts meets the compare (R204). -/
theorem tickOnce_iterate_pending {n : Nat} {s : State} :
    (tickOnce^[n] s).pending = true ↔
      s.pending = true ∨ ∃ m, 1 ≤ m ∧ m ≤ n ∧ s.cnt + BitVec.ofNat 16 m = s.cmp := by
  induction n generalizing s with
  | zero =>
    refine ⟨.inl, ?_⟩
    rintro (h | ⟨m, h1, h0, -⟩)
    · exact h
    · omega
  | succ n ih =>
    rw [Function.iterate_succ_apply, ih, tickOnce_pending_iff, meets_succ_iff, or_assoc]
    rfl

/-- A tick does not read `ACTIVE`. -/
theorem tickOnce_iterate_frame (n : Nat) (f : List Word) (s : State) :
    tickOnce^[n] { s with frame := f } = { tickOnce^[n] s with frame := f } := by
  have hcomm : Function.Commute tickOnce fun s => { s with frame := f } := fun _ => rfl
  exact hcomm.iterate_left n s

/-- Inside a critical section of a running machine. -/
structure Masked (s : State) : Prop where
  inited : s.inited = true
  run : s.run = true
  irqEn : s.irqEn = false

theorem Masked.ticked {s : State} (h : Masked s) (n : Nat) : Masked (tickOnce^[n] s) := by
  rw [tickOnce_iterate]
  exact ⟨h.inited, h.run, h.irqEn⟩

/-- Scheduled ticks of a masked machine are all taken, whatever program waits. -/
theorem Masked.steps_ticks {s : State} (h : Masked s) (n : Nat) (p : List ScriptLine)
    (l : List Move) :
    steps n { s with prog := p, sched := List.replicate n .timer ++ l } =
      .next { tickOnce^[n] s with prog := p, sched := l } := by
  induction n generalizing s with
  | zero => rfl
  | succ n ih =>
    have hstep := step_masked_tick
      (s := { s with prog := p, sched := List.replicate (n + 1) .timer ++ l })
      h.inited h.run h.irqEn (l := List.replicate n .timer ++ l) rfl
    rw [steps, hstep, andThen_next]
    exact ih (h.ticked 1)

theorem steps_one (s : State) : steps 1 s = step s := by
  rw [steps]
  cases step s <;> rfl

/-- A command scheduled after `n` ticks of a masked machine is performed on the state they leave. -/
theorem Masked.steps_ticks_command {s : State} (h : Masked s) (n : Nat) {c : Command} {i : Instr}
    (hc : decodeCommand c = .ok i) (p : List ScriptLine) (l : List Move) :
    steps (n + 1)
        { s with
          prog := .op (.port c) :: p
          sched := List.replicate n .timer ++ .foreground :: l } =
      exec i { tickOnce^[n] s with prog := p, sched := l } := by
  rw [steps_add, h.steps_ticks, andThen_next, steps_one]
  exact step_foreground_op (deliverable_of_masked (h.ticked n).irqEn) hc

theorem length_of_frameOk {ncols : Nat} {f : List Word} (h : frameOk ncols f = true) :
    f.length = FRAME_WORDS := by
  obtain ⟨g, hg, rfl⟩ := frameOk_iff.mp h
  exact length_encodeFrame hg

theorem execSetFrameCs_eq {s : State} (hi : s.inited = true) (f : List Word) :
    execSetFrameCs f s = .next
      { s with
        irqEn := false
        prog := .op (.port (setFrameCommand f)) :: .op (.port (bareCommand 6)) :: s.prog } :=
  onceInitialised_of_inited hi _

theorem decodeForeground_setFrameCs {f : List Word} (h : f.length = FRAME_WORDS) :
    decodeForeground (.setFrameCs f) = .ok (.setFrameCs f) :=
  if_pos h

/-- A scheduled `set_frame_cs` is its `IRQ_DISABLE`; the program goes on with the other two commands. -/
theorem step_setFrameCs {s : State} (hi : s.inited = true) (hd : deliverable s = false)
    {f : List Word} (hf : f.length = FRAME_WORDS) (p : List ScriptLine) (l : List Move) :
    step { s with prog := .op (.setFrameCs f) :: p, sched := .foreground :: l } = .next
      { s with
        irqEn := false
        prog := .op (.port (setFrameCommand f)) :: .op (.port (bareCommand 6)) :: p
        sched := l } :=
  (step_foreground_op hd (decodeForeground_setFrameCs hf)).trans
    (execSetFrameCs_eq (s := { s with prog := p, sched := l }) hi f)

/-- A run that begins with a `SET_FRAME`, whatever program and schedule wait. -/
theorem andThen_setFrame {s : State} {f : List Word} (hi : s.inited = true)
    (hf : frameOk s.cfg.ncols f = true) (p : List ScriptLine) (l : List Move) (g : State → Res) :
    andThen (exec (.setFrame f) { s with prog := p, sched := l }) g =
      g { s with frame := f, prog := p, sched := l } :=
  congrArg (andThen · g) (execSetFrame_eq (s := { s with prog := p, sched := l }) hi hf)

/-- The rest of the section, with `a` and `b` ticks before its two commands: the ticks are those of a
masked machine, the frame is replaced between them, and the mask is opened after them. -/
theorem Masked.steps_section {s : State} (h : Masked s) {f : List Word}
    (hf : frameOk s.cfg.ncols f = true) (a b : Nat) (p : List ScriptLine) (l : List Move) :
    steps ((a + 1) + (b + 1))
        { s with
          prog := .op (.port (setFrameCommand f)) :: .op (.port (bareCommand 6)) :: p
          sched := List.replicate a .timer ++ .foreground ::
            (List.replicate b .timer ++ .foreground :: l) } =
      .next { tickOnce^[a + b] s with frame := f, irqEn := true, prog := p, sched := l } := by
  have hcfg : (tickOnce^[a] s).cfg = s.cfg := by rw [tickOnce_iterate]
  have hset := decodeCommand_setFrame (length_of_frameOk hf)
  have ha := h.ticked a
  have hm : Masked { tickOnce^[a] s with frame := f } := ⟨ha.inited, ha.run, ha.irqEn⟩
  have hframe : tickOnce^[b] { tickOnce^[a] s with frame := f } =
      { tickOnce^[a + b] s with frame := f } := by
    rw [add_comm, Function.iterate_add_apply]
    exact tickOnce_iterate_frame b f _
  rw [steps_add, h.steps_ticks_command a hset, andThen_setFrame ha.inited (hcfg ▸ hf)]
  refine (hm.steps_ticks_command b (c := bareCommand 6) (i := .irqEnable) rfl p l).trans ?_
  rw [hframe]
  exact onceInitialised_of_inited (h.ticked (a + b)).inited _

/-- Settles O43: the `IRQ_DISABLE`, then the rest of the section. -/
theorem criticalSectionSetsTheFrame : Obligations.CriticalSectionSetsTheFrame := by
  intro s f
  refine ⟨fun hi => onceInitialised_of_not_inited hi _, fun hi => execSetFrameCs_eq hi f,
    fun hi hr hd hf a b => ?_⟩
  have hmasked : Masked { s with irqEn := false } := ⟨hi, hr, rfl⟩
  refine ⟨{ tickOnce^[a + b] { s with irqEn := false } with
    frame := f, irqEn := true, prog := s.prog, sched := s.sched }, ?_, ?_, tickOnce_iterate_pending⟩
  · rw [show a + b + 3 = (a + 1) + (b + 1) + 1 by omega, steps,
      step_setFrameCs hi hd (length_of_frameOk hf), andThen_next]
    exact hmasked.steps_section hf a b s.prog s.sched
  · exact congrArg
      (fun u => { u with frame := f, irqEn := true, prog := s.prog, sched := s.sched })
      (tickOnce_iterate (a + b) { s with irqEn := false })

/-! ### A foreground that keeps its duties (R244, 60_exceptions.md R250) -/

/-- The block is initialised, and what is left of program and schedule keeps the foreground's duties. -/
structure Dutiful (s : State) : Prop where
  inited : s.inited = true
  prog : s.prog.all (ScriptLine.dutiful s.cfg.ncols) = true
  sched : s.sched.all Move.dutiful = true

theorem Dutiful.congr {s t : State} (h : Dutiful s) (hi : t.inited = s.inited) (hc : t.cfg = s.cfg)
    (hp : t.prog = s.prog) (hs : t.sched = s.sched) : Dutiful t where
  inited := hi.trans h.inited
  prog := by rw [hp, hc]; exact h.prog
  sched := by rw [hs]; exact h.sched

/-- A program is dutiful when its first line and the rest are. -/
theorem dutiful_cons {ncols : Nat} {l : ScriptLine} {p : List ScriptLine} :
    (l :: p).all (ScriptLine.dutiful ncols) = true ↔
      l.dutiful ncols = true ∧ p.all (ScriptLine.dutiful ncols) = true := by
  rw [List.all_cons, Bool.and_eq_true]

theorem setFrameCommand_dutiful {ncols : Nat} {f : List Word} (h : frameOk ncols f = true) :
    ScriptLine.dutiful ncols (.op (.port (setFrameCommand f))) = true := by
  rw [ScriptLine.dutiful, ForegroundOp.dutiful, decodeCommand_setFrame (length_of_frameOk h)]
  exact h

/-- The instructions the duties of R244 leave to the foreground of an initialised block. -/
inductive DutifulInstr (ncols : Nat) : Instr → Prop
  | nop : DutifulInstr ncols .nop
  | compile {img : Image} (h : img.wf = true) : DutifulInstr ncols (.compile img)
  | setFrame {f : List Word} (h : frameOk ncols f = true) : DutifulInstr ncols (.setFrame f)
  | stop : DutifulInstr ncols .stop
  | irqDisable : DutifulInstr ncols .irqDisable
  | irqEnable : DutifulInstr ncols .irqEnable
  | showImage {img : Image} (h : img.wf = true) : DutifulInstr ncols (.showImage img)
  | setFrameCs {f : List Word} (h : frameOk ncols f = true) : DutifulInstr ncols (.setFrameCs f)

theorem decodeImage_wf {kind : BitVec 1} {buf : List Byte} {img : Image}
    (h : decodeImage kind buf = .ok img) : img.wf = true := by
  unfold decodeImage at h
  split at h
  · split at h
    · cases h
      simpa [Image.wf]
    · cases h
  · split at h
    · cases h
      simpa [Image.wf]
    · cases h

/-- A dutiful command decodes: of the eight codes only `INIT` and the reserved one break the duties
(R244). -/
theorem decodeCommand_dutiful {ncols : Nat} {c : Command}
    (h : ForegroundOp.dutiful ncols (.port c) = true) :
    ∃ i, decodeCommand c = .ok i ∧ DutifulInstr ncols i := by
  cases hi : decodeCommand c with
  | error e =>
    rw [ForegroundOp.dutiful, hi] at h
    cases h
  | ok i =>
    refine ⟨i, rfl, ?_⟩
    rw [ForegroundOp.dutiful, hi] at h
    unfold decodeCommand at hi
    split at hi
    · cases hi
      exact .nop
    · cases hi
      cases h
    · split at hi
      · cases hi
        exact .compile (decodeImage_wf ‹_›)
      · cases hi
    · split at hi
      · cases hi
        exact .setFrame h
      · cases hi
    · cases hi
      exact .stop
    · cases hi
      exact .irqDisable
    · cases hi
      exact .irqEnable
    · cases hi
      cases h

theorem decodeForeground_dutiful {ncols : Nat} {o : ForegroundOp} (h : o.dutiful ncols = true) :
    ∃ i, decodeForeground o = .ok i ∧ DutifulInstr ncols i := by
  cases o with
  | port c => exact decodeCommand_dutiful h
  | showImage img => exact ⟨_, if_pos h, .showImage h⟩
  | setFrameCs f => exact ⟨_, decodeForeground_setFrameCs (length_of_frameOk h), .setFrameCs h⟩

/-- A dutiful operation completes, and what it leaves of the program is dutiful: a raised `LevelRange`
leaves none, and a pseudo-operation queues commands on a well-formed frame. -/
theorem exec_dutiful {i : Instr} {s : State} (hc : s.cfg.ok) (h : Dutiful s)
    (hi : DutifulInstr s.cfg.ncols i) :
    ∃ t, exec i s = .next t ∧ t.prog.all (ScriptLine.dutiful s.cfg.ncols) = true := by
  have hrun := onceInitialised_of_inited h.inited
  cases hi with
  | nop => exact ⟨s, rfl, h.prog⟩
  | compile hw =>
    obtain ⟨f, hf⟩ | ⟨-, v, -, hraised⟩ := compileFrame_cases hc hw
    · exact ⟨_, execCompile_of_ok hf, h.prog⟩
    · exact ⟨_, execCompile_of_error hraised, rfl⟩
  | setFrame hf => exact ⟨_, execSetFrame_eq h.inited hf, h.prog⟩
  | stop => exact ⟨_, hrun _, h.prog⟩
  | irqDisable => exact ⟨_, hrun _, h.prog⟩
  | irqEnable => exact ⟨_, hrun _, h.prog⟩
  | showImage hw =>
    obtain ⟨f, hf⟩ | ⟨-, v, -, hraised⟩ := compileFrame_cases hc hw
    · have hset := setFrameCommand_dutiful (frameOk_of_compileFrame hc hf)
      exact ⟨_, execShowImage_eq hf, dutiful_cons.mpr ⟨hset, h.prog⟩⟩
    · exact ⟨_, execShowImage_of_error hraised, rfl⟩
  | setFrameCs hf =>
    have hset := setFrameCommand_dutiful hf
    exact ⟨_, execSetFrameCs_eq h.inited _,
      dutiful_cons.mpr ⟨hset, dutiful_cons.mpr ⟨rfl, h.prog⟩⟩⟩

/-- What a turn of a dutiful machine is: the engine's only when the event is deliverable, the
foreground's with a dutiful operation, and what is left of program and schedule is dutiful. -/
def DutifulTurn : Turn → Prop
  | .engine t => deliverable t = true ∧ Dutiful t
  | .timer t => Dutiful t
  | .foreground o t => o.dutiful t.cfg.ncols = true ∧ Dutiful t
  | .idle t => Dutiful t

theorem runTurn_dutiful {s t : State} (hs : Dutiful s) (ht : Dutiful t) :
    DutifulTurn (runTurn s t) := by
  unfold runTurn
  split
  next hd => exact ⟨hd, hs⟩
  split
  · exact ht
  · exact ht

theorem foregroundTurn_dutiful {s t : State} (hs : Dutiful s) (ht : Dutiful t) :
    DutifulTurn (foregroundTurn s t) := by
  have hrest {l : ScriptLine} {p : List ScriptLine} (hp : t.prog = l :: p) :=
    dutiful_cons.mp (hp ▸ ht.prog)
  unfold foregroundTurn
  split
  next => exact ht
  next o p hp => exact ⟨(hrest hp).1, ht.inited, (hrest hp).2, ht.sched⟩
  next p hp => exact ⟨ht.inited, (hrest hp).2, ht.sched⟩
  next n p hp =>
    exact runTurn_dutiful hs ⟨ht.inited, dutiful_cons.mpr ⟨rfl, (hrest hp).2⟩, ht.sched⟩

theorem freeTurn_dutiful {s : State} (h : Dutiful s) : DutifulTurn (freeTurn s) := by
  unfold freeTurn
  split
  next hd => exact ⟨hd, h⟩
  split
  · split
    · exact h
    · exact h
  · exact foregroundTurn_dutiful h h

theorem scheduledTurn_dutiful {m : Move} {s t : State} (hm : Move.dutiful m = true) (hs : Dutiful s)
    (ht : Dutiful t) : DutifulTurn (scheduledTurn m s t) := by
  cases m with
  | engine => cases hm
  | timer =>
    unfold scheduledTurn
    dsimp only
    split
    · exact ht
    split
    next hd => exact ⟨hd, hs⟩
    next => exact ht
  | foreground => exact foregroundTurn_dutiful hs ht

theorem turn_dutiful {s : State} (h : Dutiful s) : DutifulTurn (turn s) := by
  unfold turn
  split
  next => exact freeTurn_dutiful h
  next m l hs =>
    have hsched := h.sched
    rw [hs, List.all_cons, Bool.and_eq_true] at hsched
    obtain ⟨hm, hl⟩ := hsched
    split
    next hfirst =>
      obtain ⟨hd, -⟩ := Bool.and_eq_true_iff.mp hfirst
      cases m with
      | engine => cases hm
      | timer => exact ⟨hd, h⟩
      | foreground => exact ⟨hd, h⟩
    next => exact scheduledTurn_dutiful hm h ⟨h.inited, h.prog, hl⟩

/-- A step of a dutiful machine in a legal state completes, and leaves it dutiful. -/
theorem step_dutiful {s : State} (hl : Legal s) (h : Dutiful s) :
    ∃ t, step s = .next t ∧ Dutiful t := by
  have hfrom := turn_from s
  have hduty := turn_dutiful h
  cases hturn : turn s <;> rw [hturn] at hfrom hduty
  case engine =>
    obtain ⟨hd, ht⟩ := hduty
    obtain ⟨l, rfl⟩ := hfrom
    obtain ⟨hinit, hpend, -⟩ := deliverable_iff.mp hd
    obtain ⟨u, hx, -⟩ := dispatchPhase_completes
      (s := { s with sched := l, pending := false, waited := 0 })
      (inv_of_pending (hl.inv hinit) hpend l 0)
    have hside := dispatchPhase_engineOnly hx
    exact ⟨u, (Scope.step_of_engine hturn).trans ((execHandleEvent_eq hd).trans hx),
      ht.congr hside.inited hside.cfg hside.prog hside.sched⟩
  case timer =>
    obtain ⟨hen, p, l, rfl, -⟩ := hfrom
    exact ⟨_, (Scope.step_of_timer hturn).trans (execTick_of_enabled hen),
      hduty.congr rfl rfl rfl rfl⟩
  case foreground =>
    obtain ⟨ho, ht⟩ := hduty
    obtain ⟨p, l, -, rfl⟩ := hfrom
    obtain ⟨i, hi, hinstr⟩ := decodeForeground_dutiful ho
    obtain ⟨u, hx, hprog⟩ := exec_dutiful (s := { s with prog := p, sched := l }) hl.cfgOk ht hinstr
    obtain ⟨hsame, hsched, -⟩ := foreground_keeps ht.inited hi hx
    refine ⟨u, (Scope.step_of_foreground hturn hi).trans hx, hsame.inited.trans ht.inited, ?_, ?_⟩
    · rw [Scope.foreground_cfg hi hx]
      exact hprog
    · rw [hsched]
      exact ht.sched
  case idle => exact ⟨_, Scope.step_of_idle hturn, hduty⟩

/-- Settles O49: whose turn it is, that agent's step completes and keeps the duties. -/
theorem dutifulRunsNeverStop : Obligations.DutifulRunsNeverStop := by
  intro s hl hi hp hs
  obtain ⟨t, ht, hd⟩ := step_dutiful hl ⟨hi, hp, hs⟩
  exact ⟨t, ht, hd.inited, Scope.stepKeepsTheConfiguration s t ht, hd.prog, hd.sched⟩

end Sys2Proof.Proofs.Foreground
end

section
/-!
PROOFS of 60_exceptions.md: a deliverable event goes first and waits no longer than allowed (R258),
the foreground writes only its own side of the state (R270), and the one fault there is ends the
foreground program and leaves the block as it was (R250, R251).
-/
namespace Sys2Proof.Proofs.Exceptions
open Sys2Proof Sys2Proof.Machine Sys2Proof.Laws
open Sys2Proof.Proofs.Legality Sys2Proof.Proofs.Brightness Sys2Proof.Proofs.TimerAdapter
open Sys2Proof.Proofs.DisplayEngine Sys2Proof.Proofs.Foreground

/-! ### The latency bound (R258) -/

/-- Settles O45, by whose turn it is with no latency left: the engine's, which takes its own move
off the schedule and leaves any other there. -/
theorem deliverableEventGoesFirst : Obligations.DeliverableEventGoesFirst := by
  intro s hl hi hp he
  have hd : deliverable s = true := deliverable_iff.mpr ⟨hi, hp, he⟩
  constructor
  · intro rest hs
    refine Scope.step_of_engine ?_
    simp [turn, hs, hd, hl, preempted]
  · intro hs
    exact Scope.step_of_engine (turn_of_deliverable hd hl hs)

/-- A tick counts for the event that is deliverable while it is taken. -/
theorem waitedAfterTick_of_deliverable {s : State} (h : deliverable s = true) :
    waitedAfterTick s = s.waited + 1 :=
  if_pos h

/-- Settles O19: with an event deliverable the tick is enabled exactly below the bound, and it
leaves the flag set. -/
theorem latencyBoundsTheTicksOfAWaitingEvent :
    Obligations.LatencyBoundsTheTicksOfAWaitingEvent := by
  intro s hi hr hp he
  have hd : deliverable s = true := deliverable_iff.mpr ⟨hi, hp, he⟩
  constructor
  · intro hlt
    have hen : tickEnabled s = true := tickEnabled_iff.mpr ⟨hi, hr, fun _ => hlt⟩
    refine (execTick_of_enabled hen).trans ?_
    rw [tickOnce, waitedAfterTick_of_deliverable hd, pendingAfter, hp, Bool.true_or]
  · intro hle
    refine execTick_of_not_enabled (Bool.eq_false_iff.mpr fun hen => ?_)
    obtain ⟨-, -, hwait⟩ := tickEnabled_iff.mp hen
    exact absurd (hwait hd) (Nat.not_lt.mpr hle)

/-- An enabled tick does not take the count past the bound: either no event is deliverable, and the
count starts again, or the one that is had a tick left. -/
theorem waitedAfterTick_le {s : State} (h : tickEnabled s = true) :
    waitedAfterTick s ≤ s.cfg.latencyMax := by
  obtain ⟨-, -, hwait⟩ := tickEnabled_iff.mp h
  unfold waitedAfterTick
  split
  next hd => exact hwait hd
  next => exact Nat.zero_le _

/-- A foreground operation does not count: `INIT` clears the count, every other leaves it. -/
theorem foreground_waited {o : ForegroundOp} {i : Instr} {s t : State}
    (ho : decodeForeground o = .ok i) (hx : exec i s = .next t) :
    t.waited = 0 ∨ t.waited = s.waited := by
  obtain rfl | ⟨-, hinit⟩ | ⟨_, _, rfl⟩ | ⟨_, -, -, rfl⟩ | ⟨-, rfl⟩ | ⟨_, _, -, rfl⟩ :=
    foreground_next ho hx
  case inr.inl =>
    obtain ⟨-, -, rfl⟩ := execInit_next hinit
    exact .inl rfl
  all_goals exact .inr rfl

/-- Settles O53, by what a step of each agent does with the count: the handler starts it again, a
tick is enabled only below the bound, and the foreground and an idle turn do not raise it. -/
theorem waitingNeverExceedsTheLatency : Obligations.WaitingNeverExceedsTheLatency := by
  intro s t hs h
  rw [Scope.stepKeepsTheConfiguration s t h]
  obtain ⟨l, -, -, hx⟩ | ⟨p, l, -, hen, -, rfl⟩ | ⟨o, i, p, l, -, -, ho, hx⟩ | ⟨p, l, -, -, rfl⟩ :=
    step_next h
  · have hzero : t.waited = 0 := (dispatchPhase_engineOnly hx).waited
    omega
  · exact waitedAfterTick_le (s := { s with prog := p, sched := l }) hen
  · obtain hzero | hsame := foreground_waited ho hx
    · omega
    · exact hsame.trans_le hs
  · exact hs

/-! ### The foreground's side of the state (R270) -/

/-- Before `INIT` every other foreground operation is refused, or writes the program and the
returned value only (44_foreground_commands.md R233). -/
theorem foreground_before_init {o : ForegroundOp} {i : Instr} {s t : State} (hi : s.inited = false)
    (ho : decodeForeground o = .ok i) (hne : i ≠ .init) (hx : exec i s = .next t) :
    ∃ p r, t = { s with prog := p, result := r } := by
  have hrefused {o : Res} (h : onceInitialised s o = .next t) :
      ∃ p r, t = { s with prog := p, result := r } := by
    rw [onceInitialised_of_not_inited hi] at h
    cases h
  cases o with
  | port c =>
    simp only [decodeForeground, decodeCommand] at ho
    split at ho
    next => cases ho; cases hx; exact ⟨s.prog, s.result, rfl⟩
    next => cases ho; exact absurd rfl hne
    next =>
      split at ho
      · cases ho
        obtain ⟨_, -, rfl⟩ | ⟨_, -, rfl⟩ := execCompile_next hx
        · exact ⟨s.prog, _, rfl⟩
        · exact ⟨_, _, rfl⟩
      · cases ho
    next =>
      split at ho
      · cases ho; exact hrefused hx
      · cases ho
    next => cases ho; exact hrefused hx
    next => cases ho; exact hrefused hx
    next => cases ho; exact hrefused hx
    next => cases ho; cases hx
  | showImage img =>
    simp only [decodeForeground] at ho
    split at ho
    · cases ho
      obtain ⟨_, -, rfl⟩ | ⟨_, -, rfl⟩ := execShowImage_next hx <;> exact ⟨_, _, rfl⟩
    · cases ho
  | setFrameCs f =>
    simp only [decodeForeground] at ho
    split at ho
    · cases ho; exact hrefused hx
    · cases ho

/-- A foreground operation but `INIT` leaves the interrupt side, before `INIT` and after. -/
theorem foreground_sameInterruptSide {o : ForegroundOp} {i : Instr} {s t : State}
    (ho : decodeForeground o = .ok i) (hne : i ≠ .init) (hx : exec i s = .next t) :
    SameInterruptSide s t := by
  cases hi : s.inited with
  | true => exact (foreground_keeps hi ho hx).1
  | false =>
    obtain ⟨p, r, rfl⟩ := foreground_before_init hi ho hne hx
    exact sameInterruptSide_foreground_side s s.frame s.run s.irqEn p s.sched s.waited r

/-- Settles O51: every register of the interrupt side is as it was (`SameInterruptSide`). -/
theorem foregroundLeavesTheInterruptSide : Obligations.ForegroundLeavesTheInterruptSide := by
  intro o i s t ho hne hx
  have hsame := foreground_sameInterruptSide ho hne hx
  exact ⟨hsame.row, hsame.phase, hsame.k, hsame.elapsed, hsame.cols, hsame.rowbuf, hsame.rowout,
    hsame.colout, hsame.cnt, hsame.cmp, hsame.pending, hsame.tcfg, hsame.inited⟩

/-! ### The only fault (R250, R251) -/

/-- An outcome that is no fault. -/
def NoFault (o : Res) : Prop := ∀ x, o ≠ .fault x

theorem noFault_next (s : State) : NoFault (.next s) := nofun

theorem noFault_refused (x : Refusal) : NoFault (.refused x) := nofun

theorem NoFault.ite {p : Prop} [Decidable p] {a b : Res} (ha : NoFault a) (hb : NoFault b) :
    NoFault (if p then a else b) := by
  split
  · exact ha
  · exact hb

theorem noFault_withValue {α : Type} (e : Except Refusal α) {f : α → Res}
    (hf : ∀ a, NoFault (f a)) : NoFault (withValue e f) := by
  cases e with
  | error x => exact noFault_refused x
  | ok a => exact hf a

theorem NoFault.andThen {o : Res} {f : State → Res} (ho : NoFault o) (hf : ∀ s, NoFault (f s)) :
    NoFault (andThen o f) := by
  cases o with
  | next s => exact hf s
  | fault x => exact absurd rfl (ho x)
  | refused x => exact noFault_refused x

/-- A fault that is raised is a next state (R251, log entry 12). -/
theorem noFault_orRaise {α : Type} (e : Except NoValue α) (s : State) {f : α → Res}
    (hf : ∀ a, NoFault (f a)) : NoFault (orRaise e s f) := by
  obtain (x | x) | a := e
  · exact noFault_next _
  · exact noFault_refused x
  · exact hf a

theorem noFault_onceInitialised {s : State} {o : Res} (ho : NoFault o) :
    NoFault (onceInitialised s o) :=
  ho.ite (noFault_refused _)

theorem noFault_scheduleNext (n : Nat) (s : State) : NoFault (scheduleNext n s) :=
  (noFault_next _).ite (noFault_refused _)

theorem noFault_awaitNext (p : BitVec 2) (k : BitVec 4) (n : Nat) (s : State) :
    NoFault (awaitNext p k n s) :=
  noFault_scheduleNext n _

theorem noFault_execRowhdr (p : ColPat) (n : BitVec 4) (s : State) : NoFault (execRowhdr p n s) :=
  (noFault_withValue _ fun _ => noFault_awaitNext _ _ _ _).ite (noFault_awaitNext _ _ _ _)

theorem noFault_execEvt (p : ColPat) (off : Half) (s : State) : NoFault (execEvt p off s) :=
  noFault_withValue _ fun _ =>
    (noFault_withValue _ fun _ => noFault_awaitNext _ _ _ _).ite (noFault_awaitNext _ _ _ _)

theorem noFault_playEventWord (i : Instr) (s : State) : NoFault (playEventWord i s) := by
  cases i with
  | evt clr off => exact noFault_execEvt clr off s
  | _ => exact noFault_refused _

theorem noFault_rowStart (s : State) : NoFault (rowStart s) :=
  (noFault_withValue _ fun _ => noFault_next _).andThen fun _ =>
    noFault_withValue _ fun _ => noFault_execRowhdr _ _ _

theorem noFault_rowEvent (s : State) : NoFault (rowEvent s) := by
  refine noFault_withValue _ fun h => NoFault.ite ?_ (noFault_refused _)
  split
  · exact noFault_refused _
  · split
    · exact noFault_playEventWord _ s
    · exact noFault_refused _

theorem noFault_dispatchPhase (s : State) : NoFault (dispatchPhase s) := by
  unfold dispatchPhase
  split
  · exact noFault_rowStart s
  · exact noFault_rowEvent s
  · exact noFault_rowStart _
  · exact noFault_refused _

theorem noFault_execHandleEvent (s : State) : NoFault (execHandleEvent s) := by
  have htake : NoFault (takeInterrupt s) := (noFault_next _).ite (noFault_refused _)
  exact (htake.andThen noFault_dispatchPhase).andThen noFault_next

/-- No instruction stops the machine with a fault. -/
theorem noFault_exec (i : Instr) (s : State) : NoFault (exec i s) := by
  cases i with
  | rowhdr pat n => exact noFault_execRowhdr pat n s
  | evt clr off => exact noFault_execEvt clr off s
  | pad => exact noFault_refused _
  | nop => exact noFault_next _
  | init =>
    exact (noFault_refused _).ite ((noFault_scheduleNext _ _).andThen fun _ => noFault_next _)
  | compile img => exact noFault_orRaise _ _ fun _ => noFault_next _
  | setFrame f => exact noFault_onceInitialised ((noFault_next _).ite (noFault_refused _))
  | stop => exact noFault_onceInitialised (noFault_next _)
  | irqDisable => exact noFault_onceInitialised (noFault_next _)
  | irqEnable => exact noFault_onceInitialised (noFault_next _)
  | cmdReserved7 => exact noFault_refused _
  | handleEvent => exact noFault_execHandleEvent s
  | handleRowStart => exact noFault_rowStart s
  | handleRowEvent => exact noFault_rowEvent s
  | handleRowEnd => exact noFault_rowStart _
  | phaseReserved3 => exact noFault_refused _
  | tick => exact (noFault_next _).ite (noFault_refused _)
  | programPeriod tickUs rowTicks => exact noFault_next _
  | scheduleNext n => exact noFault_scheduleNext n s
  | clearEvent => exact noFault_next _
  | setRows p => exact noFault_next _
  | setCols p => exact (noFault_next _).ite (noFault_refused _)
  | clamp v => exact noFault_orRaise _ _ fun _ => noFault_next _
  | thresholdOf l => exact noFault_orRaise _ _ fun _ => noFault_next _
  | greyBrightnessAt buf x y => exact noFault_orRaise _ _ fun _ => noFault_next _
  | bitBrightnessAt buf x y => exact noFault_orRaise _ _ fun _ => noFault_next _
  | compileRow img r => exact noFault_orRaise _ _ fun _ => noFault_next _
  | showImage img => exact noFault_orRaise _ _ fun _ => noFault_next _
  | setFrameCs f => exact noFault_onceInitialised (noFault_next _)

theorem noFault_step (s : State) : NoFault (step s) := by
  unfold step
  split
  · exact noFault_exec _ _
  · exact noFault_exec _ _
  · split
    · exact noFault_exec _ _
    · exact noFault_refused _
  · exact noFault_next _

/-! ### What raises it (R251) -/

/-- A read that raises `LevelRange` of a byte above 9, under `REJECT`, or raises nothing. -/
def RaisesLevelRange {α : Type} (policy : LevelPolicy) (e : Except NoValue α) : Prop :=
  ∀ x, e = .error (.raises x) → LevelTooHigh policy (.raises x)

theorem imageByte_ne_raises (buf : List Byte) (i : Nat) (x : Fault) :
    imageByte buf i ≠ .error (.raises x) := by
  unfold imageByte
  split <;> nofun

theorem threshold_ne_raises (trom : List Half) (l : Nat) (x : Fault) :
    threshold trom l ≠ .error (.raises x) := by
  unfold threshold
  split <;> nofun

theorem bitLevel_ne_raises (buf : List Byte) (i j : Nat) (x : Fault) :
    bitLevel buf i j ≠ .error (.raises x) := by
  intro h
  unfold bitLevel at h
  split at h
  · split at h
    · cases h
    · next hbyte =>
      cases h
      exact imageByte_ne_raises _ _ _ hbyte
  · cases h

theorem raisesLevelRange_clampLevel (policy : LevelPolicy) (v : Byte) :
    RaisesLevelRange policy (clampLevel policy v) :=
  fun _ => clampLevel_error

theorem raisesLevelRange_greyLevel (policy : LevelPolicy) (buf : List Byte) (x y : Nat) :
    RaisesLevelRange policy (greyLevel policy buf x y) := by
  intro f h
  unfold greyLevel at h
  split at h
  · split at h
    · exact clampLevel_error h
    · next hbyte =>
      cases h
      exact absurd hbyte (imageByte_ne_raises _ _ _)
  · cases h

theorem raisesLevelRange_levelAt (cfg : Config) (img : Image) (r c : Nat) :
    RaisesLevelRange cfg.levelPolicy (levelAt cfg img r c) := by
  intro f h
  unfold levelAt at h
  split at h
  · cases h
  · cases img with
    | grey buf => exact raisesLevelRange_greyLevel _ _ _ _ f h
    | bits buf => exact absurd h (bitLevel_ne_raises _ _ _ _)

/-- A list of events wants thresholds only, and those are read or refused. -/
theorem eventsFor_ne_raises (trom : List Half) (levels : List Level) (ls : List Nat) (x : Fault) :
    eventsFor trom levels ls ≠ .error (.raises x) := by
  induction ls with
  | nil => nofun
  | cons l ls ih =>
    intro h
    simp only [eventsFor] at h
    split at h
    next hrest => cases h; exact ih hrest
    split at h
    next => cases h
    split at h
    next hthreshold => cases h; exact threshold_ne_raises _ _ _ hthreshold
    next => cases h

theorem raisesLevelRange_compileRow (cfg : Config) (img : Image) (r : Nat) :
    RaisesLevelRange cfg.levelPolicy (compileRow cfg img r) := by
  intro f h
  unfold compileRow at h
  split at h
  · split at h
    · next hlevels =>
      cases h
      obtain ⟨c, hcell⟩ := readEach_error hlevels
      exact raisesLevelRange_levelAt cfg img r c f hcell
    · unfold scheduleOf at h
      split at h
      · next hevents =>
        cases h
        exact absurd hevents (eventsFor_ne_raises _ _ _ _)
      · cases h
  · cases h

theorem raisesLevelRange_compileFrame (cfg : Config) (img : Image) :
    RaisesLevelRange cfg.levelPolicy (compileFrame cfg img) := by
  intro f h
  obtain ⟨r, -, hrow⟩ := compileFrame_error h
  exact raisesLevelRange_compileRow cfg img r f hrow

/-- `LevelRange` of a byte above 9 was raised, under `REJECT`: the foreground program ended, the
block as it was. -/
def LevelRangeRaised (s t : State) (x : Fault) : Prop :=
  s.cfg.levelPolicy = .reject ∧ (∃ v, x = .levelRange v ∧ 9 < v.toNat) ∧
    t = { s with prog := [], result := .raised x }

/-- An operation that reads a level and returns a value raises nothing else. -/
theorem levelRangeRaised_of_orRaise {α : Type} {e : Except NoValue α} {s t : State} {f : α → State}
    {x : Fault} (he : RaisesLevelRange s.cfg.levelPolicy e)
    (h : orRaise e s (fun a => .next (f a)) = .next t) (hf : ∀ a, (f a).result ≠ .raised x)
    (hr : t.result = .raised x) : LevelRangeRaised s t x := by
  obtain ⟨a, -, ha⟩ | ⟨y, hraises, rfl⟩ := orRaise_eq_next.mp h
  · cases ha
    exact absurd hr (hf a)
  · cases hr
    obtain ⟨hp, v, hv, hx⟩ := he x hraises
    cases hx
    exact ⟨hp, ⟨v, rfl, hv⟩, rfl⟩

/-- A lookup that reads no level raises nothing. -/
theorem result_ne_raised_of_orRaise {α : Type} {e : Except NoValue α} {s t : State} {f : α → State}
    {x : Fault} (he : e ≠ .error (.raises x)) (h : orRaise e s (fun a => .next (f a)) = .next t)
    (hf : ∀ a, (f a).result ≠ .raised x) : t.result ≠ .raised x := by
  obtain ⟨a, -, ha⟩ | ⟨y, hraises, rfl⟩ := orRaise_eq_next.mp h
  · cases ha
    exact hf a
  · intro hr
    cases hr
    exact he hraises

theorem eq_of_onceInitialised {s t u : State} (h : onceInitialised s (.next u) = .next t) :
    t = u := by
  obtain ⟨-, h⟩ := onceInitialised_next h
  cases h
  rfl

/-- The operations that read a level (R251). -/
def ReadsLevel : Instr → Prop
  | .compile _ | .compileRow _ _ | .clamp _ | .greyBrightnessAt _ _ _ | .showImage _ => True
  | _ => False

/-- An instruction after which a fault stands in `result` left it there, or reads a level and raised
`LevelRange`. -/
theorem exec_raised {i : Instr} {s t : State} {x : Fault} (h : exec i s = .next t)
    (hr : t.result = .raised x) : s.result = .raised x ∨ LevelRangeRaised s t x ∧ ReadsLevel i := by
  have hkept (hsame : t.result = s.result) : s.result = .raised x := hsame.symm.trans hr
  cases i with
  | compile img =>
    refine .inr ⟨?_, trivial⟩
    exact levelRangeRaised_of_orRaise (raisesLevelRange_compileFrame _ img) h (fun _ => nofun) hr
  | compileRow img r =>
    refine .inr ⟨?_, trivial⟩
    exact levelRangeRaised_of_orRaise (raisesLevelRange_compileRow _ img r) h (fun _ => nofun) hr
  | clamp v =>
    refine .inr ⟨?_, trivial⟩
    exact levelRangeRaised_of_orRaise (raisesLevelRange_clampLevel _ v) h (fun _ => nofun) hr
  | greyBrightnessAt buf x y =>
    refine .inr ⟨?_, trivial⟩
    exact levelRangeRaised_of_orRaise (raisesLevelRange_greyLevel _ buf x y) h (fun _ => nofun) hr
  | showImage img =>
    refine .inr ⟨?_, trivial⟩
    exact levelRangeRaised_of_orRaise (raisesLevelRange_compileFrame _ img) h (fun _ => nofun) hr
  | thresholdOf l =>
    have hread := threshold_ne_raises s.cfg.trom l.toNat x
    exact absurd hr (result_ne_raised_of_orRaise hread h fun _ => nofun)
  | bitBrightnessAt buf i j =>
    have hread := bitLevel_ne_raises buf i j x
    exact absurd hr (result_ne_raised_of_orRaise hread h fun _ => nofun)
  | clearEvent => cases h; cases hr
  | rowhdr pat n => exact .inl (hkept (execRowhdr_engineOnly h).result)
  | evt clr off => exact .inl (hkept (execEvt_engineOnly h).result)
  | handleRowStart => exact .inl (hkept (rowStart_engineOnly h).result)
  | handleRowEvent => exact .inl (hkept (rowEvent_engineOnly h).result)
  | handleRowEnd => exact .inl (hkept (rowStart_engineOnly h).result)
  | handleEvent =>
    obtain ⟨-, hx⟩ := execHandleEvent_next h
    exact .inl (hkept (dispatchPhase_engineOnly hx).result)
  | tick =>
    obtain ⟨-, rfl⟩ := execTick_next h
    exact .inl hr
  | scheduleNext n =>
    obtain ⟨-, -, rfl⟩ := scheduleNext_next h
    exact .inl hr
  | init =>
    obtain ⟨-, -, rfl⟩ := execInit_next h
    exact .inl hr
  | setFrame f =>
    obtain ⟨-, -, rfl⟩ := execSetFrame_next h
    exact .inl hr
  | setFrameCs f =>
    obtain ⟨-, rfl⟩ := execSetFrameCs_next h
    exact .inl hr
  | stop => cases eq_of_onceInitialised h; exact .inl hr
  | irqDisable => cases eq_of_onceInitialised h; exact .inl hr
  | irqEnable => cases eq_of_onceInitialised h; exact .inl hr
  | setCols p =>
    by_cases hbelow : belowCols s.cfg.ncols p
    · cases (execSetCols_of_below hbelow).symm.trans h; exact .inl hr
    · cases (execSetCols_of_beyond hbelow).symm.trans h
  | nop => cases h; exact .inl hr
  | programPeriod tickUs rowTicks => cases h; exact .inl hr
  | setRows p => cases h; exact .inl hr
  | pad => cases h
  | cmdReserved7 => cases h
  | phaseReserved3 => cases h

/-- A foreground program that has ended has no further step: no agent's step writes one. -/
theorem step_keeps_ended {s t : State} (hp : s.prog = []) (h : step s = .next t) : t.prog = [] := by
  obtain ⟨_, -, -, hx⟩ | ⟨_, _, -, -, hnil, rfl⟩ | ⟨_, _, _, _, -, hcons, -, -⟩ |
    ⟨_, _, -, hnil, rfl⟩ := step_next h
  · exact (dispatchPhase_engineOnly hx).prog.trans hp
  · exact hnil hp
  · rw [hp] at hcons
    cases hcons
  · exact hnil hp

/-- Settles O50, by what an instruction that leaves a fault in `result` can have done. -/
theorem onlyLevelRangeIsEverRaised : Obligations.OnlyLevelRangeIsEverRaised := by
  refine ⟨fun i s t x => ⟨noFault_exec i s x, fun h hr => ?_⟩, noFault_step,
    fun s t => step_keeps_ended⟩
  exact (exec_raised h hr).imp_right fun ⟨⟨hp, hv, ht⟩, hreads⟩ => ⟨hp, hv, ht, hreads⟩

/-! ### The first cell out of range (R251) -/

/-- The first byte above 9 that the cells show, in their order. -/
def firstTooHigh (buf : List Byte) (cells : List (Nat × Nat)) : Option Byte :=
  (cells.map fun p => buf.getD (5 * p.2 + p.1) 0).find? fun v => decide (9 < v.toNat)

theorem firstTooHigh_append (buf : List Byte) (a b : List (Nat × Nat)) :
    firstTooHigh buf (a ++ b) = (firstTooHigh buf a).or (firstTooHigh buf b) := by
  simp only [firstTooHigh, List.map_append, List.find?_append]

/-- What a read answers: `LevelRange` of the byte found, or a value where none was found. -/
def ReadsUnless {α : Type} (e : Except NoValue α) : Option Byte → Prop
  | some v => e = .error (.raises (.levelRange v))
  | none => ∃ a, e = .ok a

theorem ReadsUnless.raises {α : Type} {e : Except NoValue α} {bad : Option Byte} {v : Byte}
    (h : ReadsUnless e bad) (hbad : bad = some v) : e = .error (.raises (.levelRange v)) := by
  rwa [hbad] at h

theorem ReadsUnless.reads {α : Type} {e : Except NoValue α} {bad : Option Byte}
    (h : ReadsUnless e bad) (hbad : bad = none) : ∃ a, e = .ok a := by
  rwa [hbad] at h

/-- A list read raises what its first read raises, else what the rest does. -/
theorem readsUnless_cons {α β : Type} {f : α → Except NoValue β} {a : α} {as : List α}
    {bad bads : Option Byte} (ha : ReadsUnless (f a) bad) (has : ReadsUnless (readEach f as) bads) :
    ReadsUnless (readEach f (a :: as)) (bad.or bads) := by
  rw [readEach]
  cases bad with
  | some v => rw [ha.raises rfl]; rfl
  | none =>
    obtain ⟨b, hb⟩ := ha
    rw [hb, Option.none_or]
    cases bads with
    | some v => rw [has.raises rfl]; rfl
    | none =>
      obtain ⟨bs, hbs⟩ := has
      rw [hbs]
      exact ⟨_, rfl⟩

/-- The compiler raises what the first row to raise does (41_frame_compiler.md R161). -/
theorem readsUnless_compileFrame {cfg : Config} {img : Image} {a b c : Option Byte}
    (h0 : ReadsUnless (compileRow cfg img 0) a) (h1 : ReadsUnless (compileRow cfg img 1) b)
    (h2 : ReadsUnless (compileRow cfg img 2) c) :
    ReadsUnless (compileFrame cfg img) (a.or (b.or c)) := by
  rw [compileFrame]
  cases a with
  | some v => rw [h0.raises rfl]; rfl
  | none =>
    obtain ⟨r0, h0⟩ := h0
    rw [h0, Option.none_or]
    cases b with
    | some v => rw [h1.raises rfl]; rfl
    | none =>
      obtain ⟨r1, h1⟩ := h1
      rw [h1, Option.none_or]
      cases c with
      | some v => rw [h2.raises rfl]; rfl
      | none =>
        obtain ⟨r2, h2⟩ := h2
        rw [h2]
        exact ⟨_, rfl⟩

/-- The level of a position from the cell `LAYOUT` puts there (41_frame_compiler.md R151). -/
def levelOfCell (policy : LevelPolicy) (img : Image) : Option (Nat × Nat) → Except NoValue Level
  | none => .ok 0
  | some p => brightnessAt policy img p.1 p.2

theorem levelAt_eq_levelOfCell (cfg : Config) (img : Image) (r c : Nat) :
    levelAt cfg img r c = levelOfCell cfg.levelPolicy img (layoutAt cfg r c) := by
  unfold levelAt
  split
  next h => rw [h, levelOfCell]
  next h => rw [h, levelOfCell]

theorem readEach_map {α β γ : Type} (f : β → Except NoValue γ) (g : α → β) (as : List α) :
    readEach f (as.map g) = readEach (fun a => f (g a)) as := by
  induction as with
  | nil => rfl
  | cons a as ih => simp only [List.map_cons, readEach, ih]

/-- The cells of a row are what `LAYOUT` answers for its columns. -/
theorem map_layoutAt {cfg : Config} {r : Nat} {cells : List (Option (Nat × Nat))}
    (h : cfg.layout[r]? = some cells) : (List.range cells.length).map (layoutAt cfg r) = cells := by
  refine List.ext_getElem (by simp) fun c _ hc => ?_
  simp [layoutAt, h, List.getElem?_eq_getElem hc]

/-- The levels of a row are those of its cells, one after the other. -/
theorem rowLevels_eq_readEach {cfg : Config} (hc : cfg.layoutOk) (img : Image) {r : Nat}
    {cells : List (Option (Nat × Nat))} (h : cfg.layout[r]? = some cells) :
    rowLevels cfg img r = readEach (levelOfCell cfg.levelPolicy img) cells := by
  obtain ⟨-, hlength, -⟩ := hc
  have hcols := hlength cells (List.mem_of_getElem? h)
  calc rowLevels cfg img r
      = readEach (fun c => levelOfCell cfg.levelPolicy img (layoutAt cfg r c))
          (List.range cfg.ncols) :=
        congrArg (readEach · _) (funext (levelAt_eq_levelOfCell cfg img r))
    _ = readEach (levelOfCell cfg.levelPolicy img) ((List.range cfg.ncols).map (layoutAt cfg r)) :=
        (readEach_map _ _ _).symm
    _ = readEach (levelOfCell cfg.levelPolicy img) cells := by rw [← hcols, map_layoutAt h]

/-- Under `REJECT` a byte above 9 is raised and any other gives its level. -/
theorem readsUnless_clampLevel (v : Byte) :
    ReadsUnless (clampLevel .reject v) ([v].find? fun v => decide (9 < v.toNat)) := by
  by_cases hv : 9 < v.toNat
  · rw [List.find?_cons_of_pos (by simpa using hv)]
    exact clampLevel_reject hv
  · rw [List.find?_cons_of_neg (by simpa using hv)]
    exact ⟨_, clampLevel_le (Nat.not_lt.mp hv)⟩

section Reject
variable {buf : List Byte} (hb : buf.length = GREY_BYTES)
include hb

theorem readsUnless_levelOfCell {cell : Option (Nat × Nat)}
    (hin : ∀ p, cell = some p → p.1 < IMG_W ∧ p.2 < IMG_H) :
    ReadsUnless (levelOfCell .reject (.grey buf) cell) (firstTooHigh buf cell.toList) := by
  cases cell with
  | none => exact ⟨0, rfl⟩
  | some p =>
    obtain ⟨hx, hy⟩ := hin p rfl
    obtain ⟨v, hv, hlevel⟩ := greyLevel_in (policy := .reject) hb hx hy
    have hbyte : buf.getD (5 * p.2 + p.1) 0 = v := by rw [List.getD_eq_getElem?_getD, hv]; rfl
    rw [levelOfCell, brightnessAt, hlevel, Option.toList_some, firstTooHigh, List.map_singleton,
      hbyte]
    exact readsUnless_clampLevel v

theorem readsUnless_readEach {cells : List (Option (Nat × Nat))}
    (hin : ∀ p, some p ∈ cells → p.1 < IMG_W ∧ p.2 < IMG_H) :
    ReadsUnless (readEach (levelOfCell .reject (.grey buf)) cells)
      (firstTooHigh buf (cells.filterMap id)) := by
  induction cells with
  | nil => exact ⟨[], rfl⟩
  | cons cell cells ih =>
    have hcell := readsUnless_levelOfCell hb fun p hp => hin p (hp ▸ List.mem_cons_self)
    have hrest := ih fun p hp => hin p (List.mem_cons_of_mem _ hp)
    have hsplit : (cell :: cells).filterMap id = cell.toList ++ cells.filterMap id := by
      cases cell <;> rfl
    rw [hsplit, firstTooHigh_append]
    exact readsUnless_cons hcell hrest

variable {cfg : Config} (hc : cfg.ok) (hp : cfg.levelPolicy = .reject)
include hc hp

/-- `COMPILE_ROW` under `REJECT`: a row with no shown byte above 9 has all its levels, and so its
schedule. -/
theorem readsUnless_compileRow {r : Nat} {cells : List (Option (Nat × Nat))}
    (hr : cfg.layout[r]? = some cells) :
    ReadsUnless (compileRow cfg (.grey buf) r) (firstTooHigh buf (cells.filterMap id)) := by
  have ⟨_, _, hlayout, htrom, _⟩ := hc
  have ⟨hrows, _, _, hgrid⟩ := hlayout
  have hlt : r < NROWS := hrows ▸ (List.getElem?_eq_some_iff.mp hr).1
  have hin : ∀ p, some p ∈ cells → p.1 < IMG_W ∧ p.2 < IMG_H := fun p hmem =>
    hgrid p (List.mem_filterMap.mpr
      ⟨some p, List.mem_flatten.mpr ⟨cells, List.mem_of_getElem? hr, hmem⟩, rfl⟩)
  have hlevels := readsUnless_readEach hb hin
  rw [← hp, ← rowLevels_eq_readEach hlayout _ hr] at hlevels
  cases hbad : firstTooHigh buf (cells.filterMap id) with
  | some v =>
    rw [compileRow, if_pos hlt, hlevels.raises hbad]
    rfl
  | none =>
    obtain ⟨levels, hlevels⟩ := hlevels.reads hbad
    exact ⟨_, (compileRow_of_levels hlt hlevels).trans (scheduleOf_eq htrom levels)⟩

/-- `COMPILE` under `REJECT`, row after row. -/
theorem readsUnless_compileFrame_cells :
    ReadsUnless (compileFrame cfg (.grey buf)) (firstTooHigh buf cfg.cells) := by
  have ⟨_, _, ⟨hrows, _⟩, _⟩ := hc
  obtain ⟨row0, row1, row2, hlayout⟩ := List.length_eq_three.mp hrows
  have hcells : cfg.cells = row0.filterMap id ++ (row1.filterMap id ++ row2.filterMap id) := by
    simp [Config.cells, hlayout]
  rw [hcells, firstTooHigh_append, firstTooHigh_append]
  exact readsUnless_compileFrame (readsUnless_compileRow hb hc hp (by rw [hlayout]; rfl))
    (readsUnless_compileRow hb hc hp (by rw [hlayout]; rfl))
    (readsUnless_compileRow hb hc hp (by rw [hlayout]; rfl))

end Reject

theorem execCompileRow_of_error {s : State} {img : Image} {r : Nat} {x : Fault}
    (h : compileRow s.cfg img r = .error (.raises x)) :
    execCompileRow img r s = .next { s with prog := [], result := .raised x } := by
  rw [execCompileRow, h, orRaise_raises, raise]

theorem execCompileRow_of_ok {s : State} {img : Image} {r : Nat} {rs : RowSched}
    (h : compileRow s.cfg img r = .ok rs) :
    execCompileRow img r s = .next { s with result := .row (encodeRow rs) } := by
  rw [execCompileRow, h, orRaise_ok, returnValue]

/-! ### The engine and the timer after a fault (R251) -/

/-- The state `raise` answers: the foreground program ended, the fault's name in `result`. -/
def ended (x : Fault) (s : State) : State := { s with prog := [], result := .raised x }

/-- The same outcome in a machine whose foreground program a fault has ended. -/
def onceEnded (x : Fault) (o : Res) : Res := andThen o (raise x)

theorem withValue_onceEnded {α : Type} {x : Fault} (e : Except Refusal α) {f g : α → Res}
    (h : ∀ a, f a = onceEnded x (g a)) : withValue e f = onceEnded x (withValue e g) := by
  cases e with
  | error y => rfl
  | ok a => exact h a

theorem ite_onceEnded {x : Fault} {p : Prop} [Decidable p] {a b c d : Res} (h : a = onceEnded x c)
    (h' : b = onceEnded x d) : (if p then a else b) = onceEnded x (if p then c else d) := by
  split
  · exact h
  · exact h'

theorem andThen_onceEnded {x : Fault} {o q : Res} {f : State → Res} (ho : o = onceEnded x q)
    (hf : ∀ s, f (ended x s) = onceEnded x (f s)) : andThen o f = onceEnded x (andThen q f) := by
  rw [ho]
  cases q with
  | next s => exact hf s
  | _ => rfl

theorem awaitNext_ended (x : Fault) (p : BitVec 2) (k : BitVec 4) (n : Nat) {s t : State}
    (h : t = ended x s) : awaitNext p k n t = onceEnded x (awaitNext p k n s) := by
  rw [h]
  exact ite_onceEnded rfl rfl

theorem execRowhdr_ended (x : Fault) (p : ColPat) (n : BitVec 4) (s : State) :
    execRowhdr p n (ended x s) = onceEnded x (execRowhdr p n s) :=
  ite_onceEnded (withValue_onceEnded _ fun _ => awaitNext_ended x _ _ _ rfl)
    (awaitNext_ended x _ _ _ rfl)

theorem execEvt_ended (x : Fault) (p : ColPat) (off : Half) (s : State) :
    execEvt p off (ended x s) = onceEnded x (execEvt p off s) :=
  withValue_onceEnded _ fun _ =>
    ite_onceEnded (withValue_onceEnded _ fun _ => awaitNext_ended x _ _ _ rfl)
      (awaitNext_ended x _ _ _ rfl)

theorem rowStart_ended (x : Fault) (s : State) : rowStart (ended x s) = onceEnded x (rowStart s) :=
  andThen_onceEnded (withValue_onceEnded _ fun _ => rfl) fun s =>
    withValue_onceEnded _ fun _ => execRowhdr_ended x _ _ s

theorem playEventWord_ended (x : Fault) (i : Instr) (s : State) :
    playEventWord i (ended x s) = onceEnded x (playEventWord i s) := by
  cases i with
  | evt clr off => exact execEvt_ended x clr off s
  | _ => rfl

theorem rowEvent_ended (x : Fault) (s : State) :
    rowEvent (ended x s) = onceEnded x (rowEvent s) := by
  refine withValue_onceEnded _ fun _ => ite_onceEnded ?_ rfl
  have hword : wordAtCursor (ended x s) = wordAtCursor s := rfl
  have hcfg : (ended x s).cfg = s.cfg := rfl
  rw [hword, hcfg]
  split
  · rfl
  · split
    · exact playEventWord_ended x _ s
    · rfl

theorem dispatchPhase_ended (x : Fault) (s : State) :
    dispatchPhase (ended x s) = onceEnded x (dispatchPhase s) := by
  have hphase : (ended x s).phase = s.phase := rfl
  rw [dispatchPhase, dispatchPhase, hphase]
  split
  · exact rowStart_ended x s
  · exact rowEvent_ended x s
  · exact rowStart_ended x (advanceRow s)
  · rfl

/-- The handler reads neither the foreground's program nor `result`. -/
theorem execHandleEvent_ended (x : Fault) (s : State) :
    execHandleEvent (ended x s) = onceEnded x (execHandleEvent s) :=
  andThen_onceEnded (andThen_onceEnded (ite_onceEnded rfl rfl) (dispatchPhase_ended x)) fun _ => rfl

/-- Nor does a tick. -/
theorem execTick_ended (x : Fault) (s : State) : execTick (ended x s) = onceEnded x (execTick s) :=
  ite_onceEnded rfl rfl

theorem onceEnded_next {x : Fault} {o q : Res} {t : State} (h : q = onceEnded x o)
    (ho : o = .next t) : q = .next (ended x t) := by
  rw [h, ho]
  rfl

/-- Settles O33: the compiler reads the cells in order and raises the first byte above 9; the engine
and the timer do not read what the fault writes. -/
theorem rejectReportsTheFirstBadCell : Obligations.RejectReportsTheFirstBadCell := by
  intro s buf hc hb hp
  have hframe := readsUnless_compileFrame_cells hb hc hp
  refine ⟨fun v hv => ?_, fun v t => ?_, fun hnone => ?_, fun r cells hr => ?_⟩
  · have hraised := hframe.raises hv
    exact ⟨execCompile_of_error hraised, execShowImage_of_error hraised⟩
  · exact ⟨onceEnded_next (execHandleEvent_ended (.levelRange v) s),
      onceEnded_next (execTick_ended (.levelRange v) s)⟩
  · obtain ⟨f, hf⟩ := hframe.reads hnone
    exact ⟨f, hf, execCompile_of_ok hf, Encoding.execShowImage_eq hf⟩
  · have hrow := readsUnless_compileRow hb hc hp hr
    refine ⟨fun v hv => execCompileRow_of_error (hrow.raises hv), fun hnone => ?_⟩
    obtain ⟨rs, hrs⟩ := hrow.reads hnone
    exact ⟨rs, hrs, execCompileRow_of_ok hrs⟩

end Sys2Proof.Proofs.Exceptions
end
